-- ==== Sys2Proof/Word.lean ====
section
/-!
DEFINITION. The word types of the block (00_scope.md R6): a stream byte, a 16-bit header field, a 64-bit grid
cell. Every value is unsigned.
-/

namespace Sys2Proof

/-- One byte of SRC or DST (20_memory.md R30). -/
abbrev Byte := BitVec 8

/-- A 16-bit header field (00_scope.md R6). -/
abbrev Field := BitVec 16

/-- A 64-bit grid cell (00_scope.md R6). -/
abbrev Cell := BitVec 64

end Sys2Proof
end

