-- ==== Sys2Proof/Config.lean ====
section
/-!
DEFINITION. What the implementation fixes (00_scope.md R7) and the free values. GRID_CELLS, the one parameter the
spec leaves to the model's user, is not here: it is `State.gridCells`, so that every statement holds for every capacity.
-/

namespace Sys2Proof

/-- How two stream bytes make a raw 16-bit value (92_eei_decisions.md D1). -/
inductive ByteOrder where
  | little
  | big
  deriving DecidableEq, Repr

/-- NATIVE_ORDER (00_scope.md R7). -/
def Config.nativeOrder : ByteOrder := .little

/-- MARKER_LITTLE (00_scope.md R7, 30_encoding.md R52). -/
def Config.markerLittle : Field := 0x4949

/-- MARKER_BIG (00_scope.md R7, 30_encoding.md R52). -/
def Config.markerBig : Field := 0x4D4D

/-- FORMAT_TABLE (30_encoding.md R54): format code and bytes per pixel. -/
def Config.formatTable : List (Field × Nat) :=
  [(0, 1), (2, 3), (3, 4), (12, 1), (14, 3), (15, 4), (16, 2), (18, 6), (19, 8)]

/-- GRID_CELLS of this hardware (00_scope.md R7): the value `State.gridCells` has after reset. -/
def Config.gridCells : Nat := 2 ^ 32

/-- POS_BITS (00_scope.md R7): the width of the stream positions. -/
def Config.posBits : Nat := 36

/-- HEADER_BYTES (00_scope.md R7). -/
def Config.headerBytes : Nat := 8

/-- The free values (93_implementation_defined.md U1, U3, U4, U7): a constant without a body, so nothing can say what
a draw is. `State.draws` counts the draws. Log entry 1. -/
opaque Config.freeValue : Nat → BitVec 64

end Sys2Proof
end

