-- ==== Sys2Proof/Syntax.lean ====
section
/-!
DEFINITION. The syntax: one constructor of `Instr` per row of spec/opcode_table.json, the four kinds of words the block
decodes (30_encoding.md R50), and the header of an image (30_encoding.md R51).
-/

namespace Sys2Proof

/-- The rows of the opcode table. CONVERT carries its two flags (30_encoding.md R58); no other row has an operand. -/
inductive Instr where
  | convert (fh fv : Bool)
  | idle
  | srcopen
  | dechdr
  | decgrid
  | fliph
  | flipv
  | dstopen
  | enchdr
  | encgrid
  | close
  | markerLittle
  | markerBig
  | fmt0
  | fmt2
  | fmt3
  | fmt12
  | fmt14
  | fmt15
  | fmt16
  | fmt18
  | fmt19
  deriving DecidableEq, Repr

/-- A word the block decodes, of one of the table's four formats: CMD8 (30_encoding.md R58), STAGE4 (R60), HDR_MARKER16
(R52, the raw value) and HDR_FORMAT16 (R54, the logical value). -/
inductive CodeWord where
  | command (c : BitVec 8)
  | stage   (c : BitVec 4)
  | marker  (m : Field)
  | format  (f : Field)
  deriving DecidableEq, Repr

/-- The header of an image as the header registers hold it (10_state.md R11): the marker raw, the other three logical. -/
structure Header where
  marker : Field
  width  : Field
  height : Field
  format : Field
  deriving DecidableEq, Repr

end Sys2Proof
end

