-- ==== Sys2Proof/WellFormed.lean ====
section
/-!
DEFINITION. Which words and headers are legal (30_encoding.md R51, R52, R54, R59, R60, R61). A term of `Instr` has no
ill-formed value: CONVERT's operands are two booleans and all four combinations are legal (30_encoding.md R59).
-/

namespace Sys2Proof

/-- MARKER_LITTLE or MARKER_BIG (30_encoding.md R52). -/
def isSentinel (m : Field) : Bool := m == Config.markerLittle || m == Config.markerBig

/-- The word is one the encoding rules call legal: a command word with `word & 0xE7 = 0x01` (30_encoding.md R59), a stage
code 0 to 9 (R60), a sentinel (R52), a code of the format table (R54). -/
def CodeWord.legal : CodeWord → Bool
  | .command c => c &&& 0xE7 == 0x01
  | .stage c   => c.toNat ≤ 9
  | .marker m  => isSentinel m
  | .format f  => (Config.formatTable.lookup f).isSome

/-- The header is valid (10_state.md R24, first sentence): a sentinel, no zero dimension, a known format code. -/
def Header.valid (h : Header) : Bool :=
  isSentinel h.marker && h.width != 0 && h.height != 0 && (Config.formatTable.lookup h.format).isSome

end Sys2Proof
end

