-- ==== Sys2Proof/Decode.lean ====
section
/-!
DEFINITION. The decoder, total on every word and refusing the illegal ones by name, the byte layout of the words, the
encoder, and the table's view of both (`decodeTableWord`).
-/

namespace Sys2Proof

/-- Why a word is no instruction (30_encoding.md R61). -/
inductive DecodeError where
  | illegalCommand   -- 30_encoding.md R59
  | illegalStage     -- 30_encoding.md R60: codes 10 to 15
  | illegalMarker    -- 30_encoding.md R52
  | illegalFormat    -- 30_encoding.md R54
  deriving DecidableEq, Repr

/-- The CMD8 word (30_encoding.md R58, R59): OP = bits 2:0 = 1, FH = bit 3, FV = bit 4, bits 7:5 = 0. -/
def decodeCommand (c : BitVec 8) : Except DecodeError Instr :=
  if c.extractLsb' 0 3 = 1 ∧ c.extractLsb' 5 3 = 0 then .ok (.convert (c.getLsbD 3) (c.getLsbD 4))
  else .error .illegalCommand

/-- The stage codes of 30_encoding.md R60. -/
def stageRows : List (BitVec 4 × Instr) :=
  [(0, .idle), (1, .srcopen), (2, .dechdr), (3, .decgrid), (4, .fliph), (5, .flipv), (6, .dstopen), (7, .enchdr),
   (8, .encgrid), (9, .close)]

/-- The rows of FORMAT_TABLE as instructions, in the table's order (30_encoding.md R54). -/
def formatInstrs : List Instr := [.fmt0, .fmt2, .fmt3, .fmt12, .fmt14, .fmt15, .fmt16, .fmt18, .fmt19]

/-- The format code of row `k` of FORMAT_TABLE. Every format code is read from the table (00_scope.md R7: a corrected literal
changes one table and no rule). -/
def formatCode (k : Nat) : Field := (Config.formatTable.map Prod.fst).getD k 0

/-- The format codes of FORMAT_TABLE, each with its row. -/
def formatRows : List (Field × Instr) := (Config.formatTable.map Prod.fst).zip formatInstrs

/-- A stage code (30_encoding.md R60). -/
def decodeStage (c : BitVec 4) : Except DecodeError Instr :=
  match stageRows.lookup c with
  | some i => .ok i
  | none   => .error .illegalStage

/-- A raw marker (30_encoding.md R52). -/
def decodeMarker (m : Field) : Except DecodeError Instr :=
  if m = Config.markerLittle then .ok .markerLittle
  else if m = Config.markerBig then .ok .markerBig
  else .error .illegalMarker

/-- A logical format code (30_encoding.md R54). -/
def decodeFormat (f : Field) : Except DecodeError Instr :=
  match formatRows.lookup f with
  | some i => .ok i
  | none   => .error .illegalFormat

/-- The decoder: total, one refusal per word format. -/
def decode : CodeWord → Except DecodeError Instr
  | .command c => decodeCommand c
  | .stage c   => decodeStage c
  | .marker m  => decodeMarker m
  | .format f  => decodeFormat f

/-- Operand assembly of a field: the raw value of the byte at the lower offset and the byte after it, in the native order
(20_memory.md R39, 30_encoding.md R53). -/
def joinRaw (lower higher : Byte) : Field :=
  match Config.nativeOrder with
  | .little => higher ++ lower
  | .big    => lower ++ higher

/-- The two stream bytes of a raw value, in the order they are given (30_encoding.md R53). -/
def splitRaw (raw : Field) : List Byte :=
  match Config.nativeOrder with
  | .little => [raw.extractLsb' 0 8, raw.extractLsb' 8 8]
  | .big    => [raw.extractLsb' 8 8, raw.extractLsb' 0 8]

/-- The word of an instruction, from 30_encoding.md R52, R54, R58 and R60. -/
def encode : Instr → CodeWord
  | .convert fh fv => .command (0#3 ++ BitVec.ofBool fv ++ BitVec.ofBool fh ++ 1#3)
  | .idle          => .stage 0
  | .srcopen       => .stage 1
  | .dechdr        => .stage 2
  | .decgrid       => .stage 3
  | .fliph         => .stage 4
  | .flipv         => .stage 5
  | .dstopen       => .stage 6
  | .enchdr        => .stage 7
  | .encgrid       => .stage 8
  | .close         => .stage 9
  | .markerLittle  => .marker Config.markerLittle
  | .markerBig     => .marker Config.markerBig
  | .fmt0          => .format (formatCode 0)
  | .fmt2          => .format (formatCode 1)
  | .fmt3          => .format (formatCode 2)
  | .fmt12         => .format (formatCode 3)
  | .fmt14         => .format (formatCode 4)
  | .fmt15         => .format (formatCode 5)
  | .fmt16         => .format (formatCode 6)
  | .fmt18         => .format (formatCode 7)
  | .fmt19         => .format (formatCode 8)

/-- The stage code of a word of the opcode table's STAGE4 rows. PHASE has four bits (30_encoding.md R60); the rows FLIPH to
CLOSE carry in the table a one-bit field PHASE at bit `code` that the spec's encoding does not have (98_reader.md: the
reader made it), and it is ignored. -/
def tableStage (w : Nat) : Option (BitVec 4) :=
  if w < 16 then some (BitVec.ofNat 4 w)
  else if 4 ≤ w % 16 ∧ w = w % 16 + 2 ^ (w % 16) then some (BitVec.ofNat 4 (w % 16))
  else none

/-- The words a table row of `nbits` bits with value `w` can be, in the order they are tried: eight bits are a command word
or a stage code in the low four bits, sixteen bits a marker or a format code as they stand in their field, or a stage row
whose reader-made field lies in the second byte. Log entry 14. -/
def tableCandidates (nbits w : Nat) : List CodeWord :=
  let stage := match tableStage w with
    | some c => [CodeWord.stage c]
    | none   => []
  if nbits ≤ 4 then stage
  else if nbits ≤ 8 then CodeWord.command (BitVec.ofNat 8 w) :: stage
  else if nbits ≤ 16 then
    let raw := joinRaw (BitVec.ofNat 8 w) (BitVec.ofNat 8 (w / 256))
    CodeWord.marker raw :: CodeWord.format raw :: stage
  else []

/-- The first candidate the decoder accepts. -/
def firstLegal : List CodeWord → Option (CodeWord × Instr)
  | []      => none
  | w :: ws =>
    match decode w with
    | .ok i    => some (w, i)
    | .error _ => firstLegal ws

/-- What the decoder reads from a word of the opcode table. -/
def decodeTableWord (nbits w : Nat) : Option Instr := (firstLegal (tableCandidates nbits w)).map Prod.snd

end Sys2Proof
end

