-- ==== Sys2Proof/Machine/State.lean ====
section
/-!
DEFINITION. The state of the block and its environment (10_state.md), the reasons a step can stop, and the state after
reset. INVENTORY.md, '## State', lists every field with its rule and reset value.
-/

namespace Sys2Proof.Machine

/-- The stages, PHASE's values (10_state.md R19, 30_encoding.md R60). Codes 10 to 15 are never taken. -/
inductive Stage where
  | idle
  | srcopen
  | dechdr
  | decgrid
  | fliph
  | flipv
  | dstopen
  | enchdr
  | encgrid
  | close
  deriving DecidableEq, Repr

/-- The error conditions, STATUS.ERR's values (60_exceptions.md R110). Codes 9 to 15 are never written. -/
inductive ErrCode where
  | none
  | ioError
  | invalidMarker
  | invalidDimension
  | unsupportedFormat
  | trailingDataError
  | truncatedPayloadError
  | illegalCommand
  | capacityError
  deriving DecidableEq, Repr

/-- Why a step stops: a primitive or a stage used outside the condition its own rule says it requires. The spec gives such a
use no effect, and the sequence of CONVERT never makes one (log entry 10). All are safe: the machine stops where the
spec says nothing. -/
inductive Fault where
  /-- Raised by InTake with SRC not open (20_memory.md R32 "Requires SRC.open"); safe. -/
  | srcNotOpen
  /-- Raised by OutPut with DST not open (20_memory.md R35 "Requires DST.open"); safe. -/
  | dstNotOpen
  /-- Raised by GridRead and GridWrite outside the header's dimensions (20_memory.md R37); safe. -/
  | cellOutOfRange
  /-- Raised by GridRead of a cell that holds no specified value (10_state.md R15, U2; log entry 3); safe. -/
  | cellUnspecified
  /-- Raised by DECGRID and ENCHDR with HV = 0 (41_pixel_grid_codec.md R82, 40_header_codec.md R73 "Requires HV = 1"); safe. -/
  | headerNotValid
  /-- Raised by FLIPH, FLIPV and ENCGRID with GV = 0 (42_transform_engine.md R90, R91, 41_pixel_grid_codec.md R83); safe. -/
  | gridNotValid
  /-- Raised by DECHDR, DECGRID, ENCHDR, ENCGRID when IPOS or OPOS is not where the rule requires it; safe. -/
  | wrongPosition
  deriving DecidableEq, Repr

/-- What has no meaning here. -/
inductive Refusal where
  /-- Raised by no arm of this model: every row of the table has its meaning. -/
  | notModelled (mnemonic : String)
  /-- Raised when the host binds a stream while BUSY = 1: a move the spec gives no step (70_reset_and_hazards.md R133, R134);
  safe. -/
  | rebindWhileBusy
  deriving DecidableEq, Repr

/-- The source record (10_state.md R22). -/
structure Src where
  ok     : Bool
  bytes  : List Byte
  isOpen : Bool
  deriving DecidableEq, Repr

/-- The destination record (10_state.md R22); `limit = none` is `unbounded`. -/
structure Dst where
  ok     : Bool
  limit  : Option Nat
  bytes  : List Byte
  isOpen : Bool
  deriving DecidableEq, Repr

/-- One move of the host (10_state.md R10, R23; 70_reset_and_hazards.md R132, R134). Log entry 4. -/
inductive HostMove where
  /-- A write of a word to CMD (43_orchestration.md R104). -/
  | writeCmd (c : BitVec 8)
  /-- A write to register number `n + 1`: STATUS, the header registers, or a number that does not exist (10_state.md R23). -/
  | writeOther (n : Nat) (v : BitVec 16)
  /-- A read of register number `n` (10_state.md R23). -/
  | read (n : Nat)
  /-- Bind SRC (70_reset_and_hazards.md R132 step 2). -/
  | bindSrc (ok : Bool) (bytes : List Byte)
  /-- Bind DST (70_reset_and_hazards.md R132 step 3): `bytes` is what the destination holds. -/
  | bindDst (ok : Bool) (limit : Option Nat) (bytes : List Byte)
  /-- The reset event (70_reset_and_hazards.md R130); `given` is how many bytes the stage under way had given to DST when it
  came (R131). Log entry 11. -/
  | reset (given : Nat)
  /-- The host waits while the CODEC performs one stage. -/
  | wait
  deriving DecidableEq, Repr

/-- The grid memory: flat cell address and cell (20_memory.md R37), addresses strictly rising; an unlisted cell has no
specified value (10_state.md R15). Log entry 3. -/
abbrev GridMem := List (Nat × Cell)

/-- The state: 10_state.md R11 to R22, GRID_CELLS (00_scope.md R7), and the model's own `host`, `rdata`, `draws`. -/
structure State where
  hdr       : Header
  bytew     : BitVec 4
  hv        : Bool
  gv        : Bool
  fh        : Bool
  fv        : Bool
  grid      : GridMem
  pix       : Cell
  busy      : Bool
  done      : Bool
  ok        : Bool
  err       : ErrCode
  phase     : Stage
  row       : BitVec 16
  col       : BitVec 16
  lane      : BitVec 4
  ipos      : Nat
  opos      : Nat
  src       : Src
  dst       : Dst
  gridCells : Nat
  host      : List HostMove
  rdata     : BitVec 16
  draws     : Nat
  deriving DecidableEq, Repr

/-- The state right after reset (10_state.md R27). The header registers, BYTEW, PIX, ROW, COL and LANE are unspecified there
and 0 here (DESIGN CHOICE, log entry 2); the streams are the host's and unbound (DESIGN CHOICE, log entry 7). -/
def State.reset : State where
  hdr       := ⟨0, 0, 0, 0⟩
  bytew     := 0
  hv        := false
  gv        := false
  fh        := false
  fv        := false
  grid      := []
  pix       := 0
  busy      := false
  done      := false
  ok        := false
  err       := .none
  phase     := .idle
  row       := 0
  col       := 0
  lane      := 0
  ipos      := 0
  opos      := 0
  src       := ⟨false, [], false⟩
  dst       := ⟨false, none, [], false⟩
  gridCells := Config.gridCells
  host      := []
  rdata     := 0
  draws     := 0

end Sys2Proof.Machine
end

