-- ==== Sys2Proof/Machine/Operands.lean ====
section
/-!
DEFINITION. The functions of the datapath: ByteSwap16 and the conditional swap (40_header_codec.md R70, 30_encoding.md R53),
ByteWidthOf (R71), the lane functions (41_pixel_grid_codec.md R80, R81), the codes of PHASE and STATUS.ERR, and the index
ranges of the stages' loops.
-/

namespace Sys2Proof.Machine

/-- ByteSwap16 (40_header_codec.md R70): `v[7:0] ++ v[15:8]`. -/
def byteSwap16 (v : Field) : Field := v.extractLsb' 0 8 ++ v.extractLsb' 8 8

/-- The conditional swap of width, height and format code, the same on the way in and out (30_encoding.md R53,
70_reset_and_hazards.md R139). -/
def swapFor (marker v : Field) : Field := if marker = Config.markerBig then byteSwap16 v else v

/-- ByteWidthOf (40_header_codec.md R71). -/
def byteWidthOf (code : Field) : Option Nat := Config.formatTable.lookup code

/-- The raw 16-bit value of the two bytes an `InTake(2)` returned (40_header_codec.md R72: `t[1] ++ t[0]`). -/
def rawOf (t : List Byte) : Field := joinRaw (t.getD 0 0) (t.getD 1 0)

/-- Lane `k` of a cell (00_scope.md section 4.1): bits `8k+7 : 8k`. -/
def lane (c : Cell) (k : Nat) : Byte := c.extractLsb' (8 * k) 8

/-- The cell with lane `k` replaced by `b` (41_pixel_grid_codec.md R80: `PIX[8k+7 : 8k] <- b`). -/
def setLane (c : Cell) (k : Nat) (b : Byte) : Cell :=
  (c &&& ~~~((0xFF : Cell) <<< (8 * k))) ||| ((b.zeroExtend 64) <<< (8 * k))

/-- The bytes go to lanes `k`, `k + 1`, ... in file order. -/
def fillLanes : List Byte → Nat → Cell → Cell
  | [],      _, c => c
  | b :: bs, k, c => fillLanes bs (k + 1) (setLane c k b)

/-- LaneAssemble (41_pixel_grid_codec.md R80): all lanes zero, then lane `k` takes byte `k`. -/
def laneAssemble (p : List Byte) : Cell := fillLanes p 0 0

/-- LaneEmit (41_pixel_grid_codec.md R81): lanes 0 to `B - 1`, lane 0 first. -/
def laneEmit (c : Cell) (B : Nat) : List Byte := (List.range B).map (lane c)

/-- The 4-bit code of a stage (30_encoding.md R60). -/
def Stage.code : Stage → BitVec 4
  | .idle    => 0
  | .srcopen => 1
  | .dechdr  => 2
  | .decgrid => 3
  | .fliph   => 4
  | .flipv   => 5
  | .dstopen => 6
  | .enchdr  => 7
  | .encgrid => 8
  | .close   => 9

/-- The 4-bit code of an error (60_exceptions.md R110). -/
def ErrCode.code : ErrCode → BitVec 4
  | .none                  => 0
  | .ioError               => 1
  | .invalidMarker         => 2
  | .invalidDimension      => 3
  | .unsupportedFormat     => 4
  | .trailingDataError     => 5
  | .truncatedPayloadError => 6
  | .illegalCommand        => 7
  | .capacityError         => 8

/-- The stage after a stage that raised nothing (43_orchestration.md R103). -/
def nextStage (fh fv : Bool) : Stage → Stage
  | .idle    => .idle
  | .srcopen => .dechdr
  | .dechdr  => .decgrid
  | .decgrid => if fh then .fliph else if fv then .flipv else .dstopen
  | .fliph   => if fv then .flipv else .dstopen
  | .flipv   => .dstopen
  | .dstopen => .enchdr
  | .enchdr  => .encgrid
  | .encgrid => .close
  | .close   => .idle

/-- Every pair `(a, b)` with `a < m` and `b < n`, `a` in the outer loop and `b` in the inner. -/
def pairs (m n : Nat) : List (Nat × Nat) :=
  (List.range m).flatMap fun a => (List.range n).map fun b => (a, b)

/-- The walk of DECGRID and ENCGRID: rows from the top, in a row columns from the left (41_pixel_grid_codec.md R82, R83). -/
def rowMajor (h w : Nat) : List (Nat × Nat) := pairs h w

/-- The pairs FLIPH exchanges, named by their left cell (42_transform_engine.md R90). -/
def fliphPairs (h w : Nat) : List (Nat × Nat) := pairs h (w / 2)

/-- The pairs FLIPV exchanges, named by their upper cell; columns are the outer loop (42_transform_engine.md R91). -/
def flipvPairs (h w : Nat) : List (Nat × Nat) := (pairs w (h / 2)).map Prod.swap

end Sys2Proof.Machine
end

