-- ==== Sys2Proof/Machine/Ops.lean ====
section
/-!
DEFINITION. The named operations over the streams, the grid and the registers (20_memory.md R31 to R38), the free draws of
what the spec leaves unspecified, and raising an error as one operation (60_exceptions.md R121).
-/

namespace Sys2Proof.Machine

/-! ### A stage's flow -/

/-- How a piece of a stage ends: with a value, by `raise E` (60_exceptions.md R121), or at a use the spec does not allow. -/
inductive Flow (α : Type) where
  | ok    (a : α) (s : State)
  | raise (e : ErrCode) (s : State)
  | stop  (f : Fault)

/-- One piece after the other; an error or a stop ends the stage at that point (60_exceptions.md R121). -/
def Flow.bind {α β : Type} (x : Flow α) (f : α → State → Flow β) : Flow β :=
  match x with
  | .ok a s    => f a s
  | .raise e s => .raise e s
  | .stop r    => .stop r

/-- Apply `g` to the state however the piece ends, unless it stops. -/
def Flow.finally {α : Type} (g : State → State) : Flow α → Flow α
  | .ok a s    => .ok a (g s)
  | .raise e s => .raise e (g s)
  | .stop r    => .stop r

/-- Apply `g` to the state when the piece ends by an error. -/
def Flow.onRaise {α : Type} (g : State → State) : Flow α → Flow α
  | .ok a s    => .ok a s
  | .raise e s => .raise e (g s)
  | .stop r    => .stop r

/-- A condition the rule says a use requires. -/
def need (c : Bool) (f : Fault) (k : Flow Unit) : Flow Unit := if c then k else .stop f

/-- `for x in xs: body x` (00_scope.md section 4.2). -/
def forEach {α : Type} (body : α → State → Flow Unit) : List α → State → Flow Unit
  | [],      s => .ok () s
  | x :: xs, s => (body x s).bind fun _ s' => forEach body xs s'

/-! ### Values the spec leaves unspecified -/

/-- The header registers and BYTEW are unspecified (93_implementation_defined.md U1): five free values. -/
def State.forgetHeader (s : State) : State :=
  { s with
    hdr   := ⟨(Config.freeValue s.draws).setWidth 16, (Config.freeValue (s.draws + 1)).setWidth 16,
              (Config.freeValue (s.draws + 2)).setWidth 16, (Config.freeValue (s.draws + 3)).setWidth 16⟩
    bytew := (Config.freeValue (s.draws + 4)).setWidth 4
    draws := s.draws + 5 }

/-- PIX, ROW, COL and LANE are unspecified (93_implementation_defined.md U3): four free values, LANE's within 0 to 8
(10_state.md R20). -/
def State.forgetScan (s : State) : State :=
  { s with
    pix   := Config.freeValue s.draws
    row   := (Config.freeValue (s.draws + 1)).setWidth 16
    col   := (Config.freeValue (s.draws + 2)).setWidth 16
    lane  := BitVec.ofNat 4 ((Config.freeValue (s.draws + 3)).toNat % 9)
    draws := s.draws + 4 }

/-- IPOS is unspecified (93_implementation_defined.md U4): a free value of 36 bits (10_state.md R21). -/
def State.forgetIpos (s : State) : State :=
  { s with
    ipos  := (Config.freeValue s.draws).toNat % 2 ^ Config.posBits
    draws := s.draws + 1 }

/-- Every cell is unspecified (93_implementation_defined.md U2): no cell has a value. -/
def State.forgetGrid (s : State) : State := { s with grid := [] }

/-! ### The source -/

/-- SrcOpen (20_memory.md R31); `none` is `fail`. -/
def srcOpen (s : State) : Option State :=
  if s.src.ok then some { s with src := { s.src with isOpen := true }, ipos := 0 } else none

/-- InTake (20_memory.md R32): the next `n` bytes, or `none` for `short`, after which IPOS is unspecified. -/
def inTake (n : Nat) (s : State) : Flow (Option (List Byte)) :=
  if s.src.isOpen then
    if s.ipos + n ≤ s.src.bytes.length then
      .ok (some ((s.src.bytes.drop s.ipos).take n)) { s with ipos := s.ipos + n }
    else .ok none s.forgetIpos
  else .stop .srcNotOpen

/-- InTake whose caller raises `e` on `short`. -/
def takeOr (e : ErrCode) (n : Nat) (s : State) : Flow (List Byte) :=
  (inTake n s).bind fun t s' =>
    match t with
    | some p => .ok p s'
    | none   => .raise e s'

/-- InAtEnd (20_memory.md R33): no further byte exists. -/
def inAtEnd (s : State) : Bool := s.src.bytes.length ≤ s.ipos

/-! ### The destination -/

/-- DstOpen (20_memory.md R34); `none` is `fail`. -/
def dstOpen (s : State) : Option State :=
  if s.dst.ok then some { s with dst := { s.dst with isOpen := true, bytes := [] }, opos := 0 } else none

/-- The sink accepts one more byte (20_memory.md R35). -/
def sinkAccepts (s : State) : Bool :=
  match s.dst.limit with
  | none   => true
  | some l => s.opos < l

/-- OutPut (20_memory.md R35); `false` is `fail`. -/
def outPut (b : Byte) (s : State) : Flow Bool :=
  if s.dst.isOpen then
    if sinkAccepts s then .ok true { s with dst := { s.dst with bytes := s.dst.bytes ++ [b] }, opos := s.opos + 1 }
    else .ok false s
  else .stop .dstNotOpen

/-- `if OutPut(b) = fail: raise IoError` (40_header_codec.md R73, 41_pixel_grid_codec.md R83). -/
def give (b : Byte) (s : State) : Flow Unit :=
  (outPut b s).bind fun accepted s' => if accepted then .ok () s' else .raise .ioError s'

/-- Close (20_memory.md R36). -/
def State.closeStreams (s : State) : State :=
  { s with src := { s.src with isOpen := false }, dst := { s.dst with isOpen := false } }

/-! ### The grid -/

/-- The cell at a flat address, if it has a specified value. -/
def GridMem.read : GridMem → Nat → Option Cell
  | [],          _ => none
  | (k, v) :: m, a => if a = k then some v else GridMem.read m a

/-- The grid with the cell at `a` set to `v`, in canonical form. -/
def GridMem.write : GridMem → Nat → Cell → GridMem
  | [],          a, v => [(a, v)]
  | (k, w) :: m, a, v =>
    if a < k then (a, v) :: (k, w) :: m
    else if a = k then (a, v) :: m
    else (k, w) :: GridMem.write m a v

/-- Every listed address is at least `lo` and the addresses rise strictly. -/
def GridMem.wfFrom : GridMem → Nat → Bool
  | [],          _  => true
  | (k, _) :: m, lo => decide (lo ≤ k) && GridMem.wfFrom m (k + 1)

/-- The canonical form of the grid memory: addresses strictly rising. -/
def GridMem.wf (m : GridMem) : Bool := GridMem.wfFrom m 0

/-- The number of columns, `W`. -/
def State.wd (s : State) : Nat := s.hdr.width.toNat

/-- The number of rows, `H`. -/
def State.ht (s : State) : Nat := s.hdr.height.toNat

/-- The byte width, `B`. -/
def State.bw (s : State) : Nat := s.bytew.toNat

/-- `A(i, j) = i * HDR.WIDTH + j` (20_memory.md R37). -/
def State.cellAddr (s : State) (i j : Nat) : Nat := i * s.wd + j

/-- `0 <= i < HDR.HEIGHT` and `0 <= j < HDR.WIDTH` (20_memory.md R37). -/
def State.inGrid (s : State) (i j : Nat) : Bool := decide (i < s.ht) && decide (j < s.wd)

/-- GridRead (20_memory.md R37). -/
def gridRead (i j : Nat) (s : State) : Flow Cell :=
  if s.inGrid i j then
    match s.grid.read (s.cellAddr i j) with
    | some v => .ok v s
    | none   => .stop .cellUnspecified
  else .stop .cellOutOfRange

/-- GridWrite (20_memory.md R37). -/
def gridWrite (i j : Nat) (v : Cell) (s : State) : Flow Unit :=
  if s.inGrid i j then .ok () { s with grid := s.grid.write (s.cellAddr i j) v } else .stop .cellOutOfRange

/-- The scan counters name the cell `(i, j)` (10_state.md R20). -/
def State.scanTo (s : State) (ij : Nat × Nat) : State :=
  { s with row := BitVec.ofNat 16 ij.1, col := BitVec.ofNat 16 ij.2 }

/-- The row ROW names. -/
def State.ri (s : State) : Nat := s.row.toNat

/-- The column COL names. -/
def State.cj (s : State) : Nat := s.col.toNat

/-- A walk over the grid: for each position in order, ROW and COL name it and the body is performed (10_state.md R20). -/
def walk (body : State → Flow Unit) (positions : List (Nat × Nat)) (s : State) : Flow Unit :=
  forEach (fun ij s' => body (s'.scanTo ij)) positions s

/-! ### Errors and the end of a stage -/

/-- `raise E` inside a stage (60_exceptions.md R121, 43_orchestration.md R103): the code is recorded and CLOSE is the next
stage. No state is saved and nothing returns (R123). -/
def raiseError (e : ErrCode) (s : State) : State := { s with err := e, phase := .close }

/-- The refusal of an illegal command word (43_orchestration.md R105): nothing else changes. While BUSY = 1 the write is
ignored (R104). -/
def refuseCommand (s : State) : State :=
  if s.busy then s else { s with done := true, ok := false, err := .illegalCommand }

/-- The end of stage `st`: PHASE goes to the next stage of the sequence, or to CLOSE on an error (43_orchestration.md R103,
10_state.md R19). -/
def stageEnd (st : Stage) : Flow Unit → Host.Outcome State Fault Refusal
  | .ok _ s    => .next { s with phase := nextStage s.fh s.fv st }
  | .raise e s => .next (raiseError e s)
  | .stop f    => .fault f

/-- The end of a piece that leaves the stage under way: PHASE keeps its value. -/
def stageGoesOn : Flow Unit → Host.Outcome State Fault Refusal
  | .ok _ s    => .next s
  | .raise e s => .next (raiseError e s)
  | .stop f    => .fault f

end Sys2Proof.Machine
end

