-- ==== Sys2Proof/Machine/Flags.lean ====
section
/-!
DEFINITION. The status register and the flag changes of acceptance and completion (10_state.md R13, R14, R18,
43_orchestration.md R102, R104).
-/

namespace Sys2Proof.Machine

/-- STATUS as the host reads it (10_state.md R18): ERR in bits 7:4, then HV, OK, DONE, BUSY. -/
def State.statusByte (s : State) : BitVec 8 :=
  s.err.code ++ BitVec.ofBool s.hv ++ BitVec.ofBool s.ok ++ BitVec.ofBool s.done ++ BitVec.ofBool s.busy

/-- What the acceptance of a command does to the flags (43_orchestration.md R104). -/
def State.acceptFlags (s : State) (fh fv : Bool) : State :=
  { s with fh := fh, fv := fv, busy := true, done := false, ok := false, err := .none, hv := false, gv := false }

/-- What CLOSE does to the flags (43_orchestration.md R102). -/
def State.closeFlags (s : State) : State :=
  { s with gv := false, ok := decide (s.err = .none), busy := false, done := true, phase := .idle }

end Sys2Proof.Machine
end

