-- ==== Sys2Proof/Machine/HeaderCodec.lean ====
section
/-!
DEFINITION. The Header Codec (40_header_codec.md): DECHDR, ENCHDR, and the rows of the marker and of the format code, which
are the parts of DECHDR that those words select.
-/

namespace Sys2Proof.Machine

/-- One 2-byte field of the header: IoError on a short read (40_header_codec.md R72). -/
def takeField (s : State) : Flow Field := (takeOr .ioError 2 s).bind fun t s' => .ok (rawOf t) s'

/-- DECHDR from an accepted marker to the dimension check (40_header_codec.md R72): HDR.MARKER is written, all three fields
are taken, then swapped or not, written, and then checked. -/
def acceptMarker (m : Field) (s : State) : Flow Unit :=
  (takeField { s with hdr := { s.hdr with marker := m } }).bind fun w s1 =>
  (takeField s1).bind fun h s2 =>
  (takeField s2).bind fun f s3 =>
    let s4 := { s3 with hdr := ⟨m, swapFor m w, swapFor m h, swapFor m f⟩ }
    if s4.hdr.width = 0 ∨ s4.hdr.height = 0 then .raise .invalidDimension s4 else .ok () s4

/-- DECHDR from the dimension check to its end (40_header_codec.md R72): the byte width is resolved and HV becomes 1. -/
def acceptFormat (f : Field) (s : State) : Flow Unit :=
  match byteWidthOf f with
  | none   => .raise .unsupportedFormat s
  | some b => .ok () { s with hdr := { s.hdr with format := f }, bytew := BitVec.ofNat 4 b, hv := true }

/-- The body of DECHDR (40_header_codec.md R72). -/
def dechdrBody (s : State) : Flow Unit :=
  need (s.ipos == 0) .wrongPosition <|
  (takeField { s with hv := false }).bind fun m s1 =>
    if isSentinel m then (acceptMarker m s1).bind fun _ s2 => acceptFormat s2.hdr.format s2
    else .raise .invalidMarker s1

/-- DECHDR (40_header_codec.md R72). After an error the header registers and BYTEW are unspecified (10_state.md R12, R23;
60_exceptions.md R122). -/
def execDechdr (s : State) : Host.Outcome State Fault Refusal :=
  stageEnd .dechdr ((dechdrBody s).onRaise State.forgetHeader)

/-- A marker row: DECHDR goes on from the accepted marker up to the format code (30_encoding.md R52, R53). -/
def markerRow (m : Field) (s : State) : Host.Outcome State Fault Refusal :=
  stageGoesOn ((acceptMarker m s).onRaise State.forgetHeader)

/-- A format row: DECHDR ends with the byte width the table gives the code (30_encoding.md R54). -/
def formatRow (f : Field) (s : State) : Host.Outcome State Fault Refusal :=
  stageEnd .dechdr ((acceptFormat f s).onRaise State.forgetHeader)

/-- MARKER_LITTLE (30_encoding.md R52): the logical values are the raw values. -/
def execMarkerLittle (s : State) : Host.Outcome State Fault Refusal := markerRow Config.markerLittle s

/-- MARKER_BIG (30_encoding.md R52): each logical value is the raw value with its two bytes exchanged. -/
def execMarkerBig (s : State) : Host.Outcome State Fault Refusal := markerRow Config.markerBig s

/-- FMT_0 (30_encoding.md R54), row 0 of the table. -/
def execFmt0 (s : State) : Host.Outcome State Fault Refusal := formatRow (formatCode 0) s

/-- FMT_2 (30_encoding.md R54), row 1 of the table. -/
def execFmt2 (s : State) : Host.Outcome State Fault Refusal := formatRow (formatCode 1) s

/-- FMT_3 (30_encoding.md R54), row 2 of the table. -/
def execFmt3 (s : State) : Host.Outcome State Fault Refusal := formatRow (formatCode 2) s

/-- FMT_12 (30_encoding.md R54), row 3 of the table. -/
def execFmt12 (s : State) : Host.Outcome State Fault Refusal := formatRow (formatCode 3) s

/-- FMT_14 (30_encoding.md R54), row 4 of the table. -/
def execFmt14 (s : State) : Host.Outcome State Fault Refusal := formatRow (formatCode 4) s

/-- FMT_15 (30_encoding.md R54), row 5 of the table. -/
def execFmt15 (s : State) : Host.Outcome State Fault Refusal := formatRow (formatCode 5) s

/-- FMT_16 (30_encoding.md R54), row 6 of the table. -/
def execFmt16 (s : State) : Host.Outcome State Fault Refusal := formatRow (formatCode 6) s

/-- FMT_18 (30_encoding.md R54), row 7 of the table. -/
def execFmt18 (s : State) : Host.Outcome State Fault Refusal := formatRow (formatCode 7) s

/-- FMT_19 (30_encoding.md R54), row 8 of the table. -/
def execFmt19 (s : State) : Host.Outcome State Fault Refusal := formatRow (formatCode 8) s

/-- The eight bytes of a header in the order they are given (40_header_codec.md R73): swapped copies, not the registers. -/
def headerBytes (h : Header) : List Byte :=
  splitRaw h.marker ++ splitRaw (swapFor h.marker h.width) ++ splitRaw (swapFor h.marker h.height) ++
    splitRaw (swapFor h.marker h.format)

/-- The body of ENCHDR (40_header_codec.md R73). -/
def enchdrBody (s : State) : Flow Unit :=
  need s.hv .headerNotValid <| need (s.opos == 0) .wrongPosition <| forEach give (headerBytes s.hdr) s

/-- ENCHDR (40_header_codec.md R73). -/
def execEnchdr (s : State) : Host.Outcome State Fault Refusal := stageEnd .enchdr (enchdrBody s)

end Sys2Proof.Machine
end

