-- ==== Sys2Proof/Machine/Orchestration.lean ====
section
/-!
DEFINITION. The stream stages, the end of a conversion and the acceptance of a command (43_orchestration.md).
-/

namespace Sys2Proof.Machine

/-- `raise IoError` when a stream cannot be opened (43_orchestration.md R100, R101). -/
def openOr (r : Option State) (s : State) : Flow Unit :=
  match r with
  | some s' => .ok () s'
  | none    => .raise .ioError s

/-- SRCOPEN (43_orchestration.md R100). -/
def execSrcopen (s : State) : Host.Outcome State Fault Refusal := stageEnd .srcopen (openOr (srcOpen s) s)

/-- DSTOPEN (43_orchestration.md R101). -/
def execDstopen (s : State) : Host.Outcome State Fault Refusal := stageEnd .dstopen (openOr (dstOpen s) s)

/-- CLOSE (43_orchestration.md R102): the streams are released, the grid is discarded, the status says how it ended. That no
stage releases a stream earlier is DESIGN CHOICE (20_memory.md R36 leaves it open; log entry 15). -/
def execClose (s : State) : Host.Outcome State Fault Refusal := .next s.closeStreams.forgetGrid.closeFlags

/-- IDLE (43_orchestration.md R104, 60_exceptions.md R127): the block waits for a write to CMD and does nothing. -/
def execIdle (s : State) : Host.Outcome State Fault Refusal := .next s

/-- The Start event of a legal command word (43_orchestration.md R104) and the first line of CONVERT (R103): the flags are
set, the header registers are unspecified while HV = 0, and SRCOPEN is the first stage. -/
def State.start (s : State) (fh fv : Bool) : State :=
  { (s.acceptFlags fh fv).forgetHeader.forgetGrid with phase := .srcopen }

/-- CONVERT (43_orchestration.md R103, R104): accepted when BUSY = 0, ignored when BUSY = 1. The stages of its expansion
(30_encoding.md R63) are the steps that follow. -/
def execConvert (fh fv : Bool) (s : State) : Host.Outcome State Fault Refusal :=
  if s.busy then .next s else .next (s.start fh fv)

end Sys2Proof.Machine
end

