-- ==== Sys2Proof/Machine/PixelGridCodec.lean ====
section
/-!
DEFINITION. The Pixel Grid Codec (41_pixel_grid_codec.md): DECGRID and ENCGRID.
-/

namespace Sys2Proof.Machine

/-- `GridWrite(i, j, 0)` at the scan position (41_pixel_grid_codec.md R82). -/
def clearCell (s : State) : Flow Unit := gridWrite s.ri s.cj 0 s

/-- The deserializer fills PIX: all lanes zero, then LANE runs over the bytes (10_state.md R16, R20; 41_pixel_grid_codec.md
R80). -/
def State.assemble (s : State) (p : List Byte) : State :=
  { s with pix := laneAssemble p, lane := BitVec.ofNat 4 p.length }

/-- One pixel of DECGRID at the scan position (41_pixel_grid_codec.md R82). -/
def decPixel (s : State) : Flow Unit :=
  (takeOr .truncatedPayloadError s.bw s).bind fun p s1 =>
    let s2 := s1.assemble p
    gridWrite s2.ri s2.cj s2.pix s2

/-- The body of DECGRID (41_pixel_grid_codec.md R82). -/
def decgridBody (s : State) : Flow Unit :=
  need s.hv .headerNotValid <| need s.src.isOpen .srcNotOpen <| need (s.ipos == 8) .wrongPosition <|
  if s.wd * s.ht > s.gridCells then .raise .capacityError s
  else
    (walk clearCell (rowMajor s.ht s.wd) s.forgetGrid).bind fun _ s1 =>
    (walk decPixel (rowMajor s1.ht s1.wd) s1).bind fun _ s2 =>
      if inAtEnd s2 then .ok () { s2 with gv := true } else .raise .trailingDataError s2

/-- DECGRID (41_pixel_grid_codec.md R82). The scan registers are unspecified afterwards (U3), after an error the grid too
(U2). -/
def execDecgrid (s : State) : Host.Outcome State Fault Refusal :=
  stageEnd .decgrid (((decgridBody s).onRaise State.forgetGrid).finally State.forgetScan)

/-- One lane of PIX, named by LANE, given to the sink (41_pixel_grid_codec.md R83). -/
def emitLane (k : Nat) (s : State) : Flow Unit :=
  let s1 := { s with lane := BitVec.ofNat 4 k }
  give (lane s1.pix s1.lane.toNat) s1

/-- One pixel of ENCGRID at the scan position (41_pixel_grid_codec.md R83). -/
def encPixel (s : State) : Flow Unit :=
  (gridRead s.ri s.cj s).bind fun c s1 => forEach emitLane (List.range s1.bw) { s1 with pix := c }

/-- The body of ENCGRID (41_pixel_grid_codec.md R83). -/
def encgridBody (s : State) : Flow Unit :=
  need s.gv .gridNotValid <| need s.dst.isOpen .dstNotOpen <| need (s.opos == 8) .wrongPosition <|
  walk encPixel (rowMajor s.ht s.wd) s

/-- ENCGRID (41_pixel_grid_codec.md R83). -/
def execEncgrid (s : State) : Host.Outcome State Fault Refusal :=
  stageEnd .encgrid ((encgridBody s).finally State.forgetScan)

end Sys2Proof.Machine
end

