-- ==== Sys2Proof/Machine/TransformEngine.lean ====
section
/-!
DEFINITION. The Transform Engine (42_transform_engine.md): FLIPH and FLIPV, in place, both cells of a pair read before either
is written (70_reset_and_hazards.md R137).
-/

namespace Sys2Proof.Machine

/-- The cells `(i, j)` and `(i', j')` are exchanged (42_transform_engine.md R90, R91). -/
def exchange (i j i' j' : Nat) (s : State) : Flow Unit :=
  (gridRead i j s).bind fun a s1 =>
  (gridRead i' j' s1).bind fun b s2 =>
  (gridWrite i j b s2).bind fun _ s3 =>
    gridWrite i' j' a s3

/-- One exchange of FLIPH, the pair named by ROW and COL (42_transform_engine.md R90). -/
def mirrorColumns (s : State) : Flow Unit := exchange s.ri s.cj s.ri (s.wd - 1 - s.cj) s

/-- One exchange of FLIPV, the pair named by ROW and COL (42_transform_engine.md R91). -/
def mirrorRows (s : State) : Flow Unit := exchange s.ri s.cj (s.ht - 1 - s.ri) s.cj s

/-- FLIPH (42_transform_engine.md R90). ROW and COL are unspecified afterwards (10_state.md R20). -/
def execFliph (s : State) : Host.Outcome State Fault Refusal :=
  stageEnd .fliph
    ((need s.gv .gridNotValid (walk mirrorColumns (fliphPairs s.ht s.wd) s)).finally State.forgetScan)

/-- FLIPV (42_transform_engine.md R91). -/
def execFlipv (s : State) : Host.Outcome State Fault Refusal :=
  stageEnd .flipv
    ((need s.gv .gridNotValid (walk mirrorRows (flipvPairs s.ht s.wd) s)).finally State.forgetScan)

end Sys2Proof.Machine
end

