-- ==== Sys2Proof/Machine/HostPort.lean ====
section
/-!
DEFINITION. The host's moves (10_state.md R23, 70_reset_and_hazards.md R130 to R134), which word the next step runs, and what
a word that is no instruction does.
-/

namespace Sys2Proof.Machine

/-- The state with the host's oldest move taken. -/
def State.popHost (s : State) : State := { s with host := s.host.tail }

/-- What the next step runs. -/
inductive Work where
  | word (w : CodeWord)
  | move (m : HostMove)
  deriving DecidableEq, Repr

/-- The word PHASE selects. In the middle of DECHDR, with two bytes taken, it is the marker those bytes hold; with all eight
taken, it is the format code (40_header_codec.md R72; log entry 9). -/
def State.codecWord (s : State) : CodeWord :=
  match s.phase with
  | .dechdr =>
    if s.ipos = 2 then .marker (rawOf s.src.bytes)
    else if s.ipos = 8 then .format s.hdr.format
    else .stage Stage.dechdr.code
  | p => .stage p.code

/-- What the next step runs: the host's oldest move, or the CODEC's stage when the host waits or has no move. -/
def State.work (s : State) : Work :=
  match s.host with
  | []               => .word s.codecWord
  | .wait :: _       => .word s.codecWord
  | .writeCmd c :: _ => .word (.command c)
  | m :: _           => .move m

/-- A word that is no instruction (30_encoding.md R61): an illegal command word is refused (43_orchestration.md R105), an
illegal marker or format code raises its error in DECHDR (40_header_codec.md R72). A stage code 10 to 15 is never taken
(10_state.md R19). -/
def rejectWord (e : DecodeError) (s : State) : Host.Outcome State Fault Refusal :=
  match e with
  | .illegalCommand => .next (refuseCommand s)
  | .illegalMarker  => .next (raiseError .invalidMarker s.forgetHeader)
  | .illegalFormat  => .next (raiseError .unsupportedFormat s.forgetHeader)
  | .illegalStage   => .next s

/-- The value a header register returns: reliable when HV = 1 and BUSY = 0 (10_state.md R23), else a free value of `n` bits
(93_implementation_defined.md U1, U7). -/
def State.reliableOr (s : State) (v : BitVec 16) (n : Nat) : State :=
  if s.hv && !s.busy then { s with rdata := v }
  else { s with rdata := ((Config.freeValue s.draws).setWidth n).setWidth 16, draws := s.draws + 1 }

/-- The host reads a register (10_state.md R17, R18, R23). While BUSY = 1 only the BUSY bit of STATUS is reliable (U7). -/
def State.readRegister (s : State) (n : Nat) : State :=
  match n with
  | 0 => { s with rdata := 0 }
  | 1 =>
    if s.busy then
      { s with rdata := ((Config.freeValue s.draws).setWidth 8 ||| 1).setWidth 16, draws := s.draws + 1 }
    else { s with rdata := s.statusByte.setWidth 16 }
  | 2 => s.reliableOr s.hdr.marker 16
  | 3 => s.reliableOr s.hdr.width 16
  | 4 => s.reliableOr s.hdr.height 16
  | 5 => s.reliableOr s.hdr.format 16
  | 6 => s.reliableOr ((s.bytew.setWidth 8).setWidth 16) 8
  | _ => { s with rdata := 0 }

/-- The state with a sink that accepts at most `n` further bytes. -/
def State.capSink (s : State) (n : Nat) : State :=
  { s with dst := { s.dst with limit := some (match s.dst.limit with
                                              | none   => s.opos + n
                                              | some l => min l (s.opos + n)) } }

/-- What the destination holds when the stage under way is cut off after giving `n` bytes (70_reset_and_hazards.md R131): the
same as if the sink had accepted no more (20_memory.md R35). Only ENCHDR and ENCGRID give bytes. -/
def State.cutBytes (s : State) (n : Nat) : List Byte :=
  let out := match s.phase with
    | .enchdr  => execEnchdr (s.capSink n)
    | .encgrid => execEncgrid (s.capSink n)
    | _        => .next s
  match out with
  | .next t => t.dst.bytes
  | _       => s.dst.bytes

/-- The reset event (10_state.md R27, 70_reset_and_hazards.md R130, R131): the idle state; what R27 leaves unspecified is a
free value; what belongs to the host stays, but for the bytes the conversion had given. -/
def State.resetEvent (s : State) (given : Nat) : State :=
  { s.forgetHeader.forgetScan.forgetGrid.closeStreams with
    dst   := { s.dst with bytes := s.cutBytes given, isOpen := false }
    busy  := false
    done  := false
    ok    := false
    err   := .none
    hv    := false
    gv    := false
    fh    := false
    fv    := false
    phase := .idle
    ipos  := 0
    opos  := 0 }

/-- A host move that is no command word, on the state without it. Binding a stream while BUSY = 1 has no step in the spec
(70_reset_and_hazards.md R133, R134). -/
def hostMove (m : HostMove) (s : State) : Host.Outcome State Fault Refusal :=
  match m with
  | .writeCmd _        => .next s
  | .writeOther _ _    => .next s
  | .wait              => .next s
  | .read n            => .next (s.readRegister n)
  | .reset given       => .next (s.resetEvent given)
  | .bindSrc ok bytes  =>
    if s.busy then .refused .rebindWhileBusy else .next { s with src := { s.src with ok := ok, bytes := bytes } }
  | .bindDst ok limit bytes =>
    if s.busy then .refused .rebindWhileBusy
    else .next { s with dst := { s.dst with ok := ok, limit := limit, bytes := bytes } }

/-- What stage `st` requires (40_header_codec.md R72, R73, 41_pixel_grid_codec.md R82, R83, 42_transform_engine.md R90, R91)
is in place: the sequence enters a stage only so. -/
def State.enterStage (s : State) (st : Stage) : State :=
  let s1 := { s with phase := st, busy := decide (st ≠ .idle) }
  match st with
  | .dechdr  => { s1 with src := { s1.src with isOpen := true }, ipos := 0 }
  | .decgrid => { s1 with src := { s1.src with isOpen := true }, hv := true, ipos := 8 }
  | .fliph   => { s1 with gv := true }
  | .flipv   => { s1 with gv := true }
  | .enchdr  => { s1 with dst := { s1.dst with isOpen := true }, hv := true, opos := 0 }
  | .encgrid => { s1 with dst := { s1.dst with isOpen := true }, gv := true, opos := 8 }
  | _        => s1

/-- The stage of a stage code. -/
def stageOf (c : BitVec 4) : Stage :=
  match c.toNat with
  | 1 => .srcopen
  | 2 => .dechdr
  | 3 => .decgrid
  | 4 => .fliph
  | 5 => .flipv
  | 6 => .dstopen
  | 7 => .enchdr
  | 8 => .encgrid
  | 9 => .close
  | _ => .idle

/-- The state in which the next step runs the word: a command word is the host's oldest move, a stage code is in PHASE with
what the stage requires, a marker is in the first two bytes of SRC with DECHDR just past them (operand bytes of zeros behind
it), a format code is in HDR.FORMAT with DECHDR past the header. -/
def State.selectWord (s : State) (w : CodeWord) : State :=
  match w with
  | .command c => { s with host := .writeCmd c :: s.host, busy := false, phase := .idle }
  | .stage c   => { s.enterStage (stageOf c) with host := .wait :: s.host }
  | .marker m  =>
    { s.enterStage .dechdr with
      ipos := 2, host := .wait :: s.host,
      src  := { s.src with bytes := splitRaw m ++ List.replicate 6 0, isOpen := true } }
  | .format f  =>
    { s.enterStage .dechdr with ipos := 8, host := .wait :: s.host, hdr := { s.hdr with format := f } }

end Sys2Proof.Machine
end

