-- ==== Sys2Proof/Machine/Dispatch.lean ====
section
/-!
DEFINITION. The dispatch: one arm per row of the opcode table.
-/

namespace Sys2Proof.Machine

def exec (i : Instr) (s : State) : Host.Outcome State Fault Refusal :=
  match i with
  | .convert fh fv => Sys2Proof.Machine.execConvert fh fv s
  | .idle => Sys2Proof.Machine.execIdle s
  | .srcopen => Sys2Proof.Machine.execSrcopen s
  | .dechdr => Sys2Proof.Machine.execDechdr s
  | .decgrid => Sys2Proof.Machine.execDecgrid s
  | .fliph => Sys2Proof.Machine.execFliph s
  | .flipv => Sys2Proof.Machine.execFlipv s
  | .dstopen => Sys2Proof.Machine.execDstopen s
  | .enchdr => Sys2Proof.Machine.execEnchdr s
  | .encgrid => Sys2Proof.Machine.execEncgrid s
  | .close => Sys2Proof.Machine.execClose s
  | .markerLittle => Sys2Proof.Machine.execMarkerLittle s
  | .markerBig => Sys2Proof.Machine.execMarkerBig s
  | .fmt0 => Sys2Proof.Machine.execFmt0 s
  | .fmt2 => Sys2Proof.Machine.execFmt2 s
  | .fmt3 => Sys2Proof.Machine.execFmt3 s
  | .fmt12 => Sys2Proof.Machine.execFmt12 s
  | .fmt14 => Sys2Proof.Machine.execFmt14 s
  | .fmt15 => Sys2Proof.Machine.execFmt15 s
  | .fmt16 => Sys2Proof.Machine.execFmt16 s
  | .fmt18 => Sys2Proof.Machine.execFmt18 s
  | .fmt19 => Sys2Proof.Machine.execFmt19 s

end Sys2Proof.Machine
end

