-- ==== Sys2Proof/Machine/Step.lean ====
section
/-!
DEFINITION. One step: the host's oldest move, or the stage PHASE selects; and how a word is placed so that the next step runs
it.
-/

namespace Sys2Proof.Machine

/-- Decode a word and run it, or reject it by name. -/
def runWord (w : CodeWord) (s : State) : Host.Outcome State Fault Refusal :=
  match decode w with
  | .ok i    => exec i s
  | .error e => rejectWord e s

/-- One step of the machine. -/
def step (s : State) : Host.Outcome State Fault Refusal :=
  match s.work with
  | .word w => runWord w s.popHost
  | .move m => hostMove m s.popHost

/-- `s` with a word of the opcode table placed where the next step runs it (log entry 14); `s` itself when the word is no
instruction. -/
def State.withFetchWord (s : State) (nbits w : Nat) : State :=
  match firstLegal (tableCandidates nbits w) with
  | some (cw, _) => s.selectWord cw
  | none         => s

end Sys2Proof.Machine
end

