-- ==== Sys2Proof/Safety.lean ====
section
/-!
DEFINITION. The words in which the claims are stated: what a source holds and asks for, what a sink takes, which error a
conversion meets first (60_exceptions.md R119), what it writes (43_orchestration.md R103), and the invariant of the machine.
-/

namespace Sys2Proof.Machine

/-! ### Images -/

/-- The header the first eight bytes of a source hold (20_memory.md R44, 30_encoding.md R53). -/
def headerOf (b : List Byte) : Header :=
  let m := rawOf b
  ⟨m, swapFor m (rawOf (b.drop 2)), swapFor m (rawOf (b.drop 4)), swapFor m (rawOf (b.drop 6))⟩

/-- The bytes of pixel `(i, j)` (20_memory.md R44: from offset `8 + (i * W + j) * B` on, `B` bytes). -/
def pixelBytes (b : List Byte) (W B i j : Nat) : List Byte := (b.drop (8 + (i * W + j) * B)).take B

/-- The length of an image of `W` columns, `H` rows and `B` bytes per pixel (20_memory.md R42, R44). -/
def imageLength (W H B : Nat) : Nat := 8 + W * H * B

/-- The error a conversion meets first, the table of 60_exceptions.md R119 line by line; `.none` when it meets none. -/
def conversionError (src : Src) (dst : Dst) (cells : Nat) : ErrCode :=
  let n := src.bytes.length
  let h := headerOf src.bytes
  if src.ok = false then .ioError
  else if n < 2 then .ioError
  else if isSentinel h.marker = false then .invalidMarker
  else if n < 8 then .ioError
  else if h.width = 0 ∨ h.height = 0 then .invalidDimension
  else
    match byteWidthOf h.format with
    | none   => .unsupportedFormat
    | some B =>
      if h.width.toNat * h.height.toNat > cells then .capacityError
      else if n < imageLength h.width.toNat h.height.toNat B then .truncatedPayloadError
      else if n > imageLength h.width.toNat h.height.toNat B then .trailingDataError
      else if dst.ok = false then .ioError
      else
        match dst.limit with
        | none   => .none
        | some l => if l < imageLength h.width.toNat h.height.toNat B then .ioError else .none

/-- The decode side of the table of 60_exceptions.md R119, lines 1 to 6, raises nothing: the header is decoded. -/
def headerDecodes (src : Src) : Bool :=
  src.ok && decide (8 ≤ src.bytes.length) && (headerOf src.bytes).valid

/-- Lines 1 to 10 of the table of 60_exceptions.md R119 raise nothing: the destination is opened. -/
def reachesDestination (src : Src) (dst : Dst) (cells : Nat) : Bool :=
  match byteWidthOf (headerOf src.bytes).format with
  | none   => false
  | some B =>
    headerDecodes src && dst.ok &&
    decide ((headerOf src.bytes).width.toNat * (headerOf src.bytes).height.toNat ≤ cells) &&
    decide (src.bytes.length = imageLength (headerOf src.bytes).width.toNat (headerOf src.bytes).height.toNat B)

/-- The complete output of a conversion of a well-formed image (43_orchestration.md R103): the source's header bytes, then
the pixels, each pixel's bytes in their order, mirrored as the flags say. -/
def completeOutput (b : List Byte) (fh fv : Bool) : List Byte :=
  let h := headerOf b
  let W := h.width.toNat
  let H := h.height.toNat
  let B := (byteWidthOf h.format).getD 0
  b.take 8 ++ (rowMajor H W).flatMap fun ij =>
    pixelBytes b W B (if fv then H - 1 - ij.1 else ij.1) (if fh then W - 1 - ij.2 else ij.2)

/-! ### The sink -/

/-- What the sink takes of `out`, given byte by byte (20_memory.md R35). -/
def State.accepted (s : State) (out : List Byte) : List Byte :=
  match s.dst.limit with
  | none   => out
  | some l => out.take (l - s.opos)

/-- The sink takes all of `out`. -/
def State.takesAll (s : State) (out : List Byte) : Bool := (s.accepted out).length == out.length

/-- The state after `out` was given to the sink and taken. -/
def State.gave (s : State) (out : List Byte) : State :=
  { s with dst := { s.dst with bytes := s.dst.bytes ++ out }, opos := s.opos + out.length }

/-! ### The grid -/

/-- The value of the cell `(i, j)` (20_memory.md R37). -/
def State.cell (s : State) (i j : Nat) : Option Cell := s.grid.read (s.cellAddr i j)

/-- The grid of `n` cells with the given values. -/
def gridOf (n : Nat) (f : Nat → Cell) : GridMem := (List.range n).map fun a => (a, f a)

/-- The grid has exactly HDR.HEIGHT rows and HDR.WIDTH columns (10_state.md R24). -/
def State.gridExact (s : State) : Prop := s.grid.map Prod.fst = List.range (s.ht * s.wd)

/-- The payload the grid holds, row by row from the top, in a row from the left, lane 0 of a cell first
(41_pixel_grid_codec.md R83). -/
def State.payload (s : State) : List Byte :=
  (rowMajor s.ht s.wd).flatMap fun ij => laneEmit ((s.cell ij.1 ij.2).getD 0) s.bw

/-! ### The invariant -/

/-- What the sequence of CONVERT has established when PHASE names a stage (the "Requires" of 40_header_codec.md R72, R73,
41_pixel_grid_codec.md R82, R83, 42_transform_engine.md R90, R91). In the middle of DECHDR two or eight bytes are taken. -/
def State.stageReady (s : State) : Prop :=
  match s.phase with
  | .idle    => s.gv = false ∧ s.src.isOpen = false ∧ s.dst.isOpen = false
  | .srcopen => s.hv = false ∧ s.gv = false
  | .dechdr  => s.src.isOpen = true ∧ s.hv = false ∧ s.gv = false ∧
      (s.ipos = 0 ∨ s.ipos = 2 ∨
        (s.ipos = 8 ∧ isSentinel s.hdr.marker = true ∧ s.hdr.width ≠ 0 ∧ s.hdr.height ≠ 0))
  | .decgrid => s.src.isOpen = true ∧ s.hv = true ∧ s.gv = false ∧ s.ipos = 8
  | .fliph   => s.gv = true ∧ s.fh = true
  | .flipv   => s.gv = true ∧ s.fv = true
  | .dstopen => s.gv = true
  | .enchdr  => s.gv = true ∧ s.dst.isOpen = true ∧ s.opos = 0
  | .encgrid => s.gv = true ∧ s.dst.isOpen = true ∧ s.opos = 8
  | .close   => True

/-- The invariant of the machine: 10_state.md R13, R18, R19, R20, R21, R24 and what each stage requires. -/
structure State.Inv (s : State) : Prop where
  /-- The grid memory is in canonical form. -/
  gridCanonical : s.grid.wf = true
  /-- HV = 1: the header registers hold a valid header and BYTEW its byte width (10_state.md R24). -/
  headerValid : s.hv = true → s.hdr.valid = true ∧ byteWidthOf s.hdr.format = some s.bw
  /-- GV = 1 implies HV = 1 (10_state.md R13). -/
  gridNeedsHeader : s.gv = true → s.hv = true
  /-- GV = 1: the grid has exactly the header's dimensions (10_state.md R24). -/
  gridDimensions : s.gv = true → s.gridExact
  /-- GV = 1: lanes BYTEW to 7 of every cell are zero (10_state.md R24). -/
  upperLanesZero : s.gv = true → ∀ kv ∈ s.grid, kv.2.toNat < 2 ^ (8 * s.bw)
  /-- PHASE is IDLE exactly when BUSY = 0 (10_state.md R19). -/
  idleWhenNotBusy : s.phase = .idle ↔ s.busy = false
  /-- BUSY = 1 implies DONE = 0 and OK = 0 (10_state.md R18). -/
  busyNotDone : s.busy = true → s.done = false ∧ s.ok = false
  /-- DONE = 1: OK = 1 exactly when ERR = 0 (10_state.md R18). -/
  okMeansNoError : s.done = true → (s.ok = true ↔ s.err = .none)
  /-- An error recorded while BUSY = 1 has sent PHASE to CLOSE (60_exceptions.md R121). -/
  errorCloses : s.busy = true → s.err ≠ .none → s.phase = .close
  /-- LANE is 0 to 8 (10_state.md R20). -/
  laneBound : s.lane.toNat ≤ 8
  /-- IPOS fits its 36 bits (10_state.md R21). -/
  iposFits : s.ipos < 2 ^ Config.posBits
  /-- OPOS fits its 36 bits (10_state.md R21). -/
  oposFits : s.opos < 2 ^ Config.posBits
  /-- While DST is open OPOS counts the bytes it holds (10_state.md R21), and they are within the limit (20_memory.md R35). -/
  oposCounts : s.dst.isOpen = true →
    s.opos = s.dst.bytes.length ∧ (∀ l, s.dst.limit = some l → s.dst.bytes.length ≤ l)
  /-- PHASE names a stage whose requirements hold. -/
  stageIsReady : s.stageReady

end Sys2Proof.Machine
end

