-- ==== Sys2Proof/Certificates/Slice0/Obligations.lean ====
section
/-!
DEFINITION. The statements for the provers. Each cites the rule of spec/ it formalises; OBLIGATIONS.json says which are
'stated' and which 'derived'.
-/

open Sys2Proof Sys2Proof.Machine

/-! ### Encodings -/

/-- Decode and encode agree (30_encoding.md R52, R54, R58, R60, R61): decoding the word of any instruction gives the
instruction back, with both flags of CONVERT at every value; the decoder accepts exactly the legal words of R61's table; and a
word it accepts is the one the encoder gives, so no two words are one instruction. -/
def Obligations.DecodeAndEncodeAgree : Prop :=
  (∀ i : Instr, decode (encode i) = .ok i) ∧
  (∀ w : CodeWord, w.legal = true ↔ ∃ i, decode w = .ok i) ∧
  (∀ (w : CodeWord) (i : Instr), decode w = .ok i → encode i = w)

/-- The legal command words are 0x01, 0x09, 0x11 and 0x19, each with its flags; the other 252 are no instruction
(30_encoding.md R59). -/
def Obligations.FourCommandWordsAreLegal : Prop :=
  decode (.command 0x01) = .ok (.convert false false) ∧
  decode (.command 0x09) = .ok (.convert true false) ∧
  decode (.command 0x11) = .ok (.convert false true) ∧
  decode (.command 0x19) = .ok (.convert true true) ∧
  (∀ c : BitVec 8, (CodeWord.command c).legal = true ↔ c &&& 0xE7 = 0x01) ∧
  (∀ c : BitVec 8, c ≠ 0x01 → c ≠ 0x09 → c ≠ 0x11 → c ≠ 0x19 → decode (.command c) = .error .illegalCommand) ∧
  ((List.range 256).filter fun n => !(CodeWord.command (BitVec.ofNat 8 n)).legal).length = 252

/-- Every row of the spec's encoding tables, its word written out, decodes to the row it stands for, one neighbour of each
format is refused by name, and PHASE's codes are those of R60 (30_encoding.md R52, R54, R58, R59, R60). -/
def Obligations.WordsOfTheTablesDecode : Prop :=
  decode (.command 0b00000001) = .ok (.convert false false) ∧
  decode (.command 0b00001001) = .ok (.convert true false) ∧
  decode (.command 0b00010001) = .ok (.convert false true) ∧
  decode (.command 0b00011001) = .ok (.convert true true) ∧
  decode (.stage 0b0000) = .ok .idle ∧
  decode (.stage 0b0001) = .ok .srcopen ∧
  decode (.stage 0b0010) = .ok .dechdr ∧
  decode (.stage 0b0011) = .ok .decgrid ∧
  decode (.stage 0b0100) = .ok .fliph ∧
  decode (.stage 0b0101) = .ok .flipv ∧
  decode (.stage 0b0110) = .ok .dstopen ∧
  decode (.stage 0b0111) = .ok .enchdr ∧
  decode (.stage 0b1000) = .ok .encgrid ∧
  decode (.stage 0b1001) = .ok .close ∧
  decode (.marker 0b0100100101001001) = .ok .markerLittle ∧
  decode (.marker 0b0100110101001101) = .ok .markerBig ∧
  decode (.format 0b0000000000000000) = .ok .fmt0 ∧
  decode (.format 0b0000000000000010) = .ok .fmt2 ∧
  decode (.format 0b0000000000000011) = .ok .fmt3 ∧
  decode (.format 0b0000000000001100) = .ok .fmt12 ∧
  decode (.format 0b0000000000001110) = .ok .fmt14 ∧
  decode (.format 0b0000000000001111) = .ok .fmt15 ∧
  decode (.format 0b0000000000010000) = .ok .fmt16 ∧
  decode (.format 0b0000000000010010) = .ok .fmt18 ∧
  decode (.format 0b0000000000010011) = .ok .fmt19 ∧
  decode (.stage 0b1010) = .error .illegalStage ∧
  decode (.marker 0x494D) = .error .illegalMarker ∧
  decode (.format 13) = .error .illegalFormat ∧
  decode (.command 0x21) = .error .illegalCommand ∧
  (Stage.idle.code, Stage.srcopen.code, Stage.dechdr.code, Stage.decgrid.code, Stage.fliph.code) = (0, 1, 2, 3, 4) ∧
  (Stage.flipv.code, Stage.dstopen.code, Stage.enchdr.code, Stage.encgrid.code, Stage.close.code) = (5, 6, 7, 8, 9)

/-- A step runs the decoded word: the host's oldest command word, or, when the host waits or has no move, the word PHASE
selects; around `exec` the step only takes the host's move. That the host's moves are a queue whose oldest a step takes, and
that a waiting or silent host lets the word PHASE selects run, is the model's choice (DESIGN CHOICE, log entry 4). Outside
DECHDR that word is PHASE's stage code; in DECHDR it is the stage code before the first byte, the marker after two bytes and
the format code after eight (the model's choice of where DECHDR may go on, log entry 9). -/
def Obligations.StepRunsTheDecodedWord : Prop :=
  (∀ (s : State) (w : CodeWord) (i : Instr), s.work = .word w → decode w = .ok i →
    step s = exec i { s with host := s.host.tail }) ∧
  (∀ (s : State) (c : BitVec 8) (rest : List HostMove), s.host = .writeCmd c :: rest → s.work = .word (.command c)) ∧
  (∀ (s : State), s.host = [] ∨ s.host.head? = some .wait → s.work = .word s.codecWord) ∧
  (∀ (s : State), s.phase ≠ .dechdr → s.codecWord = .stage s.phase.code) ∧
  (∀ (s : State), s.phase = .dechdr → s.ipos ≠ 2 → s.ipos ≠ 8 → s.codecWord = .stage 2) ∧
  (∀ (s : State), s.phase = .dechdr → s.ipos = 2 → s.codecWord = .marker (rawOf s.src.bytes)) ∧
  (∀ (s : State), s.phase = .dechdr → s.ipos = 8 → s.codecWord = .format s.hdr.format)

/-- A marker or format word that is no instruction, selected in the middle of DECHDR (the model's choice of where DECHDR may go
on, log entry 9), raises the error of its field (30_encoding.md R61, 60_exceptions.md R112, R114): the header registers and
BYTEW are left without a specified value and, but for ERR and PHASE, nothing else changes. A stage code 10 to 15 is never
selected (10_state.md R19). -/
def Obligations.IllegalHeaderWordRaisesItsError : Prop :=
  (∀ (s : State) (m : Field), s.work = .word (.marker m) → (CodeWord.marker m).legal = false →
    ∃ t, step s = .next t ∧ t = { s with
      host := s.host.tail, err := .invalidMarker, phase := .close, hdr := t.hdr, bytew := t.bytew, draws := t.draws }) ∧
  (∀ (s : State) (f : Field), s.work = .word (.format f) → (CodeWord.format f).legal = false →
    ∃ t, step s = .next t ∧ t = { s with
      host := s.host.tail, err := .unsupportedFormat, phase := .close
      hdr := t.hdr, bytew := t.bytew, draws := t.draws }) ∧
  (∀ (s : State) (c : BitVec 4), s.work = .word (.stage c) → (CodeWord.stage c).legal = true)

/-- Every legal word can be placed so that it is what the next step runs (the model's placement, log entry 14). -/
def Obligations.PlacedWordRunsNext : Prop :=
  ∀ (s : State) (w : CodeWord), w.legal = true → (s.selectWord w).work = .word w

/-! ### The functions of the datapath -/

/-- ByteSwap16 (40_header_codec.md R70). -/
def Obligations.ByteSwapExchangesTheHalves : Prop :=
  (∀ v : Field, (byteSwap16 v).toNat = (v.toNat % 256) * 256 + v.toNat / 256) ∧
  (∀ v : Field, byteSwap16 (byteSwap16 v) = v) ∧
  Function.Bijective byteSwap16 ∧
  (∀ v : Field, byteSwap16 v = v ↔ v.toNat % 256 = v.toNat / 256) ∧
  byteSwap16 Config.markerLittle = Config.markerLittle ∧ byteSwap16 Config.markerBig = Config.markerBig ∧
  (∀ v : Field, byteSwap16 v = 0 ↔ v = 0) ∧
  byteSwap16 0x0000 = 0x0000 ∧ byteSwap16 0xFFFF = 0xFFFF ∧ byteSwap16 0x00FF = 0xFF00 ∧ byteSwap16 0x0100 = 0x0001 ∧
  byteSwap16 0x0300 = 0x0003

/-- ByteWidthOf (40_header_codec.md R71). -/
def Obligations.ByteWidthFollowsTheFormatTable : Prop :=
  ∀ code : Field, byteWidthOf code =
    if code = 0 ∨ code = 12 then some 1
    else if code = 2 ∨ code = 14 then some 3
    else if code = 3 ∨ code = 15 then some 4
    else if code = 16 then some 2
    else if code = 18 then some 6
    else if code = 19 then some 8
    else none

/-- LaneAssemble (41_pixel_grid_codec.md R80): lane `k` is byte `k`, the upper lanes are zero, the value is the little-endian
reading of the bytes, below `2^(8B)`, and two pixels of one width with the same cell are the same pixel. -/
def Obligations.LaneAssembleHoldsTheBytesSideBySide : Prop :=
  (∀ (p : List Byte) (k : Nat), p.length ≤ 8 → k < 8 → lane (laneAssemble p) k = p.getD k 0) ∧
  (∀ p : List Byte, p.length ≤ 8 →
    (laneAssemble p).toNat = ((List.range p.length).map fun k => (p.getD k 0).toNat * 256 ^ k).sum) ∧
  (∀ p : List Byte, p.length ≤ 8 → (laneAssemble p).toNat < 2 ^ (8 * p.length)) ∧
  (∀ p q : List Byte, p.length ≤ 8 → p.length = q.length → laneAssemble p = laneAssemble q → p = q)

/-- LaneEmit (41_pixel_grid_codec.md R81): lane 0 first, the inverse of LaneAssemble on pixels, and the cell's low `B` bytes
come back as its value modulo `2^(8B)`. -/
def Obligations.LaneEmitInvertsLaneAssemble : Prop :=
  (∀ (c : Cell) (B : Nat), laneEmit c B = (List.range B).map fun k => c.extractLsb' (8 * k) 8) ∧
  (∀ p : List Byte, p.length ≤ 8 → laneEmit (laneAssemble p) p.length = p) ∧
  (∀ (c : Cell) (B : Nat), B ≤ 8 → (laneAssemble (laneEmit c B)).toNat = c.toNat % 2 ^ (8 * B))

/-! ### Commands -/

/-- Start (43_orchestration.md R104): a write of a legal word to CMD while BUSY = 0 is accepted in one step, with FH and FV
from its bits 3 and 4; while BUSY = 1 a write to CMD of any word changes no state. The header registers and BYTEW are
unspecified from then on (U1) and the cells have no value (U2): nothing is said of them. -/
def Obligations.CommandIsAcceptedOrIgnored : Prop :=
  (∀ (s : State) (c : BitVec 8) (rest : List HostMove), s.busy = false → s.host = .writeCmd c :: rest →
    (CodeWord.command c).legal = true →
    step s = exec (.convert (c.getLsbD 3) (c.getLsbD 4)) { s with host := rest }) ∧
  (∀ (s : State) (fh fv : Bool), s.busy = false →
    ∃ t, exec (.convert fh fv) s = .next t ∧
      t = { s with
        fh := fh, fv := fv, busy := true, done := false, ok := false, err := .none, hv := false, gv := false
        phase := .srcopen, hdr := t.hdr, bytew := t.bytew, grid := t.grid, draws := t.draws } ∧
      t.statusByte = 0x01) ∧
  (∀ (s : State) (fh fv : Bool), s.busy = true → exec (.convert fh fv) s = .next s) ∧
  (∀ (s : State) (c : BitVec 8) (rest : List HostMove), s.busy = true → s.host = .writeCmd c :: rest →
    step s = .next { s with host := rest })

/-- Refusal of an illegal command word (43_orchestration.md R105). -/
def Obligations.IllegalCommandIsRefused : Prop :=
  ∀ (s : State) (c : BitVec 8) (rest : List HostMove), s.busy = false → s.host = .writeCmd c :: rest →
    (CodeWord.command c).legal = false →
    step s = .next { s with host := rest, done := true, ok := false, err := .illegalCommand }

/-- IDLE (43_orchestration.md R104, 70_reset_and_hazards.md R130): the block does nothing until the host writes CMD. -/
def Obligations.IdleBlockWaits : Prop :=
  (∀ s : State, exec .idle s = .next s) ∧
  (∀ s : State, s.phase = .idle → s.host = [] → step s = .next s)

/-! ### The stages -/

/-- SRCOPEN (20_memory.md R31, 43_orchestration.md R100): the source is opened at position 0, or IoError is raised and nothing
else changes. -/
def Obligations.SrcopenOpensOrRaises : Prop :=
  (∀ s : State, s.src.ok = true →
    exec .srcopen s = .next { s with src := { s.src with isOpen := true }, ipos := 0, phase := .dechdr }) ∧
  (∀ s : State, s.src.ok = false → exec .srcopen s = .next { s with err := .ioError, phase := .close })

/-- DSTOPEN (20_memory.md R34, 43_orchestration.md R101): the destination is opened and emptied, or IoError is raised and the
destination keeps what it held. -/
def Obligations.DstopenOpensOrRaises : Prop :=
  (∀ s : State, s.dst.ok = true →
    exec .dstopen s =
      .next { s with dst := { s.dst with isOpen := true, bytes := [] }, opos := 0, phase := .enchdr }) ∧
  (∀ s : State, s.dst.ok = false → exec .dstopen s = .next { s with err := .ioError, phase := .close })

/-- DECHDR (40_header_codec.md R72): a valid header is decoded into the header registers; any other source raises the first
of IoError, InvalidMarker, IoError, InvalidDimension, UnsupportedFormat that applies, HV is 0, and the header registers and
BYTEW are left without a specified value. IPOS is 2 after InvalidMarker and 8 after InvalidDimension and UnsupportedFormat;
after a short read it has no specified value (20_memory.md R32). -/
def Obligations.DechdrDecodesOrRaisesTheFirstError : Prop :=
  (∀ (s : State) (B : Nat), s.src.isOpen = true → s.ipos = 0 → 8 ≤ s.src.bytes.length →
    isSentinel (headerOf s.src.bytes).marker = true → (headerOf s.src.bytes).width ≠ 0 →
    (headerOf s.src.bytes).height ≠ 0 → byteWidthOf (headerOf s.src.bytes).format = some B →
    exec .dechdr s = .next { s with
      hdr := headerOf s.src.bytes, bytew := BitVec.ofNat 4 B, hv := true, ipos := 8, phase := .decgrid }) ∧
  (∀ s : State, s.src.isOpen = true → s.ipos = 0 →
    (8 ≤ s.src.bytes.length → (headerOf s.src.bytes).valid = false) →
    ∃ t, exec .dechdr s = .next t ∧
      (2 ≤ s.src.bytes.length → isSentinel (headerOf s.src.bytes).marker = false → t.ipos = 2) ∧
      (8 ≤ s.src.bytes.length → isSentinel (headerOf s.src.bytes).marker = true → t.ipos = 8) ∧
      t = { s with
        err := if s.src.bytes.length < 2 then .ioError
          else if isSentinel (headerOf s.src.bytes).marker = false then .invalidMarker
          else if s.src.bytes.length < 8 then .ioError
          else if (headerOf s.src.bytes).width = 0 ∨ (headerOf s.src.bytes).height = 0 then .invalidDimension
          else .unsupportedFormat
        hv := false, phase := .close
        hdr := t.hdr, bytew := t.bytew, ipos := t.ipos, draws := t.draws })

/-- The marker rows (30_encoding.md R52, R53): with six more bytes and no zero dimension the three fields are read as they
stand after 49 49 and with their bytes exchanged after 4D 4D; too few bytes raise IoError, a zero dimension
InvalidDimension. -/
def Obligations.MarkerSelectsTheByteOrder : Prop :=
  (∀ (s : State) (w0 w1 h0 h1 f0 f1 : Byte) (rest : List Byte), s.src.isOpen = true →
    s.src.bytes.drop s.ipos = w0 :: w1 :: h0 :: h1 :: f0 :: f1 :: rest →
    ¬ (w0 = 0 ∧ w1 = 0) → ¬ (h0 = 0 ∧ h1 = 0) →
    exec .markerLittle s = .next { s with hdr := ⟨0x4949, w1 ++ w0, h1 ++ h0, f1 ++ f0⟩, ipos := s.ipos + 6 } ∧
    exec .markerBig s = .next { s with hdr := ⟨0x4D4D, w0 ++ w1, h0 ++ h1, f0 ++ f1⟩, ipos := s.ipos + 6 }) ∧
  (∀ (s : State) (w0 w1 h0 h1 f0 f1 : Byte) (rest : List Byte), s.src.isOpen = true →
    s.src.bytes.drop s.ipos = w0 :: w1 :: h0 :: h1 :: f0 :: f1 :: rest →
    (w0 = 0 ∧ w1 = 0) ∨ (h0 = 0 ∧ h1 = 0) →
    ∀ i, i = .markerLittle ∨ i = .markerBig →
    ∃ t, exec i s = .next t ∧ t = { s with
      err := .invalidDimension, phase := .close, ipos := s.ipos + 6
      hdr := t.hdr, bytew := t.bytew, draws := t.draws }) ∧
  (∀ s : State, s.src.isOpen = true → s.src.bytes.length < s.ipos + 6 →
    ∀ i, i = .markerLittle ∨ i = .markerBig →
    ∃ t, exec i s = .next t ∧ t = { s with
      err := .ioError, phase := .close, ipos := t.ipos
      hdr := t.hdr, bytew := t.bytew, draws := t.draws })

/-- The format rows (30_encoding.md R54): the code is kept, its byte width is in BYTEW, HV is 1 and DECGRID is next; nothing
else changes. -/
def Obligations.FormatCodeSelectsTheByteWidth : Prop :=
  ∀ s : State,
    exec .fmt0 s = .next { s with hdr := { s.hdr with format := 0 }, bytew := 1, hv := true, phase := .decgrid } ∧
    exec .fmt2 s = .next { s with hdr := { s.hdr with format := 2 }, bytew := 3, hv := true, phase := .decgrid } ∧
    exec .fmt3 s = .next { s with hdr := { s.hdr with format := 3 }, bytew := 4, hv := true, phase := .decgrid } ∧
    exec .fmt12 s = .next { s with hdr := { s.hdr with format := 12 }, bytew := 1, hv := true, phase := .decgrid } ∧
    exec .fmt14 s = .next { s with hdr := { s.hdr with format := 14 }, bytew := 3, hv := true, phase := .decgrid } ∧
    exec .fmt15 s = .next { s with hdr := { s.hdr with format := 15 }, bytew := 4, hv := true, phase := .decgrid } ∧
    exec .fmt16 s = .next { s with hdr := { s.hdr with format := 16 }, bytew := 2, hv := true, phase := .decgrid } ∧
    exec .fmt18 s = .next { s with hdr := { s.hdr with format := 18 }, bytew := 6, hv := true, phase := .decgrid } ∧
    exec .fmt19 s = .next { s with hdr := { s.hdr with format := 19 }, bytew := 8, hv := true, phase := .decgrid }

/-- DECGRID on a well-formed payload (41_pixel_grid_codec.md R82): every cell holds LaneAssemble of its pixel's bytes, the
grid has the header's dimensions, GV = 1, IPOS is the end of the source; but for the scan registers nothing else changes. -/
def Obligations.DecgridReadsEveryPixel : Prop :=
  ∀ s : State, s.hv = true → s.src.isOpen = true → s.ipos = 8 → s.wd * s.ht ≤ s.gridCells →
    s.src.bytes.length = imageLength s.wd s.ht s.bw →
    ∃ t, exec .decgrid s = .next t ∧
      (∀ i j, i < s.ht → j < s.wd → t.cell i j = some (laneAssemble (pixelBytes s.src.bytes s.wd s.bw i j))) ∧
      t.gridExact ∧
      t = { s with
        gv := true, ipos := imageLength s.wd s.ht s.bw, phase := nextStage s.fh s.fv .decgrid, grid := t.grid
        pix := t.pix, row := t.row, col := t.col, lane := t.lane, draws := t.draws }

/-- DECGRID on a payload of another length or a grid too small (60_exceptions.md R115, R116, R118): CapacityError before any
byte is taken, TruncatedPayloadError, or TrailingDataError with every pixel taken; no cell keeps a value, and but for the scan
registers and IPOS nothing else changes. -/
def Obligations.DecgridRaisesOnSizeAndLength : Prop :=
  ∀ s : State, s.hv = true → s.src.isOpen = true → s.ipos = 8 → 0 < s.wd → 0 < s.ht →
    s.wd * s.ht > s.gridCells ∨ s.src.bytes.length ≠ imageLength s.wd s.ht s.bw →
    ∃ t, exec .decgrid s = .next t ∧
      (s.wd * s.ht > s.gridCells → t.ipos = 8) ∧
      (s.wd * s.ht ≤ s.gridCells → s.src.bytes.length > imageLength s.wd s.ht s.bw →
        t.ipos = imageLength s.wd s.ht s.bw) ∧
      (∀ i j, t.cell i j = none) ∧
      t = { s with
        err := if s.wd * s.ht > s.gridCells then .capacityError
          else if s.src.bytes.length < imageLength s.wd s.ht s.bw then .truncatedPayloadError
          else .trailingDataError
        phase := .close, ipos := t.ipos, grid := t.grid
        pix := t.pix, row := t.row, col := t.col, lane := t.lane, draws := t.draws }

/-- FLIPH (42_transform_engine.md R90): `G'(i, j) = G(i, W-1-j)` for every width and height from 0 up; but for the scan
registers nothing else changes. -/
def Obligations.FliphMirrorsTheColumns : Prop :=
  ∀ s : State, s.gv = true → s.gridExact →
    ∃ t, exec .fliph s = .next t ∧
      (∀ i j, i < s.ht → j < s.wd → t.cell i j = s.cell i (s.wd - 1 - j)) ∧ t.gridExact ∧
      t = { s with
        phase := nextStage s.fh s.fv .fliph, grid := t.grid
        pix := t.pix, row := t.row, col := t.col, lane := t.lane, draws := t.draws }

/-- FLIPV (42_transform_engine.md R91): `G'(i, j) = G(H-1-i, j)`. -/
def Obligations.FlipvMirrorsTheRows : Prop :=
  ∀ s : State, s.gv = true → s.gridExact →
    ∃ t, exec .flipv s = .next t ∧
      (∀ i j, i < s.ht → j < s.wd → t.cell i j = s.cell (s.ht - 1 - i) j) ∧ t.gridExact ∧
      t = { s with
        phase := nextStage s.fh s.fv .flipv, grid := t.grid
        pix := t.pix, row := t.row, col := t.col, lane := t.lane, draws := t.draws }

/-- The flips are permutations of the cells (42_transform_engine.md R92): no value is created or destroyed, and lanes BYTEW
to 7 stay zero. -/
def Obligations.FlipsPermuteTheCells : Prop :=
  ∀ (s : State) (i : Instr), i = .fliph ∨ i = .flipv → s.gv = true → s.gridExact →
    ∃ t, exec i s = .next t ∧ (t.grid.map Prod.snd).Perm (s.grid.map Prod.snd) ∧ t.gridExact ∧
      ((∀ kv ∈ s.grid, kv.2.toNat < 2 ^ (8 * s.bw)) → ∀ kv ∈ t.grid, kv.2.toNat < 2 ^ (8 * t.bw))

/-- Each flip is an involution on the grid (42_transform_engine.md R93), for all dimensions. -/
def Obligations.FlipsAreInvolutions : Prop :=
  ∀ (s : State) (i : Instr), i = .fliph ∨ i = .flipv → s.gv = true → s.gridExact →
    ∃ t u, exec i s = .next t ∧ exec i t = .next u ∧ u.grid = s.grid

/-- The flips commute, and together give `G'(i, j) = G(H-1-i, W-1-j)` (42_transform_engine.md R94). -/
def Obligations.FlipsCommute : Prop :=
  ∀ s : State, s.gv = true → s.gridExact →
    ∃ a b c d, exec .fliph s = .next a ∧ exec .flipv a = .next b ∧ exec .flipv s = .next c ∧ exec .fliph c = .next d ∧
      b.grid = d.grid ∧
      ∀ i j, i < s.ht → j < s.wd → b.cell i j = s.cell (s.ht - 1 - i) (s.wd - 1 - j)

/-- ENCHDR (40_header_codec.md R73): the marker as it is and the other three fields, swapped under MARKER_BIG, are given low
byte first, all of them or up to the byte the sink refuses, and then IoError; the header registers do not change. -/
def Obligations.EnchdrGivesTheHeaderBytes : Prop :=
  ∀ (s : State) (out : List Byte), s.hv = true → s.dst.isOpen = true → s.opos = 0 →
    out = ([s.hdr.marker, swapFor s.hdr.marker s.hdr.width, swapFor s.hdr.marker s.hdr.height,
      swapFor s.hdr.marker s.hdr.format].flatMap fun v => [v.extractLsb' 0 8, v.extractLsb' 8 8]) →
    (s.takesAll out = true →
      exec .enchdr s = .next { s with dst := { s.dst with bytes := s.dst.bytes ++ out }, opos := 8, phase := .encgrid }) ∧
    (∀ l, s.dst.limit = some l → l < 8 →
      exec .enchdr s = .next { s with
        dst := { s.dst with bytes := s.dst.bytes ++ out.take l }, opos := l, err := .ioError, phase := .close }) ∧
    (s.takesAll out = true ↔ ∀ l, s.dst.limit = some l → 8 ≤ l)

/-- ENCGRID (41_pixel_grid_codec.md R83): the low BYTEW lanes of every cell are given, row by row from the top, in a row from
the left, lane 0 first, all of them or up to the byte the sink refuses, and then IoError; the grid does not change, and but
for the scan registers nothing else does. -/
def Obligations.EncgridGivesThePayload : Prop :=
  ∀ (s : State) (out : List Byte), s.gv = true → s.gridExact → s.dst.isOpen = true → s.opos = 8 →
    out = ((rowMajor s.ht s.wd).flatMap fun ij => laneEmit ((s.cell ij.1 ij.2).getD 0) s.bw) →
    out.length = s.wd * s.ht * s.bw ∧
    ∃ t, exec .encgrid s = .next t ∧
      (s.takesAll out = true →
        t = { s with
          dst := { s.dst with bytes := s.dst.bytes ++ out }, opos := imageLength s.wd s.ht s.bw, phase := .close
          pix := t.pix, row := t.row, col := t.col, lane := t.lane, draws := t.draws }) ∧
      (∀ l, s.dst.limit = some l → s.takesAll out = false →
        t = { s with
          dst := { s.dst with bytes := s.dst.bytes ++ out.take (l - 8) }, opos := max 8 l
          err := .ioError, phase := .close
          pix := t.pix, row := t.row, col := t.col, lane := t.lane, draws := t.draws }) ∧
      (s.takesAll out = true ↔ ∀ l, s.dst.limit = some l → out = [] ∨ imageLength s.wd s.ht s.bw ≤ l)

/-- CLOSE (43_orchestration.md R102, 20_memory.md R36): the streams are released, the grid is discarded, OK says whether an
error was recorded; DST.bytes, the positions, HV and the header registers keep their values. -/
def Obligations.CloseEndsTheConversion : Prop :=
  ∀ s : State,
    ∃ t, exec .close s = .next t ∧ (∀ i j, t.cell i j = none) ∧ (t.ok = true ↔ s.err = .none) ∧
      t = { s with
        src := { s.src with isOpen := false }, dst := { s.dst with isOpen := false }
        gv := false, ok := t.ok, busy := false, done := true, phase := .idle, grid := t.grid }

/-- Where a stage is used outside what its rule requires, it stops by name (the model's choice, log entry 10). -/
def Obligations.StagesOutsideTheirRequirementsStop : Prop :=
  (∀ s : State, s.ipos ≠ 0 → exec .dechdr s = .fault .wrongPosition) ∧
  (∀ s : State, s.ipos = 0 → s.src.isOpen = false → exec .dechdr s = .fault .srcNotOpen) ∧
  (∀ s : State, s.src.isOpen = false →
    exec .markerLittle s = .fault .srcNotOpen ∧ exec .markerBig s = .fault .srcNotOpen) ∧
  (∀ s : State, s.hv = false → exec .decgrid s = .fault .headerNotValid ∧ exec .enchdr s = .fault .headerNotValid) ∧
  (∀ s : State, s.hv = true → s.src.isOpen = false → exec .decgrid s = .fault .srcNotOpen) ∧
  (∀ s : State, s.hv = true → s.src.isOpen = true → s.ipos ≠ 8 → exec .decgrid s = .fault .wrongPosition) ∧
  (∀ s : State, s.hv = true → s.opos ≠ 0 → exec .enchdr s = .fault .wrongPosition) ∧
  (∀ s : State, s.hv = true → s.opos = 0 → s.dst.isOpen = false → exec .enchdr s = .fault .dstNotOpen) ∧
  (∀ s : State, s.gv = false →
    exec .fliph s = .fault .gridNotValid ∧ exec .flipv s = .fault .gridNotValid ∧ exec .encgrid s = .fault .gridNotValid) ∧
  (∀ s : State, s.gv = true → s.dst.isOpen = false → exec .encgrid s = .fault .dstNotOpen) ∧
  (∀ s : State, s.gv = true → s.dst.isOpen = true → s.opos ≠ 8 → exec .encgrid s = .fault .wrongPosition) ∧
  (∀ (s : State) (i j : Nat), s.ht ≤ i ∨ s.wd ≤ j →
    gridRead i j s = .stop .cellOutOfRange ∧ ∀ v, gridWrite i j v s = .stop .cellOutOfRange) ∧
  (∀ (s : State) (i j : Nat), i < s.ht → j < s.wd → s.cell i j = none → gridRead i j s = .stop .cellUnspecified)

/-- What the grid primitives do (20_memory.md R37): a read returns the last value written to the cell and changes nothing; a
write changes that cell and no other, and nothing else. -/
def Obligations.GridReadsTheLastWrite : Prop :=
  ∀ (s : State) (i j : Nat) (v : Cell), i < s.ht → j < s.wd →
    ∃ t, gridWrite i j v s = .ok () t ∧ gridRead i j t = .ok v t ∧
      (∀ i' j', i' < s.ht → j' < s.wd → (i', j') ≠ (i, j) → t.cell i' j' = s.cell i' j') ∧
      t = { s with grid := t.grid }

/-! ### Round trips -/

/-- Header round trip (40_header_codec.md R74): what DECHDR decodes ENCHDR writes back byte for byte, and every valid header
that ENCHDR writes is decoded to the same register values. -/
def Obligations.HeaderRoundTrip : Prop :=
  (∀ s t : State, exec .dechdr s = .next t → t.hv = true →
    ∀ u : State, u.hdr = t.hdr → u.hv = true → u.dst.isOpen = true → u.opos = 0 →
      (∀ l, u.dst.limit = some l → 8 ≤ l) →
      ∃ v, exec .enchdr u = .next v ∧ v.dst.bytes = u.dst.bytes ++ s.src.bytes.take 8 ∧ v.opos = 8) ∧
  (∀ u : State, u.hv = true → u.hdr.valid = true → u.dst.isOpen = true → u.dst.bytes = [] → u.opos = 0 →
    (∀ l, u.dst.limit = some l → 8 ≤ l) →
    ∃ v, exec .enchdr u = .next v ∧
      ∀ (s : State) (rest : List Byte), s.src.isOpen = true → s.ipos = 0 → s.src.bytes = v.dst.bytes ++ rest →
        ∃ t, exec .dechdr s = .next t ∧ t.hdr = u.hdr ∧ t.hv = true)

/-- Payload round trip (41_pixel_grid_codec.md R84, first part): after a DECGRID that succeeds, ENCGRID of the unchanged grid
writes the source's payload byte for byte, for every byte width. -/
def Obligations.PayloadRoundTrip : Prop :=
  ∀ s t : State, exec .decgrid s = .next t → t.gv = true → s.gv = false → s.bw ≤ 8 →
    ∀ u : State, u.grid = t.grid → u.hdr = t.hdr → u.bytew = t.bytew → u.gv = true → u.dst.isOpen = true → u.opos = 8 →
      u.dst.limit = none →
      ∃ v, exec .encgrid u = .next v ∧ v.dst.bytes = u.dst.bytes ++ s.src.bytes.drop 8

/-! ### What no instruction does -/

/-- The header registers, BYTEW and HV are written only by DECHDR, its marker and format parts, and the acceptance of a command
(10_state.md R11, R12, R13). -/
def Obligations.OnlyDechdrWritesTheHeader : Prop :=
  ∀ (i : Instr) (s t : State), exec i s = .next t →
    i ∈ [Instr.idle, .srcopen, .decgrid, .fliph, .flipv, .dstopen, .enchdr, .encgrid, .close] →
    t.hdr = s.hdr ∧ t.bytew = s.bytew ∧ t.hv = s.hv

/-- Every cell of the grid, and GV, is left alone by every instruction but DECGRID, FLIPH, FLIPV, CLOSE and the acceptance of a
command (10_state.md R13, R15). -/
def Obligations.OnlyGridStagesWriteTheGrid : Prop :=
  ∀ (i : Instr) (s t : State), exec i s = .next t →
    i ∉ [Instr.decgrid, .fliph, .flipv, .close, .convert false false, .convert true false, .convert false true,
      .convert true true] →
    t.grid = s.grid ∧ t.gv = s.gv

/-- No instruction changes what belongs to the host: SRC.ok, SRC.bytes, DST.ok, DST.limit, the capacity, the pending moves, the
last value read (10_state.md R22, R26); and FH and FV are latched by CONVERT alone (10_state.md R14). -/
def Obligations.InputsAndFlagsStayFixed : Prop :=
  ∀ (i : Instr) (s t : State), exec i s = .next t →
    t.src.ok = s.src.ok ∧ t.src.bytes = s.src.bytes ∧ t.dst.ok = s.dst.ok ∧ t.dst.limit = s.dst.limit ∧
    t.gridCells = s.gridCells ∧ t.host = s.host ∧ t.rdata = s.rdata ∧
    ((∀ fh fv, i ≠ .convert fh fv) → t.fh = s.fh ∧ t.fv = s.fv)

/-- The destination is changed only by DSTOPEN, ENCHDR and ENCGRID, and but for DSTOPEN it only grows at its end: a byte once
given is never taken back or rewritten (20_memory.md R35, R43). -/
def Obligations.DestinationOnlyGrows : Prop :=
  ∀ (i : Instr) (s t : State), exec i s = .next t →
    (i ∉ [Instr.dstopen, .enchdr, .encgrid] → t.dst.bytes = s.dst.bytes ∧ t.opos = s.opos) ∧
    (i ≠ .dstopen → ∃ out, t.dst.bytes = s.dst.bytes ++ out ∧ t.opos = s.opos + out.length)

/-- BUSY, DONE and OK are changed only by the acceptance of a command and by CLOSE, and ERR only by that acceptance and by
raising an error (10_state.md R18). -/
def Obligations.StatusIsSetOnlyAtTheEnds : Prop :=
  ∀ (i : Instr) (s t : State), exec i s = .next t → (∀ fh fv, i ≠ .convert fh fv) →
    (i ≠ .close → t.busy = s.busy ∧ t.done = s.done ∧ t.ok = s.ok) ∧
    (t.err ≠ s.err → t.phase = .close)

/-- Raising an error (60_exceptions.md R121): PHASE goes to CLOSE with the code recorded, and the next step releases the
streams, sets BUSY = 0, DONE = 1, OK = 0, GV = 0, keeps the code, and gives or takes no byte. -/
def Obligations.RaisedErrorEndsTheConversion : Prop :=
  ∀ (i : Instr) (s t : State), s.err = .none → exec i s = .next t → t.err ≠ .none →
    t.phase = .close ∧
    (t.host = [] → ∃ u, step t = .next u ∧ u.err = t.err ∧ u.busy = false ∧ u.done = true ∧ u.ok = false ∧ u.gv = false ∧
      u.phase = .idle ∧ u.src.isOpen = false ∧ u.dst.isOpen = false ∧ u.dst.bytes = t.dst.bytes ∧ u.src.bytes = t.src.bytes ∧
      u.ipos = t.ipos ∧ u.opos = t.opos)

/-! ### The host -/

/-- The codes of the error conditions and their place in STATUS (60_exceptions.md R110, 10_state.md R18): the nine numbers of
the table, none of 9 to 15, in bits 7:4. -/
def Obligations.ErrorCodesFollowTheTable : Prop :=
  ErrCode.none.code = 0 ∧ ErrCode.ioError.code = 1 ∧ ErrCode.invalidMarker.code = 2 ∧ ErrCode.invalidDimension.code = 3 ∧
  ErrCode.unsupportedFormat.code = 4 ∧ ErrCode.trailingDataError.code = 5 ∧ ErrCode.truncatedPayloadError.code = 6 ∧
  ErrCode.illegalCommand.code = 7 ∧ ErrCode.capacityError.code = 8 ∧
  (∀ e : ErrCode, e.code.toNat ≤ 8) ∧
  (∀ s : State, s.statusByte.extractLsb' 4 4 = s.err.code)

/-- Reads of the registers (10_state.md R17, R18, R23): CMD reads 0, STATUS its byte while BUSY = 0 and at least BUSY = 1 while
it is set, the header registers their values when HV = 1 and BUSY = 0, numbers from 7 on read 0; a read changes nothing of
the block. -/
def Obligations.HostReadsTheRegisters : Prop :=
  ∀ (s : State) (n : Nat) (rest : List HostMove), s.host = .read n :: rest →
    ∃ t, step s = .next t ∧ t = { s with host := rest, rdata := t.rdata, draws := t.draws } ∧
      (n = 0 → t.rdata = 0) ∧
      (n = 1 → s.busy = false → t.rdata.toNat =
        16 * s.err.code.toNat + 8 * s.hv.toNat + 4 * s.ok.toNat + 2 * s.done.toNat + s.busy.toNat) ∧
      (n = 1 → s.busy = true → t.rdata.toNat % 2 = 1 ∧ t.rdata.toNat < 256) ∧
      (s.hv = true → s.busy = false →
        (n = 2 → t.rdata = s.hdr.marker) ∧ (n = 3 → t.rdata = s.hdr.width) ∧ (n = 4 → t.rdata = s.hdr.height) ∧
        (n = 5 → t.rdata = s.hdr.format) ∧ (n = 6 → t.rdata.toNat = s.bytew.toNat)) ∧
      (n = 6 → t.rdata.toNat < 256) ∧
      (7 ≤ n → t.rdata = 0)

/-- A write to any register but CMD is ignored (10_state.md R18, R23). That a waiting or silent host lets the CODEC perform the
word PHASE selects is the model's choice (log entry 4: the host's moves are a queue and land between stages). -/
def Obligations.OtherWritesAreIgnoredAndWaitPerformsAStage : Prop :=
  (∀ (s : State) (n : Nat) (v : BitVec 16) (rest : List HostMove), s.host = .writeOther n v :: rest →
    step s = .next { s with host := rest }) ∧
  (∀ (s : State) (rest : List HostMove), s.host = .wait :: rest → step s = runWord s.codecWord { s with host := rest }) ∧
  (∀ s : State, s.host = [] → step s = runWord s.codecWord s)

/-- The host binds the streams while BUSY = 0 (70_reset_and_hazards.md R132); while BUSY = 1 the move has no step (R133, R134:
the model refuses it, log entry 4). -/
def Obligations.HostBindsOnlyWhileIdle : Prop :=
  (∀ (s : State) (ok : Bool) (bytes : List Byte) (rest : List HostMove), s.host = .bindSrc ok bytes :: rest →
    (s.busy = false → step s = .next { s with host := rest, src := { s.src with ok := ok, bytes := bytes } }) ∧
    (s.busy = true → step s = .refused .rebindWhileBusy)) ∧
  (∀ (s : State) (ok : Bool) (limit : Option Nat) (bytes : List Byte) (rest : List HostMove),
    s.host = .bindDst ok limit bytes :: rest →
    (s.busy = false →
      step s = .next { s with host := rest, dst := { s.dst with ok := ok, limit := limit, bytes := bytes } }) ∧
    (s.busy = true → step s = .refused .rebindWhileBusy))

/-- The values after reset that 10_state.md R27 gives. The values the model chose for what R27 leaves unspecified (log entries
2, 3, 7) are not stated. -/
def Obligations.ResetStateHasTheGivenValues : Prop :=
  State.reset.busy = false ∧ State.reset.done = false ∧ State.reset.ok = false ∧ State.reset.err = .none ∧
  State.reset.hv = false ∧ State.reset.gv = false ∧ State.reset.fh = false ∧ State.reset.fv = false ∧
  State.reset.phase = .idle ∧ State.reset.ipos = 0 ∧ State.reset.opos = 0 ∧
  State.reset.src.isOpen = false ∧ State.reset.dst.isOpen = false ∧ State.reset.statusByte = 0x00

/-- The reset event (10_state.md R27, 70_reset_and_hazards.md R130): from any state the block is idle with the given values, and
SRC.ok, SRC.bytes, DST.ok and DST.limit, the host's, are not changed; with BUSY = 0 nor is DST.bytes. -/
def Obligations.ResetEventMakesTheBlockIdle : Prop :=
  ∀ (s : State) (given : Nat) (rest : List HostMove), s.host = .reset given :: rest →
    ∃ t, step s = .next t ∧
      t.busy = false ∧ t.done = false ∧ t.ok = false ∧ t.err = .none ∧ t.hv = false ∧ t.gv = false ∧ t.fh = false ∧
      t.fv = false ∧ t.phase = .idle ∧ t.ipos = 0 ∧ t.opos = 0 ∧ t.src = { s.src with isOpen := false } ∧
      t.dst = { s.dst with isOpen := false, bytes := t.dst.bytes } ∧ (∀ i j, t.cell i j = none) ∧
      (s.phase ≠ .enchdr → s.phase ≠ .encgrid → t.dst.bytes = s.dst.bytes) ∧
      t.gridCells = s.gridCells ∧ t.host = rest ∧ t.rdata = s.rdata

/-- Reset during ENCHDR or ENCGRID (70_reset_and_hazards.md R131): the destination keeps what it held and the first bytes of
what the stage gives, as many as had been given; every such number is a behaviour. -/
def Obligations.ResetCutsTheOutputAnywhere : Prop :=
  ∀ (s : State) (given : Nat) (rest : List HostMove), s.Inv → s.host = .reset given :: rest →
    (s.phase = .enchdr → ∃ t, step s = .next t ∧
      t.dst.bytes = s.dst.bytes ++ (s.accepted (headerBytes s.hdr)).take given) ∧
    (s.phase = .encgrid → ∃ t, step s = .next t ∧
      t.dst.bytes = s.dst.bytes ++ (s.accepted s.payload).take given)

/-! ### Invariants -/

/-- The state after reset meets the invariant. -/
def Obligations.ResetStateMeetsTheInvariant : Prop := State.reset.Inv

/-- Every step keeps the invariant (10_state.md R13, R18, R19, R20, R21, R24, and what each stage requires). -/
def Obligations.StepKeepsTheInvariant : Prop := ∀ s t : State, s.Inv → step s = .next t → t.Inv

/-- From a state that meets the invariant no step faults, and the only refusal is of a host that binds a stream while BUSY = 1:
no stage is ever used outside what it requires. -/
def Obligations.StepNeverFaults : Prop :=
  ∀ s : State, s.Inv →
    (∃ t, step s = .next t) ∨
    (s.busy = true ∧ step s = .refused .rebindWhileBusy ∧
      ∃ rest, (∃ ok bytes, s.host = .bindSrc ok bytes :: rest) ∨ (∃ ok limit bytes, s.host = .bindDst ok limit bytes :: rest))

/-- Every step from every state keeps the grid memory in canonical form, so that equal grids are equal data. -/
def Obligations.StepKeepsTheGridCanonical : Prop :=
  ∀ s t : State, s.grid.wf = true → step s = .next t → t.grid.wf = true

/-- While BUSY = 1 PHASE never moves backwards, and FLIPH and FLIPV are entered only when their flag asks for them (10_state.md
R19, 43_orchestration.md R103). -/
def Obligations.PhaseNeverMovesBackwards : Prop :=
  ∀ s t : State, s.busy = true → step s = .next t → t.busy = true →
    s.phase.code.toNat ≤ t.phase.code.toNat ∧
    (t.phase = .fliph → s.phase ≠ .fliph → s.fh = true) ∧
    (t.phase = .flipv → s.phase ≠ .flipv → s.fv = true)

/-- Every run ends (43_orchestration.md R108): from a state that meets the invariant, with no host move pending, the block is
idle after at most nine steps, and a conversion under way is done. R108 gives no number: nine counts the model's own steps, one
for each stage (DESIGN CHOICE, log entry 9). It also rests on the premise that the streams are the finite
records of 10_state.md R22 (93_implementation_defined.md U8). -/
def Obligations.EveryConversionEnds : Prop :=
  ∀ s : State, s.Inv → s.host = [] →
    ∃ t : State, Sys2Proof.core.run 9 s = .next t ∧ t.phase = .idle ∧ t.busy = false ∧ (s.busy = true → t.done = true)

/-! ### Whole conversions -/

/-- The outcome of every conversion (43_orchestration.md R103, R106, R107; 60_exceptions.md R119, R120, R122): from any state
with BUSY = 0, a legal command word written to CMD ends, ten steps later, with STATUS saying the first error of R119's table
and nothing else; HV = 1 exactly when the header was decoded, and then the header registers hold it; the source is as it was;
the destination is as it was when the error came before it was opened, and else holds the complete output as far as the sink
took it. Ten counts the model's own steps, one to accept the command and one for each stage (DESIGN CHOICE, log entry 9). -/
def Obligations.ConversionReportsTheFirstError : Prop :=
  ∀ (s : State) (fh fv : Bool) (c : BitVec 8), s.busy = false → decode (.command c) = .ok (.convert fh fv) →
    s.host = [.writeCmd c] →
    ∃ t : State, Sys2Proof.core.run 10 s = .next t ∧
      t.busy = false ∧ t.done = true ∧ t.phase = .idle ∧ t.gv = false ∧
      t.err = conversionError s.src s.dst s.gridCells ∧ (t.ok = true ↔ t.err = .none) ∧
      t.hv = headerDecodes s.src ∧
      (t.hv = true → t.hdr = headerOf s.src.bytes ∧ byteWidthOf t.hdr.format = some t.bw) ∧
      t.src = { s.src with isOpen := false } ∧ t.dst = { s.dst with isOpen := false, bytes := t.dst.bytes } ∧
      (reachesDestination s.src s.dst s.gridCells = false → t.dst.bytes = s.dst.bytes) ∧
      (reachesDestination s.src s.dst s.gridCells = true →
        t.dst.bytes = match s.dst.limit with
          | none   => completeOutput s.src.bytes fh fv
          | some l => (completeOutput s.src.bytes fh fv).take l)

/-- The result of a successful conversion (43_orchestration.md R103): STATUS = 0x0E, a complete image with the source's header
byte for byte, the pixel at `(i, j)` being the source's at the mirrored place, each pixel's bytes in their order. The ten steps are the
model's measure (DESIGN CHOICE, log entry 9). -/
def Obligations.SuccessfulConversionMirrorsTheImage : Prop :=
  ∀ (s : State) (fh fv : Bool) (c : BitVec 8) (B : Nat), s.busy = false → decode (.command c) = .ok (.convert fh fv) →
    s.host = [.writeCmd c] → conversionError s.src s.dst s.gridCells = .none →
    byteWidthOf (headerOf s.src.bytes).format = some B →
    ∃ t : State, Sys2Proof.core.run 10 s = .next t ∧ t.statusByte = 0x0E ∧ t.gv = false ∧
      t.hdr = headerOf s.src.bytes ∧ t.bw = B ∧
      t.dst.bytes.length = imageLength t.wd t.ht B ∧ t.dst.bytes.take 8 = s.src.bytes.take 8 ∧
      ∀ i j, i < t.ht → j < t.wd →
        pixelBytes t.dst.bytes t.wd B i j =
          pixelBytes s.src.bytes t.wd B (if fv then t.ht - 1 - i else i) (if fh then t.wd - 1 - j else j)

/-- A conversion without flips copies a well-formed source byte for byte (41_pixel_grid_codec.md R84, second part). The ten steps are the
model's measure (DESIGN CHOICE, log entry 9). -/
def Obligations.UnflippedConversionCopies : Prop :=
  ∀ s : State, s.busy = false → s.host = [.writeCmd 0x01] → conversionError s.src s.dst s.gridCells = .none →
    ∃ t : State, Sys2Proof.core.run 10 s = .next t ∧ t.dst.bytes = s.src.bytes

/-- Two conversions with the same flips undo each other (95_test_vectors.md P7, 42_transform_engine.md R93): converting the
destination of a successful conversion gives back the first source. The ten steps are the model's measure (DESIGN CHOICE, log
entry 9). -/
def Obligations.ConvertingTwiceRestoresTheSource : Prop :=
  ∀ (s s' : State) (fh fv : Bool) (c : BitVec 8), decode (.command c) = .ok (.convert fh fv) →
    s.busy = false → s.host = [.writeCmd c] → conversionError s.src s.dst s.gridCells = .none →
    s'.busy = false → s'.host = [.writeCmd c] → s'.src.ok = true → s'.dst = s.dst → s'.gridCells = s.gridCells →
    (∀ t : State, Sys2Proof.core.run 10 s = .next t → s'.src.bytes = t.dst.bytes) →
    ∃ u : State, Sys2Proof.core.run 10 s' = .next u ∧ u.err = .none ∧ u.dst.bytes = s.src.bytes
end

