-- ==== Sys2Proof/Laws/State.lean ====
section
/-!
SUPPORT. What each named update of the state leaves in each field: one lemma per field per update, by rfl. A field whose new
value is a free value has no lemma: nothing is known of it.
-/

namespace Sys2Proof.Machine

/-! ### `forgetHeader` -/

@[simp] theorem State.forgetHeader_hv (s : State) : s.forgetHeader.hv = s.hv := rfl
@[simp] theorem State.forgetHeader_gv (s : State) : s.forgetHeader.gv = s.gv := rfl
@[simp] theorem State.forgetHeader_fh (s : State) : s.forgetHeader.fh = s.fh := rfl
@[simp] theorem State.forgetHeader_fv (s : State) : s.forgetHeader.fv = s.fv := rfl
@[simp] theorem State.forgetHeader_grid (s : State) : s.forgetHeader.grid = s.grid := rfl
@[simp] theorem State.forgetHeader_pix (s : State) : s.forgetHeader.pix = s.pix := rfl
@[simp] theorem State.forgetHeader_busy (s : State) : s.forgetHeader.busy = s.busy := rfl
@[simp] theorem State.forgetHeader_done (s : State) : s.forgetHeader.done = s.done := rfl
@[simp] theorem State.forgetHeader_ok (s : State) : s.forgetHeader.ok = s.ok := rfl
@[simp] theorem State.forgetHeader_err (s : State) : s.forgetHeader.err = s.err := rfl
@[simp] theorem State.forgetHeader_phase (s : State) : s.forgetHeader.phase = s.phase := rfl
@[simp] theorem State.forgetHeader_row (s : State) : s.forgetHeader.row = s.row := rfl
@[simp] theorem State.forgetHeader_col (s : State) : s.forgetHeader.col = s.col := rfl
@[simp] theorem State.forgetHeader_lane (s : State) : s.forgetHeader.lane = s.lane := rfl
@[simp] theorem State.forgetHeader_ipos (s : State) : s.forgetHeader.ipos = s.ipos := rfl
@[simp] theorem State.forgetHeader_opos (s : State) : s.forgetHeader.opos = s.opos := rfl
@[simp] theorem State.forgetHeader_src (s : State) : s.forgetHeader.src = s.src := rfl
@[simp] theorem State.forgetHeader_dst (s : State) : s.forgetHeader.dst = s.dst := rfl
@[simp] theorem State.forgetHeader_gridCells (s : State) : s.forgetHeader.gridCells = s.gridCells := rfl
@[simp] theorem State.forgetHeader_host (s : State) : s.forgetHeader.host = s.host := rfl
@[simp] theorem State.forgetHeader_rdata (s : State) : s.forgetHeader.rdata = s.rdata := rfl
@[simp] theorem State.forgetHeader_draws (s : State) : s.forgetHeader.draws = s.draws + 5 := rfl

/-! ### `forgetScan` -/

@[simp] theorem State.forgetScan_hdr (s : State) : s.forgetScan.hdr = s.hdr := rfl
@[simp] theorem State.forgetScan_bytew (s : State) : s.forgetScan.bytew = s.bytew := rfl
@[simp] theorem State.forgetScan_hv (s : State) : s.forgetScan.hv = s.hv := rfl
@[simp] theorem State.forgetScan_gv (s : State) : s.forgetScan.gv = s.gv := rfl
@[simp] theorem State.forgetScan_fh (s : State) : s.forgetScan.fh = s.fh := rfl
@[simp] theorem State.forgetScan_fv (s : State) : s.forgetScan.fv = s.fv := rfl
@[simp] theorem State.forgetScan_grid (s : State) : s.forgetScan.grid = s.grid := rfl
@[simp] theorem State.forgetScan_pix (s : State) : s.forgetScan.pix = Config.freeValue s.draws := rfl
@[simp] theorem State.forgetScan_busy (s : State) : s.forgetScan.busy = s.busy := rfl
@[simp] theorem State.forgetScan_done (s : State) : s.forgetScan.done = s.done := rfl
@[simp] theorem State.forgetScan_ok (s : State) : s.forgetScan.ok = s.ok := rfl
@[simp] theorem State.forgetScan_err (s : State) : s.forgetScan.err = s.err := rfl
@[simp] theorem State.forgetScan_phase (s : State) : s.forgetScan.phase = s.phase := rfl
@[simp] theorem State.forgetScan_ipos (s : State) : s.forgetScan.ipos = s.ipos := rfl
@[simp] theorem State.forgetScan_opos (s : State) : s.forgetScan.opos = s.opos := rfl
@[simp] theorem State.forgetScan_src (s : State) : s.forgetScan.src = s.src := rfl
@[simp] theorem State.forgetScan_dst (s : State) : s.forgetScan.dst = s.dst := rfl
@[simp] theorem State.forgetScan_gridCells (s : State) : s.forgetScan.gridCells = s.gridCells := rfl
@[simp] theorem State.forgetScan_host (s : State) : s.forgetScan.host = s.host := rfl
@[simp] theorem State.forgetScan_rdata (s : State) : s.forgetScan.rdata = s.rdata := rfl
@[simp] theorem State.forgetScan_draws (s : State) : s.forgetScan.draws = s.draws + 4 := rfl

/-! ### `forgetIpos` -/

@[simp] theorem State.forgetIpos_hdr (s : State) : s.forgetIpos.hdr = s.hdr := rfl
@[simp] theorem State.forgetIpos_bytew (s : State) : s.forgetIpos.bytew = s.bytew := rfl
@[simp] theorem State.forgetIpos_hv (s : State) : s.forgetIpos.hv = s.hv := rfl
@[simp] theorem State.forgetIpos_gv (s : State) : s.forgetIpos.gv = s.gv := rfl
@[simp] theorem State.forgetIpos_fh (s : State) : s.forgetIpos.fh = s.fh := rfl
@[simp] theorem State.forgetIpos_fv (s : State) : s.forgetIpos.fv = s.fv := rfl
@[simp] theorem State.forgetIpos_grid (s : State) : s.forgetIpos.grid = s.grid := rfl
@[simp] theorem State.forgetIpos_pix (s : State) : s.forgetIpos.pix = s.pix := rfl
@[simp] theorem State.forgetIpos_busy (s : State) : s.forgetIpos.busy = s.busy := rfl
@[simp] theorem State.forgetIpos_done (s : State) : s.forgetIpos.done = s.done := rfl
@[simp] theorem State.forgetIpos_ok (s : State) : s.forgetIpos.ok = s.ok := rfl
@[simp] theorem State.forgetIpos_err (s : State) : s.forgetIpos.err = s.err := rfl
@[simp] theorem State.forgetIpos_phase (s : State) : s.forgetIpos.phase = s.phase := rfl
@[simp] theorem State.forgetIpos_row (s : State) : s.forgetIpos.row = s.row := rfl
@[simp] theorem State.forgetIpos_col (s : State) : s.forgetIpos.col = s.col := rfl
@[simp] theorem State.forgetIpos_lane (s : State) : s.forgetIpos.lane = s.lane := rfl
@[simp] theorem State.forgetIpos_opos (s : State) : s.forgetIpos.opos = s.opos := rfl
@[simp] theorem State.forgetIpos_src (s : State) : s.forgetIpos.src = s.src := rfl
@[simp] theorem State.forgetIpos_dst (s : State) : s.forgetIpos.dst = s.dst := rfl
@[simp] theorem State.forgetIpos_gridCells (s : State) : s.forgetIpos.gridCells = s.gridCells := rfl
@[simp] theorem State.forgetIpos_host (s : State) : s.forgetIpos.host = s.host := rfl
@[simp] theorem State.forgetIpos_rdata (s : State) : s.forgetIpos.rdata = s.rdata := rfl
@[simp] theorem State.forgetIpos_draws (s : State) : s.forgetIpos.draws = s.draws + 1 := rfl

/-! ### `forgetGrid` -/

@[simp] theorem State.forgetGrid_hdr (s : State) : s.forgetGrid.hdr = s.hdr := rfl
@[simp] theorem State.forgetGrid_bytew (s : State) : s.forgetGrid.bytew = s.bytew := rfl
@[simp] theorem State.forgetGrid_hv (s : State) : s.forgetGrid.hv = s.hv := rfl
@[simp] theorem State.forgetGrid_gv (s : State) : s.forgetGrid.gv = s.gv := rfl
@[simp] theorem State.forgetGrid_fh (s : State) : s.forgetGrid.fh = s.fh := rfl
@[simp] theorem State.forgetGrid_fv (s : State) : s.forgetGrid.fv = s.fv := rfl
@[simp] theorem State.forgetGrid_grid (s : State) : s.forgetGrid.grid = [] := rfl
@[simp] theorem State.forgetGrid_pix (s : State) : s.forgetGrid.pix = s.pix := rfl
@[simp] theorem State.forgetGrid_busy (s : State) : s.forgetGrid.busy = s.busy := rfl
@[simp] theorem State.forgetGrid_done (s : State) : s.forgetGrid.done = s.done := rfl
@[simp] theorem State.forgetGrid_ok (s : State) : s.forgetGrid.ok = s.ok := rfl
@[simp] theorem State.forgetGrid_err (s : State) : s.forgetGrid.err = s.err := rfl
@[simp] theorem State.forgetGrid_phase (s : State) : s.forgetGrid.phase = s.phase := rfl
@[simp] theorem State.forgetGrid_row (s : State) : s.forgetGrid.row = s.row := rfl
@[simp] theorem State.forgetGrid_col (s : State) : s.forgetGrid.col = s.col := rfl
@[simp] theorem State.forgetGrid_lane (s : State) : s.forgetGrid.lane = s.lane := rfl
@[simp] theorem State.forgetGrid_ipos (s : State) : s.forgetGrid.ipos = s.ipos := rfl
@[simp] theorem State.forgetGrid_opos (s : State) : s.forgetGrid.opos = s.opos := rfl
@[simp] theorem State.forgetGrid_src (s : State) : s.forgetGrid.src = s.src := rfl
@[simp] theorem State.forgetGrid_dst (s : State) : s.forgetGrid.dst = s.dst := rfl
@[simp] theorem State.forgetGrid_gridCells (s : State) : s.forgetGrid.gridCells = s.gridCells := rfl
@[simp] theorem State.forgetGrid_host (s : State) : s.forgetGrid.host = s.host := rfl
@[simp] theorem State.forgetGrid_rdata (s : State) : s.forgetGrid.rdata = s.rdata := rfl
@[simp] theorem State.forgetGrid_draws (s : State) : s.forgetGrid.draws = s.draws := rfl

/-! ### `closeStreams` -/

@[simp] theorem State.closeStreams_hdr (s : State) : s.closeStreams.hdr = s.hdr := rfl
@[simp] theorem State.closeStreams_bytew (s : State) : s.closeStreams.bytew = s.bytew := rfl
@[simp] theorem State.closeStreams_hv (s : State) : s.closeStreams.hv = s.hv := rfl
@[simp] theorem State.closeStreams_gv (s : State) : s.closeStreams.gv = s.gv := rfl
@[simp] theorem State.closeStreams_fh (s : State) : s.closeStreams.fh = s.fh := rfl
@[simp] theorem State.closeStreams_fv (s : State) : s.closeStreams.fv = s.fv := rfl
@[simp] theorem State.closeStreams_grid (s : State) : s.closeStreams.grid = s.grid := rfl
@[simp] theorem State.closeStreams_pix (s : State) : s.closeStreams.pix = s.pix := rfl
@[simp] theorem State.closeStreams_busy (s : State) : s.closeStreams.busy = s.busy := rfl
@[simp] theorem State.closeStreams_done (s : State) : s.closeStreams.done = s.done := rfl
@[simp] theorem State.closeStreams_ok (s : State) : s.closeStreams.ok = s.ok := rfl
@[simp] theorem State.closeStreams_err (s : State) : s.closeStreams.err = s.err := rfl
@[simp] theorem State.closeStreams_phase (s : State) : s.closeStreams.phase = s.phase := rfl
@[simp] theorem State.closeStreams_row (s : State) : s.closeStreams.row = s.row := rfl
@[simp] theorem State.closeStreams_col (s : State) : s.closeStreams.col = s.col := rfl
@[simp] theorem State.closeStreams_lane (s : State) : s.closeStreams.lane = s.lane := rfl
@[simp] theorem State.closeStreams_ipos (s : State) : s.closeStreams.ipos = s.ipos := rfl
@[simp] theorem State.closeStreams_opos (s : State) : s.closeStreams.opos = s.opos := rfl
@[simp] theorem State.closeStreams_src (s : State) : s.closeStreams.src = { s.src with isOpen := false } := rfl
@[simp] theorem State.closeStreams_dst (s : State) : s.closeStreams.dst = { s.dst with isOpen := false } := rfl
@[simp] theorem State.closeStreams_gridCells (s : State) : s.closeStreams.gridCells = s.gridCells := rfl
@[simp] theorem State.closeStreams_host (s : State) : s.closeStreams.host = s.host := rfl
@[simp] theorem State.closeStreams_rdata (s : State) : s.closeStreams.rdata = s.rdata := rfl
@[simp] theorem State.closeStreams_draws (s : State) : s.closeStreams.draws = s.draws := rfl

/-! ### `acceptFlags` -/

@[simp] theorem State.acceptFlags_hdr (s : State) (a b : Bool) : (s.acceptFlags a b).hdr = s.hdr := rfl
@[simp] theorem State.acceptFlags_bytew (s : State) (a b : Bool) : (s.acceptFlags a b).bytew = s.bytew := rfl
@[simp] theorem State.acceptFlags_hv (s : State) (a b : Bool) : (s.acceptFlags a b).hv = false := rfl
@[simp] theorem State.acceptFlags_gv (s : State) (a b : Bool) : (s.acceptFlags a b).gv = false := rfl
@[simp] theorem State.acceptFlags_fh (s : State) (a b : Bool) : (s.acceptFlags a b).fh = a := rfl
@[simp] theorem State.acceptFlags_fv (s : State) (a b : Bool) : (s.acceptFlags a b).fv = b := rfl
@[simp] theorem State.acceptFlags_grid (s : State) (a b : Bool) : (s.acceptFlags a b).grid = s.grid := rfl
@[simp] theorem State.acceptFlags_pix (s : State) (a b : Bool) : (s.acceptFlags a b).pix = s.pix := rfl
@[simp] theorem State.acceptFlags_busy (s : State) (a b : Bool) : (s.acceptFlags a b).busy = true := rfl
@[simp] theorem State.acceptFlags_done (s : State) (a b : Bool) : (s.acceptFlags a b).done = false := rfl
@[simp] theorem State.acceptFlags_ok (s : State) (a b : Bool) : (s.acceptFlags a b).ok = false := rfl
@[simp] theorem State.acceptFlags_err (s : State) (a b : Bool) : (s.acceptFlags a b).err = .none := rfl
@[simp] theorem State.acceptFlags_phase (s : State) (a b : Bool) : (s.acceptFlags a b).phase = s.phase := rfl
@[simp] theorem State.acceptFlags_row (s : State) (a b : Bool) : (s.acceptFlags a b).row = s.row := rfl
@[simp] theorem State.acceptFlags_col (s : State) (a b : Bool) : (s.acceptFlags a b).col = s.col := rfl
@[simp] theorem State.acceptFlags_lane (s : State) (a b : Bool) : (s.acceptFlags a b).lane = s.lane := rfl
@[simp] theorem State.acceptFlags_ipos (s : State) (a b : Bool) : (s.acceptFlags a b).ipos = s.ipos := rfl
@[simp] theorem State.acceptFlags_opos (s : State) (a b : Bool) : (s.acceptFlags a b).opos = s.opos := rfl
@[simp] theorem State.acceptFlags_src (s : State) (a b : Bool) : (s.acceptFlags a b).src = s.src := rfl
@[simp] theorem State.acceptFlags_dst (s : State) (a b : Bool) : (s.acceptFlags a b).dst = s.dst := rfl
@[simp] theorem State.acceptFlags_gridCells (s : State) (a b : Bool) : (s.acceptFlags a b).gridCells = s.gridCells := rfl
@[simp] theorem State.acceptFlags_host (s : State) (a b : Bool) : (s.acceptFlags a b).host = s.host := rfl
@[simp] theorem State.acceptFlags_rdata (s : State) (a b : Bool) : (s.acceptFlags a b).rdata = s.rdata := rfl
@[simp] theorem State.acceptFlags_draws (s : State) (a b : Bool) : (s.acceptFlags a b).draws = s.draws := rfl

/-! ### `closeFlags` -/

@[simp] theorem State.closeFlags_hdr (s : State) : s.closeFlags.hdr = s.hdr := rfl
@[simp] theorem State.closeFlags_bytew (s : State) : s.closeFlags.bytew = s.bytew := rfl
@[simp] theorem State.closeFlags_hv (s : State) : s.closeFlags.hv = s.hv := rfl
@[simp] theorem State.closeFlags_gv (s : State) : s.closeFlags.gv = false := rfl
@[simp] theorem State.closeFlags_fh (s : State) : s.closeFlags.fh = s.fh := rfl
@[simp] theorem State.closeFlags_fv (s : State) : s.closeFlags.fv = s.fv := rfl
@[simp] theorem State.closeFlags_grid (s : State) : s.closeFlags.grid = s.grid := rfl
@[simp] theorem State.closeFlags_pix (s : State) : s.closeFlags.pix = s.pix := rfl
@[simp] theorem State.closeFlags_busy (s : State) : s.closeFlags.busy = false := rfl
@[simp] theorem State.closeFlags_done (s : State) : s.closeFlags.done = true := rfl
@[simp] theorem State.closeFlags_ok (s : State) : s.closeFlags.ok = decide (s.err = .none) := rfl
@[simp] theorem State.closeFlags_err (s : State) : s.closeFlags.err = s.err := rfl
@[simp] theorem State.closeFlags_phase (s : State) : s.closeFlags.phase = .idle := rfl
@[simp] theorem State.closeFlags_row (s : State) : s.closeFlags.row = s.row := rfl
@[simp] theorem State.closeFlags_col (s : State) : s.closeFlags.col = s.col := rfl
@[simp] theorem State.closeFlags_lane (s : State) : s.closeFlags.lane = s.lane := rfl
@[simp] theorem State.closeFlags_ipos (s : State) : s.closeFlags.ipos = s.ipos := rfl
@[simp] theorem State.closeFlags_opos (s : State) : s.closeFlags.opos = s.opos := rfl
@[simp] theorem State.closeFlags_src (s : State) : s.closeFlags.src = s.src := rfl
@[simp] theorem State.closeFlags_dst (s : State) : s.closeFlags.dst = s.dst := rfl
@[simp] theorem State.closeFlags_gridCells (s : State) : s.closeFlags.gridCells = s.gridCells := rfl
@[simp] theorem State.closeFlags_host (s : State) : s.closeFlags.host = s.host := rfl
@[simp] theorem State.closeFlags_rdata (s : State) : s.closeFlags.rdata = s.rdata := rfl
@[simp] theorem State.closeFlags_draws (s : State) : s.closeFlags.draws = s.draws := rfl

/-! ### `start` -/

@[simp] theorem State.start_hv (s : State) (a b : Bool) : (s.start a b).hv = false := rfl
@[simp] theorem State.start_gv (s : State) (a b : Bool) : (s.start a b).gv = false := rfl
@[simp] theorem State.start_fh (s : State) (a b : Bool) : (s.start a b).fh = a := rfl
@[simp] theorem State.start_fv (s : State) (a b : Bool) : (s.start a b).fv = b := rfl
@[simp] theorem State.start_grid (s : State) (a b : Bool) : (s.start a b).grid = [] := rfl
@[simp] theorem State.start_pix (s : State) (a b : Bool) : (s.start a b).pix = s.pix := rfl
@[simp] theorem State.start_busy (s : State) (a b : Bool) : (s.start a b).busy = true := rfl
@[simp] theorem State.start_done (s : State) (a b : Bool) : (s.start a b).done = false := rfl
@[simp] theorem State.start_ok (s : State) (a b : Bool) : (s.start a b).ok = false := rfl
@[simp] theorem State.start_err (s : State) (a b : Bool) : (s.start a b).err = .none := rfl
@[simp] theorem State.start_phase (s : State) (a b : Bool) : (s.start a b).phase = .srcopen := rfl
@[simp] theorem State.start_row (s : State) (a b : Bool) : (s.start a b).row = s.row := rfl
@[simp] theorem State.start_col (s : State) (a b : Bool) : (s.start a b).col = s.col := rfl
@[simp] theorem State.start_lane (s : State) (a b : Bool) : (s.start a b).lane = s.lane := rfl
@[simp] theorem State.start_ipos (s : State) (a b : Bool) : (s.start a b).ipos = s.ipos := rfl
@[simp] theorem State.start_opos (s : State) (a b : Bool) : (s.start a b).opos = s.opos := rfl
@[simp] theorem State.start_src (s : State) (a b : Bool) : (s.start a b).src = s.src := rfl
@[simp] theorem State.start_dst (s : State) (a b : Bool) : (s.start a b).dst = s.dst := rfl
@[simp] theorem State.start_gridCells (s : State) (a b : Bool) : (s.start a b).gridCells = s.gridCells := rfl
@[simp] theorem State.start_host (s : State) (a b : Bool) : (s.start a b).host = s.host := rfl
@[simp] theorem State.start_rdata (s : State) (a b : Bool) : (s.start a b).rdata = s.rdata := rfl
@[simp] theorem State.start_draws (s : State) (a b : Bool) : (s.start a b).draws = s.draws + 5 := rfl

/-! ### `popHost` -/

@[simp] theorem State.popHost_hdr (s : State) : s.popHost.hdr = s.hdr := rfl
@[simp] theorem State.popHost_bytew (s : State) : s.popHost.bytew = s.bytew := rfl
@[simp] theorem State.popHost_hv (s : State) : s.popHost.hv = s.hv := rfl
@[simp] theorem State.popHost_gv (s : State) : s.popHost.gv = s.gv := rfl
@[simp] theorem State.popHost_fh (s : State) : s.popHost.fh = s.fh := rfl
@[simp] theorem State.popHost_fv (s : State) : s.popHost.fv = s.fv := rfl
@[simp] theorem State.popHost_grid (s : State) : s.popHost.grid = s.grid := rfl
@[simp] theorem State.popHost_pix (s : State) : s.popHost.pix = s.pix := rfl
@[simp] theorem State.popHost_busy (s : State) : s.popHost.busy = s.busy := rfl
@[simp] theorem State.popHost_done (s : State) : s.popHost.done = s.done := rfl
@[simp] theorem State.popHost_ok (s : State) : s.popHost.ok = s.ok := rfl
@[simp] theorem State.popHost_err (s : State) : s.popHost.err = s.err := rfl
@[simp] theorem State.popHost_phase (s : State) : s.popHost.phase = s.phase := rfl
@[simp] theorem State.popHost_row (s : State) : s.popHost.row = s.row := rfl
@[simp] theorem State.popHost_col (s : State) : s.popHost.col = s.col := rfl
@[simp] theorem State.popHost_lane (s : State) : s.popHost.lane = s.lane := rfl
@[simp] theorem State.popHost_ipos (s : State) : s.popHost.ipos = s.ipos := rfl
@[simp] theorem State.popHost_opos (s : State) : s.popHost.opos = s.opos := rfl
@[simp] theorem State.popHost_src (s : State) : s.popHost.src = s.src := rfl
@[simp] theorem State.popHost_dst (s : State) : s.popHost.dst = s.dst := rfl
@[simp] theorem State.popHost_gridCells (s : State) : s.popHost.gridCells = s.gridCells := rfl
@[simp] theorem State.popHost_host (s : State) : s.popHost.host = s.host.tail := rfl
@[simp] theorem State.popHost_rdata (s : State) : s.popHost.rdata = s.rdata := rfl
@[simp] theorem State.popHost_draws (s : State) : s.popHost.draws = s.draws := rfl

/-! ### `scanTo` -/

@[simp] theorem State.scanTo_hdr (s : State) (p : Nat × Nat) : (s.scanTo p).hdr = s.hdr := rfl
@[simp] theorem State.scanTo_bytew (s : State) (p : Nat × Nat) : (s.scanTo p).bytew = s.bytew := rfl
@[simp] theorem State.scanTo_hv (s : State) (p : Nat × Nat) : (s.scanTo p).hv = s.hv := rfl
@[simp] theorem State.scanTo_gv (s : State) (p : Nat × Nat) : (s.scanTo p).gv = s.gv := rfl
@[simp] theorem State.scanTo_fh (s : State) (p : Nat × Nat) : (s.scanTo p).fh = s.fh := rfl
@[simp] theorem State.scanTo_fv (s : State) (p : Nat × Nat) : (s.scanTo p).fv = s.fv := rfl
@[simp] theorem State.scanTo_grid (s : State) (p : Nat × Nat) : (s.scanTo p).grid = s.grid := rfl
@[simp] theorem State.scanTo_pix (s : State) (p : Nat × Nat) : (s.scanTo p).pix = s.pix := rfl
@[simp] theorem State.scanTo_busy (s : State) (p : Nat × Nat) : (s.scanTo p).busy = s.busy := rfl
@[simp] theorem State.scanTo_done (s : State) (p : Nat × Nat) : (s.scanTo p).done = s.done := rfl
@[simp] theorem State.scanTo_ok (s : State) (p : Nat × Nat) : (s.scanTo p).ok = s.ok := rfl
@[simp] theorem State.scanTo_err (s : State) (p : Nat × Nat) : (s.scanTo p).err = s.err := rfl
@[simp] theorem State.scanTo_phase (s : State) (p : Nat × Nat) : (s.scanTo p).phase = s.phase := rfl
@[simp] theorem State.scanTo_row (s : State) (p : Nat × Nat) : (s.scanTo p).row = BitVec.ofNat 16 p.1 := rfl
@[simp] theorem State.scanTo_col (s : State) (p : Nat × Nat) : (s.scanTo p).col = BitVec.ofNat 16 p.2 := rfl
@[simp] theorem State.scanTo_lane (s : State) (p : Nat × Nat) : (s.scanTo p).lane = s.lane := rfl
@[simp] theorem State.scanTo_ipos (s : State) (p : Nat × Nat) : (s.scanTo p).ipos = s.ipos := rfl
@[simp] theorem State.scanTo_opos (s : State) (p : Nat × Nat) : (s.scanTo p).opos = s.opos := rfl
@[simp] theorem State.scanTo_src (s : State) (p : Nat × Nat) : (s.scanTo p).src = s.src := rfl
@[simp] theorem State.scanTo_dst (s : State) (p : Nat × Nat) : (s.scanTo p).dst = s.dst := rfl
@[simp] theorem State.scanTo_gridCells (s : State) (p : Nat × Nat) : (s.scanTo p).gridCells = s.gridCells := rfl
@[simp] theorem State.scanTo_host (s : State) (p : Nat × Nat) : (s.scanTo p).host = s.host := rfl
@[simp] theorem State.scanTo_rdata (s : State) (p : Nat × Nat) : (s.scanTo p).rdata = s.rdata := rfl
@[simp] theorem State.scanTo_draws (s : State) (p : Nat × Nat) : (s.scanTo p).draws = s.draws := rfl

/-! ### `assemble` -/

@[simp] theorem State.assemble_hdr (s : State) (p : List Byte) : (s.assemble p).hdr = s.hdr := rfl
@[simp] theorem State.assemble_bytew (s : State) (p : List Byte) : (s.assemble p).bytew = s.bytew := rfl
@[simp] theorem State.assemble_hv (s : State) (p : List Byte) : (s.assemble p).hv = s.hv := rfl
@[simp] theorem State.assemble_gv (s : State) (p : List Byte) : (s.assemble p).gv = s.gv := rfl
@[simp] theorem State.assemble_fh (s : State) (p : List Byte) : (s.assemble p).fh = s.fh := rfl
@[simp] theorem State.assemble_fv (s : State) (p : List Byte) : (s.assemble p).fv = s.fv := rfl
@[simp] theorem State.assemble_grid (s : State) (p : List Byte) : (s.assemble p).grid = s.grid := rfl
@[simp] theorem State.assemble_pix (s : State) (p : List Byte) : (s.assemble p).pix = laneAssemble p := rfl
@[simp] theorem State.assemble_busy (s : State) (p : List Byte) : (s.assemble p).busy = s.busy := rfl
@[simp] theorem State.assemble_done (s : State) (p : List Byte) : (s.assemble p).done = s.done := rfl
@[simp] theorem State.assemble_ok (s : State) (p : List Byte) : (s.assemble p).ok = s.ok := rfl
@[simp] theorem State.assemble_err (s : State) (p : List Byte) : (s.assemble p).err = s.err := rfl
@[simp] theorem State.assemble_phase (s : State) (p : List Byte) : (s.assemble p).phase = s.phase := rfl
@[simp] theorem State.assemble_row (s : State) (p : List Byte) : (s.assemble p).row = s.row := rfl
@[simp] theorem State.assemble_col (s : State) (p : List Byte) : (s.assemble p).col = s.col := rfl
@[simp] theorem State.assemble_lane (s : State) (p : List Byte) : (s.assemble p).lane = BitVec.ofNat 4 p.length := rfl
@[simp] theorem State.assemble_ipos (s : State) (p : List Byte) : (s.assemble p).ipos = s.ipos := rfl
@[simp] theorem State.assemble_opos (s : State) (p : List Byte) : (s.assemble p).opos = s.opos := rfl
@[simp] theorem State.assemble_src (s : State) (p : List Byte) : (s.assemble p).src = s.src := rfl
@[simp] theorem State.assemble_dst (s : State) (p : List Byte) : (s.assemble p).dst = s.dst := rfl
@[simp] theorem State.assemble_gridCells (s : State) (p : List Byte) : (s.assemble p).gridCells = s.gridCells := rfl
@[simp] theorem State.assemble_host (s : State) (p : List Byte) : (s.assemble p).host = s.host := rfl
@[simp] theorem State.assemble_rdata (s : State) (p : List Byte) : (s.assemble p).rdata = s.rdata := rfl
@[simp] theorem State.assemble_draws (s : State) (p : List Byte) : (s.assemble p).draws = s.draws := rfl

/-- The scan position reads back (10_state.md R20): ROW holds any row index below 2^16. -/
theorem State.scanTo_ri (s : State) {i j : Nat} (h : i < 2 ^ 16) : (s.scanTo (i, j)).ri = i := by
  simpa [State.ri] using h

/-- The scan position reads back: COL holds any column index below 2^16. -/
theorem State.scanTo_cj (s : State) {i j : Nat} (h : j < 2 ^ 16) : (s.scanTo (i, j)).cj = j := by
  simpa [State.cj] using h

theorem State.wd_lt (s : State) : s.wd < 2 ^ 16 := s.hdr.width.isLt

theorem State.ht_lt (s : State) : s.ht < 2 ^ 16 := s.hdr.height.isLt

theorem State.bw_lt (s : State) : s.bw < 2 ^ 4 := s.bytew.isLt

end Sys2Proof.Machine
end

