-- ==== Sys2Proof/Laws/Grid.lean ====
section
/-!
SUPPORT. The laws of the grid memory (20_memory.md R37): a read after a write, the canonical form, and that two grids in
canonical form with the same reads are the same data.
-/

namespace Sys2Proof.Machine

@[simp] theorem GridMem.read_nil (a : Nat) : GridMem.read [] a = none := rfl

/-- A read of the cell just written. -/
theorem GridMem.read_write_same (m : GridMem) (a : Nat) (v : Cell) : (m.write a v).read a = some v := by
  induction m with
  | nil => simp [GridMem.write, GridMem.read]
  | cons kv m ih =>
    obtain ⟨k, w⟩ := kv
    simp only [GridMem.write]
    split
    · simp [GridMem.read]
    · split
      · simp [GridMem.read]
      · simp [GridMem.read, *]

/-- A write leaves every other cell alone. -/
theorem GridMem.read_write_other (m : GridMem) {a b : Nat} (v : Cell) (h : b ≠ a) :
    (m.write a v).read b = m.read b := by
  induction m with
  | nil => simp [GridMem.write, GridMem.read, h]
  | cons kv m ih =>
    obtain ⟨k, w⟩ := kv
    simp only [GridMem.write]
    split
    · simp [GridMem.read, h]
    · split
      · subst_vars; simp [GridMem.read, h]
      · simp [GridMem.read, ih]

theorem GridMem.read_write (m : GridMem) (a b : Nat) (v : Cell) :
    (m.write a v).read b = if b = a then some v else m.read b := by
  split
  · subst_vars; exact m.read_write_same _ v
  · exact m.read_write_other v ‹_›

theorem GridMem.wfFrom_mono {m : GridMem} {lo lo' : Nat} (h : lo' ≤ lo) (hm : m.wfFrom lo = true) :
    m.wfFrom lo' = true := by
  cases m with
  | nil => rfl
  | cons kv m =>
    simp only [GridMem.wfFrom, Bool.and_eq_true, decide_eq_true_eq] at hm ⊢
    exact ⟨by omega, hm.2⟩

theorem GridMem.write_wfFrom {m : GridMem} {lo a : Nat} {v : Cell} (hm : m.wfFrom lo = true) (ha : lo ≤ a) :
    (m.write a v).wfFrom lo = true := by
  induction m generalizing lo with
  | nil => simpa [GridMem.write, GridMem.wfFrom] using ha
  | cons kv m ih =>
    obtain ⟨k, w⟩ := kv
    simp only [GridMem.wfFrom, Bool.and_eq_true, decide_eq_true_eq] at hm
    simp only [GridMem.write]
    split
    · simp only [GridMem.wfFrom, Bool.and_eq_true, decide_eq_true_eq]
      exact ⟨ha, by omega, hm.2⟩
    · split
      · subst_vars; simp only [GridMem.wfFrom, Bool.and_eq_true, decide_eq_true_eq]; exact hm
      · simp only [GridMem.wfFrom, Bool.and_eq_true, decide_eq_true_eq]
        exact ⟨hm.1, ih hm.2 (by omega)⟩

/-- A write keeps the canonical form. -/
theorem GridMem.write_wf {m : GridMem} (hm : m.wf = true) (a : Nat) (v : Cell) : (m.write a v).wf = true :=
  GridMem.write_wfFrom hm (Nat.zero_le a)

theorem GridMem.wf_nil : GridMem.wf [] = true := rfl

/-! Every operation on the grid memory keeps its canonical form; the state after reset has it. -/

theorem gridWrite_wf {i j : Nat} {v : Cell} {s t : State} (hs : s.grid.wf = true) (h : gridWrite i j v s = .ok () t) :
    t.grid.wf = true := by
  unfold gridWrite at h
  split at h
  · injection h with _ h; subst h; exact GridMem.write_wf hs _ _
  · cases h

theorem gridRead_wf {i j : Nat} {v : Cell} {s t : State} (hs : s.grid.wf = true) (h : gridRead i j s = .ok v t) :
    t.grid.wf = true := by
  unfold gridRead at h
  split at h
  · split at h
    · injection h with _ h; subst h; exact hs
    · cases h
  · cases h

theorem forgetGrid_wf (s : State) : s.forgetGrid.grid.wf = true := rfl

theorem reset_grid_wf : State.reset.grid.wf = true := rfl

/-- Below its first address a canonical grid has no value. -/
theorem GridMem.read_below {m : GridMem} {lo a : Nat} (hm : m.wfFrom lo = true) (ha : a < lo) : m.read a = none := by
  induction m generalizing lo with
  | nil => rfl
  | cons kv m ih =>
    obtain ⟨k, w⟩ := kv
    simp only [GridMem.wfFrom, Bool.and_eq_true, decide_eq_true_eq] at hm
    simp only [GridMem.read]
    rw [if_neg (by omega)]
    exact ih hm.2 (by omega)

theorem GridMem.ext_from {m m' : GridMem} {lo : Nat} (hm : m.wfFrom lo = true) (hm' : m'.wfFrom lo = true)
    (h : ∀ a, m.read a = m'.read a) : m = m' := by
  induction m generalizing m' lo with
  | nil =>
    cases m' with
    | nil => rfl
    | cons kv m' => obtain ⟨k, w⟩ := kv; simpa [GridMem.read] using h k
  | cons kv m ih =>
    obtain ⟨k, w⟩ := kv
    cases m' with
    | nil => simpa [GridMem.read] using h k
    | cons kv' m' =>
      obtain ⟨k', w'⟩ := kv'
      simp only [GridMem.wfFrom, Bool.and_eq_true, decide_eq_true_eq] at hm hm'
      have hk : k = k' := by
        rcases Nat.lt_trichotomy k k' with hlt | heq | hgt
        · have := h k
          simp [GridMem.read, show k ≠ k' by omega, GridMem.read_below hm'.2 (show k < k' + 1 by omega)] at this
        · exact heq
        · have := h k'
          simp [GridMem.read, show k' ≠ k by omega, GridMem.read_below hm.2 (show k' < k + 1 by omega)] at this
      subst hk
      have hw : w = w' := by simpa [GridMem.read] using h k
      subst hw
      congr 1
      refine ih hm.2 hm'.2 fun a => ?_
      by_cases hak : a = k
      · subst hak
        rw [GridMem.read_below hm.2 (Nat.lt_succ_self _), GridMem.read_below hm'.2 (Nat.lt_succ_self _)]
      · simpa [GridMem.read, hak] using h a

/-- Two grids in canonical form with the same reads are the same data. -/
theorem GridMem.ext_of_wf {m m' : GridMem} (hm : m.wf = true) (hm' : m'.wf = true) (h : ∀ a, m.read a = m'.read a) :
    m = m' :=
  GridMem.ext_from hm hm' h

/-! ### Grids given by a function -/

theorem gridOf_succ (n : Nat) (f : Nat → Cell) : gridOf (n + 1) f = gridOf n f ++ [(n, f n)] := by
  simp [gridOf, List.range_succ]

theorem GridMem.read_append (m m' : GridMem) (a : Nat) :
    GridMem.read (m ++ m') a = (m.read a).or (GridMem.read m' a) := by
  induction m with
  | nil => simp
  | cons kv m ih =>
    obtain ⟨k, w⟩ := kv
    simp only [List.cons_append, GridMem.read]
    split
    · simp
    · exact ih

theorem gridOf_read (n : Nat) (f : Nat → Cell) (a : Nat) :
    (gridOf n f).read a = if a < n then some (f a) else none := by
  induction n with
  | zero => simp [gridOf]
  | succ n ih =>
    rw [gridOf_succ, GridMem.read_append, ih]
    rcases Nat.lt_trichotomy a n with h | h | h
    · simp [h, show a < n + 1 by omega]
    · subst h; simp [GridMem.read]
    · simp [GridMem.read, show ¬ a < n by omega, show ¬ a < n + 1 by omega, show a ≠ n by omega]

theorem GridMem.wfFrom_append {m : GridMem} {lo : Nat} (hm : m.wfFrom lo = true) {a : Nat} {v : Cell} (hlo : lo ≤ a)
    (ha : ∀ kv ∈ m, kv.1 < a) : GridMem.wfFrom (m ++ [(a, v)]) lo = true := by
  induction m generalizing lo with
  | nil => simpa [GridMem.wfFrom] using hlo
  | cons kv m ih =>
    obtain ⟨k, w⟩ := kv
    simp only [GridMem.wfFrom, Bool.and_eq_true, decide_eq_true_eq] at hm
    simp only [List.cons_append, GridMem.wfFrom, Bool.and_eq_true, decide_eq_true_eq]
    have hk := ha (k, w) (by simp)
    exact ⟨hm.1, ih hm.2 (by simp only at hk; omega) fun kv h => ha kv (by simp [h])⟩

theorem gridOf_wf (n : Nat) (f : Nat → Cell) : (gridOf n f).wf = true := by
  induction n with
  | zero => rfl
  | succ n ih =>
    rw [gridOf_succ]
    refine GridMem.wfFrom_append ih (Nat.zero_le n) ?_
    intro kv h
    simp only [gridOf, List.mem_map, List.mem_range] at h
    obtain ⟨a, ha, rfl⟩ := h
    exact ha

theorem gridOf_congr {n : Nat} {f g : Nat → Cell} (h : ∀ a, a < n → f a = g a) : gridOf n f = gridOf n g := by
  simp only [gridOf]
  apply List.map_congr_left
  intro a ha
  rw [h a (List.mem_range.mp ha)]

/-- A write within the grid. -/
theorem gridOf_write {n a : Nat} (f : Nat → Cell) (v : Cell) (h : a < n) :
    (gridOf n f).write a v = gridOf n (fun b => if b = a then v else f b) := by
  apply GridMem.ext_of_wf (GridMem.write_wf (gridOf_wf _ _) _ _) (gridOf_wf _ _)
  intro b
  rw [GridMem.read_write, gridOf_read, gridOf_read]
  by_cases hb : b = a
  · subst hb; simp [h]
  · simp [hb]

/-- A write just past the end. -/
theorem gridOf_write_end (n : Nat) (f : Nat → Cell) : (gridOf n f).write n (f n) = gridOf (n + 1) f := by
  apply GridMem.ext_of_wf (GridMem.write_wf (gridOf_wf _ _) _ _) (gridOf_wf _ _)
  intro b
  rw [GridMem.read_write, gridOf_read, gridOf_read]
  rcases Nat.lt_trichotomy b n with h | h | h
  · simp [h, show b < n + 1 by omega, show b ≠ n by omega]
  · subst h; simp
  · simp [show ¬ b < n by omega, show ¬ b < n + 1 by omega, show b ≠ n by omega]

/-- A canonical grid whose addresses are exactly those below `n` is given by its reads. -/
theorem gridOf_of_fst {m : GridMem} {n : Nat} (h : m.map Prod.fst = List.range n) :
    m = gridOf n (fun a => (m.read a).getD 0) := by
  have key : ∀ (n : Nat) (m : GridMem), m.map Prod.fst = List.range n → ∃ f, m = gridOf n f := by
    intro n
    induction n with
    | zero => intro m h; exact ⟨fun _ => 0, by simpa [gridOf] using h⟩
    | succ n ih =>
      intro m h
      rw [List.range_succ] at h
      obtain ⟨m1, m2, rfl, h1, h2⟩ := List.map_eq_append_iff.mp h
      obtain ⟨f, rfl⟩ := ih m1 h1
      obtain ⟨kv, rfl⟩ : ∃ kv, m2 = [kv] := by
        have : m2.length = 1 := by simpa using congrArg List.length h2
        exact List.length_eq_one_iff.mp this
      obtain ⟨k, v⟩ := kv
      simp only [List.map_cons, List.map_nil, List.cons.injEq, and_true] at h2
      subst h2
      refine ⟨fun a => if a = k then v else f a, ?_⟩
      rw [gridOf_succ]
      simp only [if_true]
      rw [gridOf_congr fun a ha => ?_]
      simp [show a ≠ k by omega]
  obtain ⟨f, rfl⟩ := key n m h
  exact gridOf_congr fun a ha => by simp [gridOf_read, ha]

theorem gridOf_fst (n : Nat) (f : Nat → Cell) : (gridOf n f).map Prod.fst = List.range n := by
  simp [gridOf, Function.comp_def]

end Sys2Proof.Machine
end

