-- ==== Sys2Proof/Laws/Flow.lean ====
section
/-!
SUPPORT. The laws of a stage's flow: `bind`, `finally`, `onRaise`, `need`, and the loop `forEach`.
-/

namespace Sys2Proof.Machine

variable {α β : Type}

@[simp] theorem Flow.bind_ok (a : α) (s : State) (f : α → State → Flow β) : (Flow.ok a s).bind f = f a s := rfl
@[simp] theorem Flow.bind_raise (e : ErrCode) (s : State) (f : α → State → Flow β) :
    (Flow.raise e s : Flow α).bind f = .raise e s := rfl
@[simp] theorem Flow.bind_stop (r : Fault) (f : α → State → Flow β) : (Flow.stop r : Flow α).bind f = .stop r := rfl

@[simp] theorem Flow.finally_ok (g : State → State) (a : α) (s : State) : (Flow.ok a s).finally g = .ok a (g s) := rfl
@[simp] theorem Flow.finally_raise (g : State → State) (e : ErrCode) (s : State) :
    (Flow.raise e s : Flow α).finally g = .raise e (g s) := rfl
@[simp] theorem Flow.finally_stop (g : State → State) (r : Fault) : (Flow.stop r : Flow α).finally g = .stop r := rfl

@[simp] theorem Flow.onRaise_ok (g : State → State) (a : α) (s : State) : (Flow.ok a s).onRaise g = .ok a s := rfl
@[simp] theorem Flow.onRaise_raise (g : State → State) (e : ErrCode) (s : State) :
    (Flow.raise e s : Flow α).onRaise g = .raise e (g s) := rfl
@[simp] theorem Flow.onRaise_stop (g : State → State) (r : Fault) : (Flow.stop r : Flow α).onRaise g = .stop r := rfl

@[simp] theorem stageEnd_ok (st : Stage) (s : State) :
    stageEnd st (.ok () s) = .next { s with phase := nextStage s.fh s.fv st } := rfl
@[simp] theorem stageEnd_raise (st : Stage) (e : ErrCode) (s : State) :
    stageEnd st (.raise e s) = .next (raiseError e s) := rfl
@[simp] theorem stageEnd_stop (st : Stage) (f : Fault) : stageEnd st (.stop f) = .fault f := rfl

@[simp] theorem stageGoesOn_ok (s : State) : stageGoesOn (.ok () s) = .next s := rfl
@[simp] theorem stageGoesOn_raise (e : ErrCode) (s : State) : stageGoesOn (.raise e s) = .next (raiseError e s) := rfl
@[simp] theorem stageGoesOn_stop (f : Fault) : stageGoesOn (.stop f) = .fault f := rfl

@[simp] theorem need_true (f : Fault) (k : Flow Unit) : need true f k = k := rfl
theorem need_of {c : Bool} {f : Fault} {k : Flow Unit} (h : c = true) : need c f k = k := by rw [h]; rfl
@[simp] theorem need_false (f : Fault) (k : Flow Unit) : need false f k = .stop f := rfl

@[simp] theorem forEach_nil (body : α → State → Flow Unit) (s : State) : forEach body [] s = .ok () s := rfl
@[simp] theorem forEach_cons (body : α → State → Flow Unit) (x : α) (xs : List α) (s : State) :
    forEach body (x :: xs) s = (body x s).bind fun _ s' => forEach body xs s' := rfl

theorem Flow.bind_assoc {γ : Type} (x : Flow α) (f : α → State → Flow β) (g : β → State → Flow γ) :
    (x.bind f).bind g = x.bind fun a s => (f a s).bind g := by
  cases x <;> rfl

theorem Flow.finally_bind (g : State → State) (x : Flow α) (f : α → State → Flow β) :
    (x.bind f).finally g = match x with
      | .ok a s    => (f a s).finally g
      | .raise e s => .raise e (g s)
      | .stop r    => .stop r := by
  cases x <;> rfl

/-- A loop over one list after another. -/
theorem forEach_append (body : α → State → Flow Unit) (xs ys : List α) (s : State) :
    forEach body (xs ++ ys) s = (forEach body xs s).bind fun _ s' => forEach body ys s' := by
  induction xs generalizing s with
  | nil => rfl
  | cons x xs ih =>
    simp only [List.cons_append, forEach_cons, Flow.bind_assoc]
    congr 1
    funext a s'
    exact ih s'

/-- A loop over renamed indices. -/
theorem forEach_map (body : β → State → Flow Unit) (f : α → β) (xs : List α) (s : State) :
    forEach body (xs.map f) s = forEach (fun x => body (f x)) xs s := by
  induction xs generalizing s with
  | nil => rfl
  | cons x xs ih =>
    simp only [List.map_cons, forEach_cons]
    congr 1
    funext a s'
    exact ih s'

/-- A loop over a list of lists, joined. -/
theorem forEach_flatMap (body : β → State → Flow Unit) (f : α → List β) (xs : List α) (s : State) :
    forEach body (xs.flatMap f) s = forEach (fun x => forEach body (f x)) xs s := by
  induction xs generalizing s with
  | nil => rfl
  | cons x xs ih =>
    simp only [List.flatMap_cons, forEach_append, forEach_cons]
    congr 1
    funext a s'
    exact ih s'

/-- A loop over indices every iteration of which succeeds: `P k` holds before iteration `k`. -/
theorem forEach_range_ok (body : Nat → State → Flow Unit) (P : Nat → State → Prop) (n : Nat) (s : State) (h0 : P 0 s)
    (h : ∀ k s, k < n → P k s → ∃ s', body k s = .ok () s' ∧ P (k + 1) s') :
    ∃ s', forEach body (List.range n) s = .ok () s' ∧ P n s' := by
  induction n with
  | zero => exact ⟨s, rfl, h0⟩
  | succ n ih =>
    obtain ⟨s1, h1, hP⟩ := ih fun k s hk => h k s (by omega)
    obtain ⟨s2, h2, hP2⟩ := h n s1 (by omega) hP
    exact ⟨s2, by rw [List.range_succ, forEach_append, h1]; simp [h2], hP2⟩

/-- A loop over indices that raises at iteration `n`, every earlier iteration succeeding. -/
theorem forEach_range_raise (body : Nat → State → Flow Unit) (P : Nat → State → Prop) (Q : State → Prop) (n m : Nat)
    (e : ErrCode) (s : State) (hnm : n < m) (h0 : P 0 s)
    (h : ∀ k s, k < n → P k s → ∃ s', body k s = .ok () s' ∧ P (k + 1) s')
    (hn : ∀ s, P n s → ∃ s', body n s = .raise e s' ∧ Q s') :
    ∃ s', forEach body (List.range m) s = .raise e s' ∧ Q s' := by
  obtain ⟨d, rfl⟩ : ∃ d, m = n + (d + 1) := ⟨m - n - 1, by omega⟩
  obtain ⟨s1, h1, hP⟩ := forEach_range_ok body P n s h0 h
  obtain ⟨s2, h2, hQ⟩ := hn s1 hP
  refine ⟨s2, ?_, hQ⟩
  rw [List.range_add, forEach_append, h1]
  simp [List.range_succ_eq_map, h2]

end Sys2Proof.Machine
end

