-- ==== Sys2Proof/Laws/Lanes.lean ====
section
/-!
SUPPORT. The laws of the datapath's functions: the byte exchange (40_header_codec.md R70), the two bytes of a raw field
(30_encoding.md R53), the lanes of a cell (41_pixel_grid_codec.md R80, R81).
-/

namespace Sys2Proof.Machine

/-! ### Fields -/

theorem getLsbD_joinRaw (a b : Byte) (i : Nat) :
    (joinRaw a b).getLsbD i = if i < 8 then a.getLsbD i else b.getLsbD (i - 8) :=
  BitVec.getLsbD_append

theorem getLsbD_byteSwap16 (v : Field) (i : Nat) :
    (byteSwap16 v).getLsbD i = if i < 8 then v.getLsbD (8 + i) else decide (i < 16) && v.getLsbD (i - 8) := by
  refine Eq.trans (BitVec.getLsbD_append (x := v.extractLsb' 0 8) (y := v.extractLsb' 8 8)) ?_
  rw [BitVec.getLsbD_extractLsb', BitVec.getLsbD_extractLsb']
  split
  · simp [*]
  · rw [Nat.zero_add]; congr 1; simp; omega

/-- The two bytes of a raw value read back as the value. -/
@[simp] theorem rawOf_splitRaw (v : Field) : rawOf (splitRaw v) = v := by
  apply BitVec.eq_of_getLsbD_eq
  intro i hi
  simp only [rawOf, splitRaw, Config.nativeOrder, List.getD_cons_zero, List.getD_cons_succ, getLsbD_joinRaw,
    BitVec.getLsbD_extractLsb']
  split
  · simp [*]
  · simp [show i - 8 < 8 by omega, show 8 + (i - 8) = i by omega]

/-- Two bytes joined to a raw value are given back as they were. -/
@[simp] theorem splitRaw_joinRaw (a b : Byte) : splitRaw (joinRaw a b) = [a, b] := by
  simp only [splitRaw, Config.nativeOrder]
  congr 1
  · apply BitVec.eq_of_getLsbD_eq
    intro i hi
    simp [getLsbD_joinRaw, hi]
  · congr 1
    apply BitVec.eq_of_getLsbD_eq
    intro i hi
    simp [getLsbD_joinRaw, hi]

theorem splitRaw_length (v : Field) : (splitRaw v).length = 2 := rfl

/-- ByteSwap16 is an involution (40_header_codec.md R70). -/
@[simp] theorem byteSwap16_byteSwap16 (v : Field) : byteSwap16 (byteSwap16 v) = v := by
  apply BitVec.eq_of_getLsbD_eq
  intro i hi
  simp only [getLsbD_byteSwap16]
  split
  · simp [show ¬ (8 + i < 8) by omega, show 8 + i < 16 by omega]
  · simp [show i - 8 < 8 by omega, hi, show 8 + (i - 8) = i by omega]

@[simp] theorem swapFor_swapFor (m v : Field) : swapFor m (swapFor m v) = v := by
  unfold swapFor; split <;> simp

theorem swapFor_little (v : Field) : swapFor Config.markerLittle v = v := if_neg (by decide)

theorem swapFor_big (v : Field) : swapFor Config.markerBig v = byteSwap16 v := if_pos rfl

/-! ### Lanes -/

theorem getLsbD_lane (c : Cell) (k i : Nat) : (lane c k).getLsbD i = (decide (i < 8) && c.getLsbD (8 * k + i)) := by
  simp [lane, BitVec.getLsbD_extractLsb']

/-- A lane after a lane is set: lanes do not interact (41_pixel_grid_codec.md R80). -/
theorem lane_setLane (c : Cell) (b : Byte) {k j : Nat} (hk : k < 8) (hj : j < 8) :
    lane (setLane c k b) j = if j = k then b else lane c j := by
  apply BitVec.eq_of_getLsbD_eq
  intro i hi
  rw [getLsbD_lane]
  have h255 : ∀ n, (0xFF : Cell).getLsbD n = decide (n < 8) := by
    intro n
    by_cases h : n < 64
    · have : ∀ m : Fin 64, (0xFF : Cell).getLsbD m = decide ((m : Nat) < 8) := by decide
      exact this ⟨n, h⟩
    · rw [BitVec.getLsbD_of_ge _ _ (by omega)]; simp; omega
  simp only [hi, decide_true, Bool.true_and, setLane, BitVec.getLsbD_or, BitVec.getLsbD_and, BitVec.getLsbD_not,
    BitVec.getLsbD_shiftLeft, h255, BitVec.getLsbD_setWidth, BitVec.zeroExtend]
  split
  · rename_i hjk
    subst hjk
    simp [show 8 * j + i < 64 by omega, show i < 64 by omega, show ¬ 8 ≤ i by omega]
  · rename_i hjk
    rw [getLsbD_lane]
    rcases Nat.lt_or_gt_of_ne hjk with h | h
    · have h1 : 8 * j + i < 8 * k := by omega
      simp [h1, show 8 * j + i < 64 by omega, hi]
    · have h1 : ¬ (8 * j + i < 8 * k) := by omega
      have h2 : ¬ (8 * j + i - 8 * k < 8) := by omega
      have h3 : b.getLsbD (8 * j + i - 8 * k) = false := BitVec.getLsbD_of_ge b _ (by omega)
      simp [h1, h2, h3, show 8 * j + i < 64 by omega, hi]

/-- Cells with the same eight lanes are the same cell. -/
theorem cell_ext {c c' : Cell} (h : ∀ k, k < 8 → lane c k = lane c' k) : c = c' := by
  apply BitVec.eq_of_getLsbD_eq
  intro i hi
  have hl : (lane c (i / 8)).getLsbD (i % 8) = (lane c' (i / 8)).getLsbD (i % 8) := by rw [h (i / 8) (by omega)]
  rw [getLsbD_lane, getLsbD_lane, Nat.div_add_mod] at hl
  simpa only [show i % 8 < 8 by omega, decide_true, Bool.true_and] using hl

theorem lane_fillLanes (bs : List Byte) (k : Nat) (c : Cell) (h : k + bs.length ≤ 8) (j : Nat) (hj : j < 8) :
    lane (fillLanes bs k c) j = if k ≤ j ∧ j < k + bs.length then bs.getD (j - k) 0 else lane c j := by
  induction bs generalizing k c with
  | nil => simp only [fillLanes, List.length_nil]; rw [if_neg (by omega)]
  | cons b bs ih =>
    simp only [List.length_cons] at h ⊢
    rw [fillLanes, ih _ _ (by omega), lane_setLane _ _ (by omega) hj]
    rcases Nat.lt_trichotomy j k with hlt | heq | hgt
    · rw [if_neg (by omega), if_neg (by omega), if_neg (by omega)]
    · subst heq
      rw [if_neg (by omega), if_pos rfl, if_pos (by omega)]
      simp
    · by_cases hin : j < k + 1 + bs.length
      · rw [if_pos (by omega), if_pos (by omega), show j - k = (j - (k + 1)) + 1 by omega]
        simp
      · rw [if_neg (by omega), if_neg (by omega), if_neg (by omega)]

theorem lane_zero (j : Nat) : lane 0 j = 0 := by
  apply BitVec.eq_of_getLsbD_eq
  intro i hi
  simp [getLsbD_lane]

/-- Lane `k` of an assembled pixel is byte `k`, and zero past the last byte (41_pixel_grid_codec.md R80). -/
theorem lane_laneAssemble (p : List Byte) (h : p.length ≤ 8) (j : Nat) (hj : j < 8) :
    lane (laneAssemble p) j = p.getD j 0 := by
  rw [laneAssemble, lane_fillLanes _ _ _ (by omega) _ hj, lane_zero]
  split
  · rfl
  · rw [List.getD_eq_getElem?_getD, List.getElem?_eq_none (by omega)]; rfl

theorem laneEmit_length (c : Cell) (B : Nat) : (laneEmit c B).length = B := by simp [laneEmit]

theorem getD_laneEmit (c : Cell) (B k : Nat) : (laneEmit c B).getD k 0 = if k < B then lane c k else 0 := by
  split
  · simp [laneEmit, *]
  · rw [List.getD_eq_getElem?_getD, List.getElem?_eq_none (by rw [laneEmit_length]; omega)]; rfl

/-! ### Values -/

/-- A number cut into bytes and summed again. -/
theorem sum_bytes (c : Cell) (B : Nat) : ((List.range B).map fun k => (c.toNat / 2^(8*k) % 256) * 256^k).sum = c.toNat % 2^(8*B) := by
  induction B with
  | zero => simp; omega
  | succ n ih =>
    rw [List.range_succ, List.map_append, List.sum_append, ih]
    simp only [List.map_cons, List.map_nil, List.sum_cons, List.sum_nil, Nat.add_zero]
    have e : (256:Nat)^n = 2^(8*n) := by rw [Nat.pow_mul]
    rw [e, Nat.mul_add, Nat.pow_add, Nat.mod_mul]
    ring

theorem lane_toNat (c : Cell) (k : Nat) : (lane c k).toNat = c.toNat / 2 ^ (8*k) % 256 := by
  rw [lane, BitVec.extractLsb'_toNat, Nat.shiftRight_eq_div_pow]

/-- A cell is the sum of its lanes. -/
theorem cell_eq_sum_lanes (c : Cell) : c.toNat = ((List.range 8).map fun k => (lane c k).toNat * 256 ^ k).sum := by
  simp only [lane_toNat]
  rw [sum_bytes]
  exact (Nat.mod_eq_of_lt c.isLt).symm

/-- An assembled pixel is the little-endian reading of its bytes (41_pixel_grid_codec.md R80). -/
theorem laneAssemble_toNat (p : List Byte) (h : p.length ≤ 8) : (laneAssemble p).toNat = ((List.range p.length).map fun k => (p.getD k 0).toNat * 256 ^ k).sum := by
  rw [cell_eq_sum_lanes]
  obtain ⟨d, hd⟩ : ∃ d, 8 = p.length + d := ⟨8 - p.length, by omega⟩
  have hr : List.range 8 = List.range (p.length + d) := by rw [← hd]
  rw [hr, List.range_add, List.map_append, List.sum_append]
  have h1 : ((List.range p.length).map fun k => (lane (laneAssemble p) k).toNat * 256 ^ k) = ((List.range p.length).map fun k => (p.getD k 0).toNat * 256 ^ k) := by
    apply List.map_congr_left; intro k hk; have := List.mem_range.mp hk
    rw [lane_laneAssemble p h k (by omega)]
  rw [h1]
  suffices hz : (List.map (fun k => BitVec.toNat (lane (laneAssemble p) k) * 256 ^ k) (List.map (fun x => p.length + x) (List.range d))).sum = 0 by omega
  apply List.sum_eq_zero
  intro x hx
  simp only [List.map_map, List.mem_map, List.mem_range, Function.comp] at hx
  obtain ⟨a, ha, rfl⟩ := hx
  rw [lane_laneAssemble p h _ (by omega)]
  simp [List.getD_eq_getElem?_getD]

theorem sum_bytes_lt (B : Nat) (f : Nat → Nat) (hf : ∀ k, f k < 256) : ((List.range B).map fun k => f k * 256 ^ k).sum < 2 ^ (8*B) := by
  induction B with
  | zero => simp
  | succ n ih =>
    rw [List.range_succ, List.map_append, List.sum_append]
    simp only [List.map_cons, List.map_nil, List.sum_cons, List.sum_nil]
    have e : (256:Nat)^n = 2^(8*n) := by rw [Nat.pow_mul]
    have := hf n
    have e2 : 2^(8*(n+1)) = 256 * 2^(8*n) := by rw [Nat.mul_add, Nat.pow_add, Nat.mul_comm]; 
    rw [e2, e]
    nlinarith [Nat.mul_le_mul_right (2^(8*n)) (Nat.succ_le_of_lt this)]

/-- An assembled pixel stays below `2^(8B)` (10_state.md R24). -/
theorem laneAssemble_toNat_lt (p : List Byte) (h : p.length ≤ 8) : (laneAssemble p).toNat < 2 ^ (8 * p.length) := by
  rw [laneAssemble_toNat p h]
  exact sum_bytes_lt _ (fun k => (p.getD k 0).toNat) fun k => (p.getD k 0).isLt

/-- The bytes of an assembled pixel come back (41_pixel_grid_codec.md R81). -/
theorem laneEmit_laneAssemble (p : List Byte) (h : p.length ≤ 8) : laneEmit (laneAssemble p) p.length = p := by
    apply List.ext_getElem (laneEmit_length _ _)
    intro k hk hk'
    simp only [laneEmit, List.getElem_map, List.getElem_range]
    rw [lane_laneAssemble p h k (by omega)]
    simp [List.getD_eq_getElem?_getD, hk']

end Sys2Proof.Machine
end

