-- ==== Sys2Proof/Laws/Streams.lean ====
section
/-!
SUPPORT. Everything the stream primitives can do (20_memory.md R31 to R36), one lemma per operation.
-/

namespace Sys2Proof.Machine

/-! ### The source -/

theorem takeOr_ok {e : ErrCode} {n : Nat} {s : State} (ho : s.src.isOpen = true)
    (hn : s.ipos + n ≤ s.src.bytes.length) :
    takeOr e n s = .ok ((s.src.bytes.drop s.ipos).take n) { s with ipos := s.ipos + n } := by
  simp [takeOr, inTake, ho, hn]

theorem takeOr_short {e : ErrCode} {n : Nat} {s : State} (ho : s.src.isOpen = true)
    (hn : s.src.bytes.length < s.ipos + n) : takeOr e n s = .raise e s.forgetIpos := by
  simp [takeOr, inTake, ho, Nat.not_le.mpr hn]

theorem takeOr_closed {e : ErrCode} {n : Nat} {s : State} (ho : s.src.isOpen = false) :
    takeOr e n s = .stop .srcNotOpen := by
  simp [takeOr, inTake, ho]

theorem rawOf_take_two (b : List Byte) : rawOf (b.take 2) = rawOf b := by
  rcases b with _ | ⟨x, _ | ⟨y, b⟩⟩ <;> rfl

theorem takeField_ok {s : State} (ho : s.src.isOpen = true) (hn : s.ipos + 2 ≤ s.src.bytes.length) :
    takeField s = .ok (rawOf (s.src.bytes.drop s.ipos)) { s with ipos := s.ipos + 2 } := by
  simp [takeField, takeOr_ok ho hn, rawOf_take_two]

theorem takeField_short {s : State} (ho : s.src.isOpen = true) (hn : s.src.bytes.length < s.ipos + 2) :
    takeField s = .raise .ioError s.forgetIpos := by
  simp [takeField, takeOr_short ho hn]

theorem takeField_closed {s : State} (ho : s.src.isOpen = false) : takeField s = .stop .srcNotOpen := by
  simp [takeField, takeOr_closed ho]

/-! ### The sink -/

@[simp] theorem State.gave_nil (s : State) : s.gave [] = s := by simp [State.gave]

theorem State.gave_gave (s : State) (a b : List Byte) : (s.gave a).gave b = s.gave (a ++ b) := by
  simp [State.gave, Nat.add_assoc]

theorem give_ok {b : Byte} {s : State} (ho : s.dst.isOpen = true) (hr : sinkAccepts s = true) :
    give b s = .ok () (s.gave [b]) := by
  simp [give, outPut, ho, hr, State.gave]

theorem give_full {b : Byte} {s : State} (ho : s.dst.isOpen = true) (hr : sinkAccepts s = false) :
    give b s = .raise .ioError s := by
  simp [give, outPut, ho, hr]

theorem give_closed {b : Byte} {s : State} (ho : s.dst.isOpen = false) : give b s = .stop .dstNotOpen := by
  simp [give, outPut, ho]

/-- Bytes given one after the other (20_memory.md R35): all of them, or the first ones up to the limit and then IoError. -/
theorem forEach_give (out : List Byte) (s : State) (ho : s.dst.isOpen = true) :
    forEach give out s =
      if s.takesAll out then .ok () (s.gave out) else .raise .ioError (s.gave (s.accepted out)) := by
  induction out generalizing s with
  | nil => simp [State.takesAll, State.accepted]; cases s.dst.limit <;> simp
  | cons b out ih =>
    rw [forEach_cons]
    cases hl : s.dst.limit with
    | none =>
      rw [give_ok ho (by simp [sinkAccepts, hl]), Flow.bind_ok, ih _ (by simpa [State.gave] using ho)]
      simp [State.takesAll, State.accepted, State.gave, hl, Nat.add_assoc, Nat.add_comm 1]
    | some l =>
      by_cases hr : s.opos < l
      · rw [give_ok ho (by simp [sinkAccepts, hl, hr]), Flow.bind_ok, ih _ (by simpa [State.gave] using ho)]
        obtain ⟨d, rfl⟩ : ∃ d, l = s.opos + (d + 1) := ⟨l - s.opos - 1, by omega⟩
        have e1 : s.opos + (d + 1) - (s.opos + 1) = d := by omega
        have e2 : s.opos + (d + 1) - s.opos = d + 1 := by omega
        simp [State.takesAll, State.accepted, State.gave, hl, e1, e2, Nat.add_assoc, Nat.add_comm 1]
      · rw [give_full ho (by simpa [sinkAccepts, hl] using hr), Flow.bind_raise]
        have e : l - s.opos = 0 := by omega
        simp [State.takesAll, State.accepted, hl, e]

theorem forEach_give_closed (b : Byte) (out : List Byte) (s : State) (ho : s.dst.isOpen = false) :
    forEach give (b :: out) s = .stop .dstNotOpen := by
  simp [give_closed ho]

end Sys2Proof.Machine
end

