-- ==== Sys2Proof/Laws/DecodeWalk.lean ====
section
/-!
SUPPORT. Everything the walks over the grid can do: the zero fill and the pixel walk of DECGRID, the pixel walk of ENCGRID, and
the exchanges of the flips.
-/

namespace Sys2Proof.Machine

/-! ### The index ranges -/

/-- A nested loop is one loop over a flat index. -/
theorem pairs_eq_map (m n : Nat) : pairs m n = (List.range (m * n)).map fun a => (a / n, a % n) := by
  induction m with
  | zero => simp [pairs]
  | succ m ih =>
    have h1 : pairs (m + 1) n = pairs m n ++ (List.range n).map fun b => (m, b) := by
      simp [pairs, List.range_succ]
    rw [h1, ih, Nat.succ_mul, List.range_add, List.map_append, List.map_map]
    congr 1
    apply List.map_congr_left
    intro b hb
    have hb' := List.mem_range.mp hb
    simp [Nat.mul_add_div (show 0 < n by omega), Nat.div_eq_of_lt hb', Nat.mod_eq_of_lt hb',
      Nat.mul_comm m n]

theorem mem_pairs {m n : Nat} {p : Nat × Nat} : p ∈ pairs m n ↔ p.1 < m ∧ p.2 < n := by
  obtain ⟨a, b⟩ := p
  simp [pairs]

theorem pairs_nodup (m n : Nat) : (pairs m n).Nodup := by
  rw [pairs_eq_map]
  apply List.Nodup.map_on _ List.nodup_range
  intro a ha b hb h
  simp only [Prod.mk.injEq] at h
  rw [← Nat.div_add_mod a n, h.1, h.2, Nat.div_add_mod]

/-- A walk over all cells of an `h` by `w` grid is a loop over the flat index. -/
theorem walk_rowMajor (body : State → Flow Unit) (h w : Nat) (s : State) :
    walk body (rowMajor h w) s = forEach (fun a s' => body (s'.scanTo (a / w, a % w))) (List.range (h * w)) s := by
  rw [walk, rowMajor, pairs_eq_map, forEach_map]

theorem div_lt_of_lt_mul {a h w : Nat} (ha : a < h * w) : a / w < h :=
  Nat.div_lt_of_lt_mul (by rwa [Nat.mul_comm] at ha)

theorem mod_lt_of_lt_mul {a h w : Nat} (ha : a < h * w) : a % w < w :=
  Nat.mod_lt _ (Nat.pos_of_ne_zero (by rintro rfl; simp at ha))

theorem flat_lt {i j h w : Nat} (hi : i < h) (hj : j < w) : i * w + j < h * w := by
  calc i * w + j < i * w + w := by omega
    _ = (i + 1) * w := (Nat.succ_mul i w).symm
    _ ≤ h * w := Nat.mul_le_mul_right w hi

theorem flat_div {i j w : Nat} (hj : j < w) : (i * w + j) / w = i := by
  rw [Nat.mul_comm, Nat.mul_add_div (by omega), Nat.div_eq_of_lt hj, Nat.add_zero]

theorem flat_mod {i j w : Nat} (hj : j < w) : (i * w + j) % w = j := by
  rw [Nat.mul_comm, Nat.mul_add_mod, Nat.mod_eq_of_lt hj]

/-! ### DECGRID -/

/-- The zero fill (41_pixel_grid_codec.md R82): every cell of the grid is 0. -/
theorem walk_clearCell (s : State) (hg : s.grid = []) :
    ∃ r c, walk clearCell (rowMajor s.ht s.wd) s =
      .ok () { s with grid := gridOf (s.ht * s.wd) (fun _ => 0), row := r, col := c } := by
  rw [walk_rowMajor]
  obtain ⟨s', h, r, c, rfl⟩ := forEach_range_ok
    (fun a s' => clearCell (s'.scanTo (a / s.wd, a % s.wd)))
    (fun k s' => ∃ r c, s' = { s with grid := gridOf k (fun _ => 0), row := r, col := c })
    (s.ht * s.wd) s ⟨s.row, s.col, by simp only [gridOf, List.range_zero, List.map_nil, ← hg]⟩
    (by
      rintro k _ hk ⟨r, c, rfl⟩
      have hi := div_lt_of_lt_mul hk
      have hj := mod_lt_of_lt_mul hk
      refine ⟨{ s with grid := gridOf (k + 1) (fun _ => 0), row := BitVec.ofNat 16 (k / s.wd),
                       col := BitVec.ofNat 16 (k % s.wd) }, ?_, _, _, rfl⟩
      rw [clearCell, State.scanTo_ri _ (hi.trans s.ht_lt), State.scanTo_cj _ (hj.trans s.wd_lt), gridWrite,
        if_pos (by simp only [State.inGrid, Bool.and_eq_true, decide_eq_true_eq]; exact ⟨hi, hj⟩)]
      have ha : State.cellAddr (State.scanTo { s with grid := gridOf k (fun _ => 0), row := r, col := c }
          (k / s.wd, k % s.wd)) (k / s.wd) (k % s.wd) = k := Nat.div_add_mod' k s.wd
      rw [ha]
      simp only [State.scanTo_grid]
      rw [show (0 : Cell) = (fun _ => 0) k from rfl, gridOf_write_end]
      rfl)
  exact ⟨r, c, h⟩

/-- The cell the deserializer makes of pixel `a` (counted in file order) of a source (41_pixel_grid_codec.md R80, R82). -/
def decodedCell (b : List Byte) (B a : Nat) : Cell := laneAssemble ((b.drop (8 + a * B)).take B)

/-- One pixel of DECGRID, its bytes all there. -/
theorem decPixel_ok {s : State} {k : Nat} (g : Nat → Cell) (hk : k < s.ht * s.wd) (ho : s.src.isOpen = true)
    (hp : s.ipos = 8 + k * s.bw) (hl : 8 + (k + 1) * s.bw ≤ s.src.bytes.length)
    (hg : s.grid = gridOf (s.ht * s.wd) g) :
    ∃ r c l p, decPixel (s.scanTo (k / s.wd, k % s.wd)) =
      .ok () { s with
        ipos := 8 + (k + 1) * s.bw
        grid := gridOf (s.ht * s.wd) (fun a => if a = k then decodedCell s.src.bytes s.bw k else g a)
        row := r, col := c, lane := l, pix := p } := by
  have hi := div_lt_of_lt_mul hk
  have hj := mod_lt_of_lt_mul hk
  have hs : s.ipos + s.bw = 8 + (k + 1) * s.bw := by rw [hp, Nat.succ_mul]; omega
  rw [decPixel, takeOr_ok (by exact ho) (by
    show s.ipos + s.bw ≤ s.src.bytes.length
    omega), Flow.bind_ok]
  refine ⟨BitVec.ofNat 16 (k / s.wd), BitVec.ofNat 16 (k % s.wd),
    BitVec.ofNat 4 ((s.src.bytes.drop s.ipos).take s.bw).length, laneAssemble ((s.src.bytes.drop s.ipos).take s.bw), ?_⟩
  generalize hs1 : State.assemble _ _ = s1
  have hri : s1.ri = k / s.wd := by
    subst hs1; exact State.scanTo_ri s (i := k / s.wd) (j := k % s.wd) (hi.trans s.ht_lt)
  have hcj : s1.cj = k % s.wd := by
    subst hs1; exact State.scanTo_cj s (i := k / s.wd) (j := k % s.wd) (hj.trans s.wd_lt)
  have hin : s1.inGrid (k / s.wd) (k % s.wd) = true := by
    subst hs1
    simp only [State.inGrid, Bool.and_eq_true, decide_eq_true_eq]
    exact ⟨hi, hj⟩
  have ha : s1.cellAddr (k / s.wd) (k % s.wd) = k := by
    subst hs1; exact Nat.div_add_mod' k s.wd
  have hgrid : s1.grid = gridOf (s.ht * s.wd) g := by subst hs1; exact hg
  simp only [hri, hcj, gridWrite, hin, if_true, ha, hgrid, gridOf_write _ _ hk]
  subst hs1
  simp only [decodedCell]
  rw [← hs, ← hp]
  rfl

/-- The pixel walk of DECGRID on a source that holds every declared pixel. -/
theorem walk_decPixel_ok (s : State) (g : Nat → Cell) (ho : s.src.isOpen = true) (hp : s.ipos = 8)
    (hl : 8 + s.ht * s.wd * s.bw ≤ s.src.bytes.length) (hg : s.grid = gridOf (s.ht * s.wd) g) :
    ∃ r c l p, walk decPixel (rowMajor s.ht s.wd) s =
      .ok () { s with
        ipos := 8 + s.ht * s.wd * s.bw
        grid := gridOf (s.ht * s.wd) (decodedCell s.src.bytes s.bw)
        row := r, col := c, lane := l, pix := p } := by
  rw [walk_rowMajor]
  obtain ⟨s', h, r, c, l, p, rfl⟩ := forEach_range_ok
    (fun a s' => decPixel (s'.scanTo (a / s.wd, a % s.wd)))
    (fun k s' => ∃ r c l p, s' = { s with
        ipos := 8 + k * s.bw
        grid := gridOf (s.ht * s.wd) (fun a => if a < k then decodedCell s.src.bytes s.bw a else g a)
        row := r, col := c, lane := l, pix := p })
    (s.ht * s.wd) s ⟨s.row, s.col, s.lane, s.pix, by simp [← hg, ← hp]⟩
    (by
      rintro k _ hk ⟨r, c, l, p, rfl⟩
      have hle : (k + 1) * s.bw ≤ s.ht * s.wd * s.bw := Nat.mul_le_mul_right _ hk
      obtain ⟨r', c', l', p', h⟩ := decPixel_ok (s := { s with
          ipos := 8 + k * s.bw
          grid := gridOf (s.ht * s.wd) (fun a => if a < k then decodedCell s.src.bytes s.bw a else g a)
          row := r, col := c, lane := l, pix := p }) _ hk ho rfl (Nat.le_trans (by
            show 8 + (k + 1) * s.bw ≤ 8 + s.ht * s.wd * s.bw
            omega) hl) rfl
      refine ⟨_, h, r', c', l', p', ?_⟩
      congr 1
      apply gridOf_congr
      intro a _
      rcases Nat.lt_trichotomy a k with h | h | h
      · simp [h, show a < k + 1 by omega, show a ≠ k by omega]
      · subst h; simp; rfl
      · simp [show ¬ a < k by omega, show ¬ a < k + 1 by omega, show a ≠ k by omega])
  refine ⟨r, c, l, p, h.trans ?_⟩
  congr 2
  apply gridOf_congr
  intro a ha
  simp [ha]

/-- The pixel walk of DECGRID on a source that ends before the last declared pixel: the first pixel whose bytes are not all
there raises TruncatedPayloadError, and only the grid, IPOS and the scan registers have changed. -/
theorem walk_decPixel_short (s : State) (g : Nat → Cell) (ho : s.src.isOpen = true) (hp : s.ipos = 8)
    (hn : 0 < s.ht * s.wd) (hl : s.src.bytes.length < 8 + s.ht * s.wd * s.bw)
    (hg : s.grid = gridOf (s.ht * s.wd) g) :
    ∃ m i r c l p, walk decPixel (rowMajor s.ht s.wd) s =
      .raise .truncatedPayloadError (State.forgetIpos { s with
        ipos := i, grid := m, row := r, col := c, lane := l, pix := p }) := by
  obtain ⟨n, hnlt, hnl, hmin⟩ : ∃ n, n < s.ht * s.wd ∧ s.src.bytes.length < 8 + (n + 1) * s.bw ∧
      ∀ k, k < n → 8 + (k + 1) * s.bw ≤ s.src.bytes.length := by
    have hex : ∃ n, s.src.bytes.length < 8 + (n + 1) * s.bw :=
      ⟨s.ht * s.wd - 1, by rwa [show s.ht * s.wd - 1 + 1 = s.ht * s.wd by omega]⟩
    refine ⟨Nat.find hex, ?_, Nat.find_spec hex, fun k hk => Nat.le_of_not_lt (Nat.find_min hex hk)⟩
    have : Nat.find hex ≤ s.ht * s.wd - 1 :=
      Nat.find_min' hex (by rwa [show s.ht * s.wd - 1 + 1 = s.ht * s.wd by omega])
    omega
  rw [walk_rowMajor]
  obtain ⟨s', h, m, i, r, c, l, p, rfl⟩ := forEach_range_raise
    (fun a s' => decPixel (s'.scanTo (a / s.wd, a % s.wd)))
    (fun k s' => ∃ f r c l p, s' = { s with
        ipos := 8 + k * s.bw
        grid := gridOf (s.ht * s.wd) f
        row := r, col := c, lane := l, pix := p })
    (fun s' => ∃ m i r c l p, s' = State.forgetIpos { s with
        ipos := i, grid := m, row := r, col := c, lane := l, pix := p })
    n (s.ht * s.wd) .truncatedPayloadError s hnlt ⟨g, s.row, s.col, s.lane, s.pix, by simp [← hg, ← hp]⟩
    (by
      rintro k _ hk ⟨f, r, c, l, p, rfl⟩
      obtain ⟨r', c', l', p', h⟩ := decPixel_ok (s := { s with
          ipos := 8 + k * s.bw, grid := gridOf (s.ht * s.wd) f, row := r, col := c, lane := l, pix := p })
          f (hk.trans hnlt) ho rfl (hmin k hk) rfl
      exact ⟨_, h, _, r', c', l', p', rfl⟩)
    (by
      rintro _ ⟨f, r, c, l, p, rfl⟩
      refine ⟨_, ?_, gridOf (s.ht * s.wd) f, 8 + n * s.bw, BitVec.ofNat 16 (n / s.wd), BitVec.ofNat 16 (n % s.wd), l, p, rfl⟩
      rw [decPixel, takeOr_short (by exact ho) (by
        show s.src.bytes.length < 8 + n * s.bw + s.bw
        rw [Nat.succ_mul] at hnl; omega)]
      rfl)
  exact ⟨m, i, r, c, l, p, h⟩

end Sys2Proof.Machine
end

