-- ==== Sys2Proof/Laws/EncodeWalk.lean ====
section
/-!
SUPPORT. Everything the pixel walk of ENCGRID can do: the payload is given byte by byte, to its end or up to the byte the sink
refuses (41_pixel_grid_codec.md R83, 20_memory.md R35).
-/

namespace Sys2Proof.Machine

theorem State.takesAll_append (s : State) (a b : List Byte) :
    s.takesAll (a ++ b) = (s.takesAll a && (s.gave a).takesAll b) := by
  cases hl : s.dst.limit with
  | none => simp [State.takesAll, State.accepted, State.gave, hl]
  | some l =>
    rw [Bool.eq_iff_iff]
    simp only [State.takesAll, State.accepted, State.gave, hl, List.length_take, List.length_append, beq_iff_eq,
      Bool.and_eq_true]
    omega

theorem State.accepted_append (s : State) (a b : List Byte) :
    s.accepted (a ++ b) = if s.takesAll a then a ++ (s.gave a).accepted b else s.accepted a := by
  cases hl : s.dst.limit with
  | none => simp [State.takesAll, State.accepted, State.gave, hl]
  | some l =>
    simp only [State.takesAll, State.accepted, State.gave, hl, List.length_take, beq_iff_eq]
    split
    · rw [List.take_append, List.take_of_length_le (by omega), Nat.sub_sub]
    · rw [List.take_append_of_le_length (by omega)]

theorem State.accepted_of_takesAll {s : State} {out : List Byte} (h : s.takesAll out = true) : s.accepted out = out := by
  cases hl : s.dst.limit with
  | none => simp [State.accepted, hl]
  | some l =>
    simp only [State.takesAll, State.accepted, hl, List.length_take, beq_iff_eq] at h ⊢
    exact List.take_of_length_le (by omega)

theorem emitLane_eq (k : Nat) (hk : k < 16) (s : State) :
    emitLane k s = give (lane s.pix k) { s with lane := BitVec.ofNat 4 k } := by
  simp [emitLane, Nat.mod_eq_of_lt hk]

/-- The lanes of one cell, given in order. -/
theorem forEach_emitLane (ks : List Nat) (hks : ∀ k ∈ ks, k < 16) (s : State) (ho : s.dst.isOpen = true) :
    ∃ l, forEach emitLane ks s =
      if s.takesAll (ks.map (lane s.pix)) then .ok () { s.gave (ks.map (lane s.pix)) with lane := l }
      else .raise .ioError { s.gave (s.accepted (ks.map (lane s.pix))) with lane := l } := by
  induction ks generalizing s with
  | nil => exact ⟨s.lane, by simp [State.takesAll, State.accepted]; cases s.dst.limit <;> simp⟩
  | cons k ks ih =>
    have hk := hks k (by simp)
    rw [forEach_cons, emitLane_eq k hk]
    have hb := forEach_give [lane s.pix k] { s with lane := BitVec.ofNat 4 k } ho
    simp only [forEach_cons, forEach_nil] at hb
    have hsplit : (k :: ks).map (lane s.pix) = [lane s.pix k] ++ ks.map (lane s.pix) := rfl
    rw [hsplit, State.takesAll_append, State.accepted_append]
    have hbind : ∀ x : Flow Unit, (x.bind fun _ s' => Flow.ok () s') = x := by intro x; cases x <;> rfl
    rw [hbind] at hb
    rw [hb]
    have ht : State.takesAll { s with lane := BitVec.ofNat 4 k } [lane s.pix k] = s.takesAll [lane s.pix k] := rfl
    have ha : State.accepted { s with lane := BitVec.ofNat 4 k } [lane s.pix k] = s.accepted [lane s.pix k] := rfl
    rw [ht, ha]
    by_cases htk : s.takesAll [lane s.pix k] = true
    · simp only [htk, if_true, Bool.true_and, Flow.bind_ok]
      obtain ⟨l, h⟩ := ih (fun k hk => hks k (by simp [hk])) (State.gave { s with lane := BitVec.ofNat 4 k } [lane s.pix k])
        (by exact ho)
      refine ⟨l, h.trans ?_⟩
      rw [← State.gave_gave, ← State.gave_gave]
      rfl
    · simp only [htk, Bool.false_and, if_false, Flow.bind_raise, Bool.false_eq_true]
      exact ⟨BitVec.ofNat 4 k, rfl⟩

/-- One pixel of ENCGRID. -/
theorem encPixel_eq (s : State) {i j : Nat} (hi : i < s.ht) (hj : j < s.wd) {c : Cell} (hc : s.cell i j = some c)
    (ho : s.dst.isOpen = true) :
    ∃ r c' l p, encPixel (s.scanTo (i, j)) =
      if s.takesAll (laneEmit c s.bw) then
        .ok () { s.gave (laneEmit c s.bw) with row := r, col := c', lane := l, pix := p }
      else .raise .ioError { s.gave (s.accepted (laneEmit c s.bw)) with row := r, col := c', lane := l, pix := p } := by
  have hin : State.inGrid (s.scanTo (i, j)) i j = true := by
    simp only [State.inGrid, Bool.and_eq_true, decide_eq_true_eq]; exact ⟨hi, hj⟩
  have hread : (s.scanTo (i, j)).grid.read ((s.scanTo (i, j)).cellAddr i j) = some c := hc
  obtain ⟨l, h⟩ := forEach_emitLane (List.range s.bw) (fun k hk => (List.mem_range.mp hk).trans s.bw_lt)
    { s.scanTo (i, j) with pix := c } ho
  refine ⟨BitVec.ofNat 16 i, BitVec.ofNat 16 j, l, c, ?_⟩
  rw [encPixel, State.scanTo_ri _ (hi.trans s.ht_lt), State.scanTo_cj _ (hj.trans s.wd_lt), gridRead, if_pos hin, hread]
  exact h

/-- A walk of ENCGRID over any positions of the grid. -/
theorem walk_encPixel (L : List (Nat × Nat)) (s : State) (f : Nat × Nat → Cell)
    (hL : ∀ p ∈ L, p.1 < s.ht ∧ p.2 < s.wd ∧ s.cell p.1 p.2 = some (f p)) (ho : s.dst.isOpen = true) :
    ∃ r c l p, walk encPixel L s =
      if s.takesAll (L.flatMap fun p => laneEmit (f p) s.bw) then
        .ok () { s.gave (L.flatMap fun p => laneEmit (f p) s.bw) with row := r, col := c, lane := l, pix := p }
      else
        .raise .ioError { s.gave (s.accepted (L.flatMap fun p => laneEmit (f p) s.bw)) with
          row := r, col := c, lane := l, pix := p } := by
  induction L generalizing s with
  | nil =>
    refine ⟨s.row, s.col, s.lane, s.pix, ?_⟩
    simp [walk, State.takesAll, State.accepted]
    cases s.dst.limit <;> simp
  | cons ij L ih =>
    obtain ⟨i, j⟩ := ij
    obtain ⟨hi, hj, hc⟩ := hL (i, j) (by simp)
    obtain ⟨r, c, l, p, hb⟩ := encPixel_eq s hi hj hc ho
    rw [walk, forEach_cons, hb, List.flatMap_cons, State.takesAll_append, State.accepted_append]
    by_cases htk : s.takesAll (laneEmit (f (i, j)) s.bw) = true
    · simp only [htk, if_true, Bool.true_and, Flow.bind_ok]
      obtain ⟨r', c', l', p', h⟩ := ih
        { s.gave (laneEmit (f (i, j)) s.bw) with row := r, col := c, lane := l, pix := p }
        (fun q hq => hL q (by simp [hq])) ho
      refine ⟨r', c', l', p', h.trans ?_⟩
      rw [← State.gave_gave, ← State.gave_gave]
      rfl
    · simp only [htk, Bool.false_and, if_false, Flow.bind_raise, Bool.false_eq_true]
      exact ⟨r, c, l, p, rfl⟩

end Sys2Proof.Machine
end

