-- ==== Sys2Proof/Laws/Frames.lean ====
section
/-!
SUPPORT. What each part of a stage can change, from every state: one frame per part, and how frames compose over `bind`,
loops and the ends of a stage.
-/

namespace Sys2Proof.Machine

variable {α β : Type}

/-- Every state the flow can end in, by a value or by an error, has `P`. -/
def Flow.All (P : State → Prop) : Flow α → Prop
  | .ok _ s    => P s
  | .raise _ s => P s
  | .stop _    => True

theorem Flow.All.mono {P Q : State → Prop} {x : Flow α} (hx : x.All P) (h : ∀ s, P s → Q s) : x.All Q := by
  cases x with
  | ok _ s => exact h s hx
  | raise _ s => exact h s hx
  | stop _ => trivial

theorem Flow.All.bind {P Q : State → Prop} {x : Flow α} {f : α → State → Flow β} (hx : x.All P) (hPQ : ∀ s, P s → Q s)
    (hf : ∀ a s, P s → (f a s).All Q) : (x.bind f).All Q := by
  cases x with
  | ok a s => exact hf a s hx
  | raise _ s => exact hPQ s hx
  | stop _ => trivial

theorem Flow.All.finally {P Q : State → Prop} {x : Flow α} {g : State → State} (hx : x.All P) (h : ∀ s, P s → Q (g s)) :
    (x.finally g).All Q := by
  cases x with
  | ok _ s => exact h s hx
  | raise _ s => exact h s hx
  | stop _ => trivial

theorem Flow.All.onRaise {P Q : State → Prop} {x : Flow α} {g : State → State} (hx : x.All P) (h : ∀ s, P s → Q (g s))
    (h' : ∀ s, P s → Q s) : (x.onRaise g).All Q := by
  cases x with
  | ok _ s => exact h' s hx
  | raise _ s => exact h s hx
  | stop _ => trivial

theorem need_all {P : State → Prop} {c : Bool} {f : Fault} {k : Flow Unit} (h : k.All P) : (need c f k).All P := by
  unfold need; split
  · exact h
  · trivial

theorem forEach_all {P : State → Prop} {body : α → State → Flow Unit} (h : ∀ x s, P s → (body x s).All P) (xs : List α)
    {s : State} (hs : P s) : (forEach body xs s).All P := by
  induction xs generalizing s with
  | nil => exact hs
  | cons x xs ih => exact (h x s hs).bind (fun _ h => h) fun _ s' hs' => ih hs'

theorem walk_all {P : State → Prop} {body : State → Flow Unit} (h : ∀ s, P s → (body s).All P)
    (hs : ∀ s ij, P s → P (s.scanTo ij)) (L : List (Nat × Nat)) {s : State} (h0 : P s) : (walk body L s).All P :=
  forEach_all (fun ij s' hs' => h _ (hs s' ij hs')) L h0

/-- The two ways a stage ends. -/
theorem stageEnd_all {P : State → Prop} {st : Stage} {x : Flow Unit} {t : State} (hx : x.All P)
    (h : stageEnd st x = .next t) :
    ∃ u, P u ∧ (t = { u with phase := nextStage u.fh u.fv st } ∨ ∃ e, t = raiseError e u) := by
  cases x with
  | ok _ u => injection h with h; exact ⟨u, hx, .inl h.symm⟩
  | raise e u => injection h with h; exact ⟨u, hx, .inr ⟨e, h.symm⟩⟩
  | stop _ => cases h

theorem stageGoesOn_all {P : State → Prop} {x : Flow Unit} {t : State} (hx : x.All P) (h : stageGoesOn x = .next t) :
    ∃ u, P u ∧ (t = u ∨ ∃ e, t = raiseError e u) := by
  cases x with
  | ok _ u => injection h with h; exact ⟨u, hx, .inl h.symm⟩
  | raise e u => injection h with h; exact ⟨u, hx, .inr ⟨e, h.symm⟩⟩
  | stop _ => cases h

/-! ### The frames -/

/-- What taking bytes changes. -/
def TakeFrame (s t : State) : Prop := ∃ i d, t = { s with ipos := i, draws := d }

/-- What DECHDR and its parts change. -/
def HeaderFrame (s t : State) : Prop :=
  ∃ h w v i d, t = { s with hdr := h, bytew := w, hv := v, ipos := i, draws := d }

/-- What DECGRID changes. -/
def GridFrame (s t : State) : Prop :=
  ∃ g v i p r c l d, t = { s with grid := g, gv := v, ipos := i, pix := p, row := r, col := c, lane := l, draws := d }

/-- What the flips change. -/
def FlipFrame (s t : State) : Prop :=
  ∃ g p r c l d, t = { s with grid := g, pix := p, row := r, col := c, lane := l, draws := d }

/-- What giving bytes, and ENCGRID, change. -/
def GiveFrame (s t : State) : Prop :=
  ∃ out p r c l d, t = { s.gave out with pix := p, row := r, col := c, lane := l, draws := d }

theorem inTake_frame (n : Nat) (s : State) : (inTake n s).All (TakeFrame s) := by
  unfold inTake
  split
  · split
    · exact ⟨_, _, rfl⟩
    · exact ⟨_, _, rfl⟩
  · trivial

theorem takeOr_frame (e : ErrCode) (n : Nat) (s : State) : (takeOr e n s).All (TakeFrame s) :=
  (inTake_frame n s).bind (fun _ h => h) fun a s' hs' => by cases a <;> exact hs'

theorem takeField_frame (s : State) : (takeField s).All (TakeFrame s) :=
  (takeOr_frame _ _ s).bind (fun _ h => h) fun _ _ h => h

theorem TakeFrame.headerFrame {s t u : State} (h : HeaderFrame s t) (h' : TakeFrame t u) : HeaderFrame s u := by
  obtain ⟨h, w, v, i, d, rfl⟩ := h
  obtain ⟨i', d', rfl⟩ := h'
  exact ⟨_, _, _, _, _, rfl⟩

theorem HeaderFrame.refl (s : State) : HeaderFrame s s := ⟨_, _, _, _, _, rfl⟩

theorem acceptMarker_frame (m : Field) {s s0 : State} (h : HeaderFrame s0 s) : (acceptMarker m s).All (HeaderFrame s0) := by
  have h1 : HeaderFrame s0 { s with hdr := { s.hdr with marker := m } } := by
    obtain ⟨h, w, v, i, d, rfl⟩ := h
    exact ⟨_, _, _, _, _, rfl⟩
  refine (takeField_frame _).bind (fun _ h => h.headerFrame h1) fun w s1 hs1 => ?_
  have h2 := hs1.headerFrame h1
  refine (takeField_frame s1).bind (fun _ h => h.headerFrame h2) fun w' s2 hs2 => ?_
  have h3 := hs2.headerFrame h2
  refine (takeField_frame s2).bind (fun _ h => h.headerFrame h3) fun f s3 hs3 => ?_
  have h4 := hs3.headerFrame h3
  obtain ⟨h', w'', v', i', d', rfl⟩ := h4
  dsimp only
  split
  · exact ⟨_, _, _, _, _, rfl⟩
  · exact ⟨_, _, _, _, _, rfl⟩

theorem acceptFormat_frame (f : Field) {s s0 : State} (h : HeaderFrame s0 s) : (acceptFormat f s).All (HeaderFrame s0) := by
  obtain ⟨h, w, v, i, d, rfl⟩ := h
  unfold acceptFormat
  split
  · exact ⟨_, _, _, _, _, rfl⟩
  · exact ⟨_, _, _, _, _, rfl⟩

theorem HeaderFrame.forgetHeader {s t : State} (h : HeaderFrame s t) : HeaderFrame s t.forgetHeader := by
  obtain ⟨h, w, v, i, d, rfl⟩ := h
  exact ⟨_, _, _, _, _, rfl⟩

theorem dechdrBody_frame (s : State) : (dechdrBody s).All (HeaderFrame s) := by
  refine need_all ((takeField_frame _).bind (Q := HeaderFrame s)
    (fun t h => h.headerFrame ⟨_, _, _, _, _, rfl⟩) fun m s1 hs1 => ?_)
  have h1 : HeaderFrame s s1 := hs1.headerFrame ⟨_, _, _, _, _, rfl⟩
  split
  · exact (acceptMarker_frame m h1).bind (fun _ h => h) fun _ s2 h2 => acceptFormat_frame _ h2
  · exact h1

/-- Every end of DECHDR, from every state. -/
theorem execDechdr_frame {s t : State} (h : execDechdr s = .next t) :
    ∃ u, HeaderFrame s u ∧ (t = { u with phase := .decgrid } ∨ ∃ e, t = raiseError e u) :=
  stageEnd_all ((dechdrBody_frame s).onRaise (fun _ h => h.forgetHeader) fun _ h => h) h

theorem markerRow_frame {m : Field} {s t : State} (h : markerRow m s = .next t) :
    ∃ u, HeaderFrame s u ∧ (t = u ∨ ∃ e, t = raiseError e u) :=
  stageGoesOn_all ((acceptMarker_frame m (HeaderFrame.refl s)).onRaise (fun _ h => h.forgetHeader) fun _ h => h) h

theorem formatRow_frame {f : Field} {s t : State} (h : formatRow f s = .next t) :
    ∃ u, HeaderFrame s u ∧ (t = { u with phase := .decgrid } ∨ ∃ e, t = raiseError e u) :=
  stageEnd_all ((acceptFormat_frame f (HeaderFrame.refl s)).onRaise (fun _ h => h.forgetHeader) fun _ h => h) h

theorem GridFrame.refl (s : State) : GridFrame s s := ⟨_, _, _, _, _, _, _, _, rfl⟩

theorem gridWrite_all {P : State → Prop} (i j : Nat) (v : Cell) (s : State)
    (h : P { s with grid := s.grid.write (s.cellAddr i j) v }) : (gridWrite i j v s).All P := by
  unfold gridWrite; split
  · exact h
  · trivial

theorem gridRead_all {P : State → Prop} (i j : Nat) (s : State) (h : P s) : (gridRead i j s).All P := by
  unfold gridRead
  split
  · split
    · exact h
    · trivial
  · trivial

theorem GridFrame.scanTo {s t : State} (h : GridFrame s t) (ij : Nat × Nat) : GridFrame s (t.scanTo ij) := by
  obtain ⟨g, v, i, p, r, c, l, d, rfl⟩ := h
  exact ⟨_, _, _, _, _, _, _, _, rfl⟩

theorem decPixel_frame {s t : State} (h : GridFrame s t) : (decPixel t).All (GridFrame s) := by
  obtain ⟨g, v, i, p, r, c, l, d, rfl⟩ := h
  refine (takeOr_frame _ _ _).bind ?_ ?_
  · rintro _ ⟨i', d', rfl⟩
    exact ⟨_, _, _, _, _, _, _, _, rfl⟩
  · rintro bs _ ⟨i', d', rfl⟩
    exact gridWrite_all _ _ _ _ ⟨_, _, _, _, _, _, _, _, rfl⟩

theorem clearCell_frame {s t : State} (h : GridFrame s t) : (clearCell t).All (GridFrame s) := by
  obtain ⟨g, v, i, p, r, c, l, d, rfl⟩ := h
  exact gridWrite_all _ _ _ _ ⟨_, _, _, _, _, _, _, _, rfl⟩

theorem decgridBody_frame (s : State) : (decgridBody s).All (GridFrame s) := by
  refine need_all (need_all (need_all ?_))
  split
  · exact GridFrame.refl s
  · refine (walk_all (fun _ h => clearCell_frame h) (fun _ ij h => h.scanTo ij) _ ⟨_, _, _, _, _, _, _, _, rfl⟩).bind
      (fun _ h => h) fun _ s1 h1 => ?_
    refine (walk_all (fun _ h => decPixel_frame h) (fun _ ij h => h.scanTo ij) _ h1).bind (fun _ h => h) fun _ s2 h2 => ?_
    split
    · obtain ⟨g, v, i, p, r, c, l, d, rfl⟩ := h2
      exact ⟨_, _, _, _, _, _, _, _, rfl⟩
    · exact h2

/-- Every end of DECGRID, from every state. -/
theorem execDecgrid_frame {s t : State} (h : execDecgrid s = .next t) :
    ∃ u, GridFrame s u ∧ (t = { u with phase := nextStage u.fh u.fv .decgrid } ∨ ∃ e, t = raiseError e u) := by
  refine stageEnd_all (((decgridBody_frame s).onRaise (Q := GridFrame s) ?_ fun _ h => h).finally ?_) h
  · rintro _ ⟨g, v, i, p, r, c, l, d, rfl⟩
    exact ⟨_, _, _, _, _, _, _, _, rfl⟩
  · rintro _ ⟨g, v, i, p, r, c, l, d, rfl⟩
    exact ⟨_, _, _, _, _, _, _, _, rfl⟩

theorem FlipFrame.refl (s : State) : FlipFrame s s := ⟨_, _, _, _, _, _, rfl⟩

theorem FlipFrame.write {s t : State} (h : FlipFrame s t) (g : GridMem) : FlipFrame s { t with grid := g } := by
  obtain ⟨g, p, r, c, l, d, rfl⟩ := h
  exact ⟨_, _, _, _, _, _, rfl⟩

theorem FlipFrame.scanTo {s t : State} (h : FlipFrame s t) (ij : Nat × Nat) : FlipFrame s (t.scanTo ij) := by
  obtain ⟨g, p, r, c, l, d, rfl⟩ := h
  exact ⟨_, _, _, _, _, _, rfl⟩

theorem FlipFrame.forgetScan {s t : State} (h : FlipFrame s t) : FlipFrame s t.forgetScan := by
  obtain ⟨g, p, r, c, l, d, rfl⟩ := h
  exact ⟨_, _, _, _, _, _, rfl⟩

theorem exchange_all {P : State → Prop} {i j i' j' : Nat} {s : State} (hP : ∀ t g, P t → P { t with grid := g }) (h : P s) :
    (exchange i j i' j' s).All P :=
  (gridRead_all _ _ _ h).bind (fun _ h => h) fun _ _ h1 =>
    (gridRead_all _ _ _ h1).bind (fun _ h => h) fun _ _ h2 =>
      (gridWrite_all _ _ _ _ (hP _ _ h2)).bind (fun _ h => h) fun _ _ h3 => gridWrite_all _ _ _ _ (hP _ _ h3)

/-- Every end of FLIPH, from every state. -/
theorem execFliph_frame {s t : State} (h : execFliph s = .next t) :
    ∃ u, FlipFrame s u ∧ (t = { u with phase := nextStage u.fh u.fv .fliph } ∨ ∃ e, t = raiseError e u) :=
  stageEnd_all ((need_all (walk_all (fun _ h => exchange_all (fun _ g h => h.write g) h) (fun _ ij h => h.scanTo ij) _
    (FlipFrame.refl s))).finally fun _ h => h.forgetScan) h

/-- Every end of FLIPV, from every state. -/
theorem execFlipv_frame {s t : State} (h : execFlipv s = .next t) :
    ∃ u, FlipFrame s u ∧ (t = { u with phase := nextStage u.fh u.fv .flipv } ∨ ∃ e, t = raiseError e u) :=
  stageEnd_all ((need_all (walk_all (fun _ h => exchange_all (fun _ g h => h.write g) h) (fun _ ij h => h.scanTo ij) _
    (FlipFrame.refl s))).finally fun _ h => h.forgetScan) h

theorem GiveFrame.refl (s : State) : GiveFrame s s := ⟨[], s.pix, s.row, s.col, s.lane, s.draws, by simp [State.gave]⟩

theorem GiveFrame.give {s t : State} (h : GiveFrame s t) (b : Byte) : (give b t).All (GiveFrame s) := by
  unfold Machine.give outPut
  split
  · split
    · obtain ⟨out, p, r, c, l, d, rfl⟩ := h
      exact ⟨out ++ [b], p, r, c, l, d, by simp [State.gave, Nat.add_assoc]⟩
    · exact h
  · trivial

theorem GiveFrame.scan {s t : State} (h : GiveFrame s t) (p : Cell) (r c : BitVec 16) (l : BitVec 4) (d : Nat) :
    GiveFrame s { t with pix := p, row := r, col := c, lane := l, draws := d } := by
  obtain ⟨out, p, r, c, l, d, rfl⟩ := h
  exact ⟨out, _, _, _, _, _, rfl⟩

/-- Every end of ENCHDR, from every state. -/
theorem execEnchdr_frame {s t : State} (h : execEnchdr s = .next t) :
    ∃ u, GiveFrame s u ∧ (t = { u with phase := .encgrid } ∨ ∃ e, t = raiseError e u) :=
  stageEnd_all (need_all (need_all (forEach_all (fun b _ h => h.give b) _ (GiveFrame.refl s)))) h

/-- Every end of ENCGRID, from every state. -/
theorem execEncgrid_frame {s t : State} (h : execEncgrid s = .next t) :
    ∃ u, GiveFrame s u ∧ (t = { u with phase := .close } ∨ ∃ e, t = raiseError e u) := by
  refine stageEnd_all ((need_all (need_all (need_all (walk_all (P := GiveFrame s) ?_ ?_ _ (GiveFrame.refl s))))).finally
    fun t h => h.scan _ _ _ _ _) h
  · intro t ht
    refine (gridRead_all _ _ _ ht).bind (fun _ h => h) fun c s1 h1 => ?_
    exact forEach_all (fun k t' ht' => GiveFrame.give (ht'.scan _ _ _ _ _) _) _ (h1.scan _ _ _ _ _)
  · intro t ij ht
    exact ht.scan _ _ _ _ _

/-- Every end of SRCOPEN, from every state. -/
theorem execSrcopen_frame {s t : State} (h : execSrcopen s = .next t) :
    t = { s with src := { s.src with isOpen := true }, ipos := 0, phase := .dechdr } ∨
    t = { s with err := .ioError, phase := .close } := by
  unfold execSrcopen openOr srcOpen at h
  split at h <;> rename_i heq <;> split at heq <;> cases heq
  · injection h with h; exact .inl h.symm
  · injection h with h; exact .inr h.symm

/-- Every end of DSTOPEN, from every state. -/
theorem execDstopen_frame {s t : State} (h : execDstopen s = .next t) :
    t = { s with dst := { s.dst with isOpen := true, bytes := [] }, opos := 0, phase := .enchdr } ∨
    t = { s with err := .ioError, phase := .close } := by
  unfold execDstopen openOr dstOpen at h
  split at h <;> rename_i heq <;> split at heq <;> cases heq
  · injection h with h; exact .inl h.symm
  · injection h with h; exact .inr h.symm

end Sys2Proof.Machine
end

