-- ==== Sys2Proof/Laws/ExecEnds.lean ====
section
/-!
SUPPORT. Everything an instruction can do, from every state, said once: `Ends s i t` lists the next states of `exec i s`, each as
an update of `s` (60_exceptions.md R121, 43_orchestration.md R103, R104).
-/

namespace Sys2Proof.Machine

/-- DECHDR whole. -/
def HeaderWhole (i : Instr) : Prop :=
  i = .dechdr ∨ i = .fmt0 ∨ i = .fmt2 ∨ i = .fmt3 ∨ i = .fmt12 ∨ i = .fmt14 ∨ i = .fmt15 ∨ i = .fmt16 ∨ i = .fmt18 ∨ i = .fmt19

/-- The next states of `exec i s`. -/
inductive Ends (s : State) : Instr → State → Prop
  | ignored (a b : Bool) (h : s.busy = true) : Ends s (.convert a b) s
  | started (a b : Bool) (h : s.busy = false) : Ends s (.convert a b) (s.start a b)
  | waits : Ends s .idle s
  | srcOpened : Ends s .srcopen { s with src := { s.src with isOpen := true }, ipos := 0, phase := .dechdr }
  | srcFailed : Ends s .srcopen { s with err := .ioError, phase := .close }
  | header (i : Instr) (hi : HeaderWhole i) (h : Header) (w : BitVec 4) (v : Bool) (p d : Nat) :
      Ends s i { s with hdr := h, bytew := w, hv := v, ipos := p, draws := d, phase := .decgrid }
  | headerFailed (i : Instr) (hi : HeaderWhole i ∨ i = .markerLittle ∨ i = .markerBig) (h : Header) (w : BitVec 4) (v : Bool)
      (p d : Nat) (e : ErrCode) :
      Ends s i { s with hdr := h, bytew := w, hv := v, ipos := p, draws := d, err := e, phase := .close }
  | marker (i : Instr) (hi : i = .markerLittle ∨ i = .markerBig) (h : Header) (w : BitVec 4) (v : Bool) (p d : Nat) :
      Ends s i { s with hdr := h, bytew := w, hv := v, ipos := p, draws := d }
  | grid (g : GridMem) (v : Bool) (i : Nat) (p : Cell) (r c : BitVec 16) (l : BitVec 4) (d : Nat) :
      Ends s .decgrid { s with
        grid := g, gv := v, ipos := i, pix := p, row := r, col := c, lane := l, draws := d
        phase := nextStage s.fh s.fv .decgrid }
  | gridFailed (g : GridMem) (v : Bool) (i : Nat) (p : Cell) (r c : BitVec 16) (l : BitVec 4) (d : Nat) (e : ErrCode) :
      Ends s .decgrid { s with
        grid := g, gv := v, ipos := i, pix := p, row := r, col := c, lane := l, draws := d, err := e, phase := .close }
  | flip (i : Instr) (st : Stage) (hi : (i = .fliph ∧ st = .fliph) ∨ (i = .flipv ∧ st = .flipv)) (g : GridMem) (p : Cell)
      (r c : BitVec 16) (l : BitVec 4) (d : Nat) :
      Ends s i { s with
        grid := g, pix := p, row := r, col := c, lane := l, draws := d, phase := nextStage s.fh s.fv st }
  | flipFailed (i : Instr) (hi : i = .fliph ∨ i = .flipv) (g : GridMem) (p : Cell) (r c : BitVec 16) (l : BitVec 4) (d : Nat)
      (e : ErrCode) :
      Ends s i { s with grid := g, pix := p, row := r, col := c, lane := l, draws := d, err := e, phase := .close }
  | dstOpened : Ends s .dstopen { s with
      dst := { s.dst with isOpen := true, bytes := [] }, opos := 0, phase := .enchdr }
  | dstFailed : Ends s .dstopen { s with err := .ioError, phase := .close }
  | gave (i : Instr) (st : Stage) (hi : (i = .enchdr ∧ st = .encgrid) ∨ (i = .encgrid ∧ st = .close)) (out : List Byte)
      (p : Cell) (r c : BitVec 16) (l : BitVec 4) (d : Nat) :
      Ends s i { s.gave out with pix := p, row := r, col := c, lane := l, draws := d, phase := st }
  | gaveFailed (i : Instr) (hi : i = .enchdr ∨ i = .encgrid) (out : List Byte) (p : Cell) (r c : BitVec 16) (l : BitVec 4)
      (d : Nat) (e : ErrCode) :
      Ends s i { s.gave out with pix := p, row := r, col := c, lane := l, draws := d, err := e, phase := .close }
  | closed : Ends s .close s.closeStreams.forgetGrid.closeFlags

/-- What an instruction can do: no step ends outside the list. -/
theorem exec_ends {i : Instr} {s t : State} (h : exec i s = .next t) : Ends s i t := by
  have hh : ∀ i, HeaderWhole i →
      (∃ u, HeaderFrame s u ∧ (t = { u with phase := .decgrid } ∨ ∃ e, t = raiseError e u)) → Ends s i t := by
    rintro i hi ⟨u, ⟨_, _, _, _, _, rfl⟩, rfl | ⟨e, rfl⟩⟩
    · exact .header i hi _ _ _ _ _
    · exact .headerFailed i (.inl hi) _ _ _ _ _ _
  have hm : ∀ i, (i = .markerLittle ∨ i = .markerBig) →
      (∃ u, HeaderFrame s u ∧ (t = u ∨ ∃ e, t = raiseError e u)) → Ends s i t := by
    rintro i hi ⟨u, ⟨_, _, _, _, _, rfl⟩, rfl | ⟨e, rfl⟩⟩
    · exact .marker i hi _ _ _ _ _
    · exact .headerFailed i (.inr hi) _ _ _ _ _ _
  cases i with
  | convert a b =>
    simp only [exec, execConvert] at h
    split at h
    · next hb => injection h with h; subst h; exact .ignored a b hb
    · next hb => injection h with h; subst h; exact .started a b (Bool.eq_false_of_not_eq_true hb)
  | idle => injection h with h; subst h; exact .waits
  | srcopen =>
    rcases execSrcopen_frame h with rfl | rfl
    · exact .srcOpened
    · exact .srcFailed
  | dechdr => exact hh _ (by simp [HeaderWhole]) (execDechdr_frame h)
  | decgrid =>
    obtain ⟨u, ⟨_, _, _, _, _, _, _, _, rfl⟩, rfl | ⟨e, rfl⟩⟩ := execDecgrid_frame h
    · exact .grid _ _ _ _ _ _ _ _
    · exact .gridFailed _ _ _ _ _ _ _ _ _
  | fliph =>
    obtain ⟨u, ⟨_, _, _, _, _, _, rfl⟩, rfl | ⟨e, rfl⟩⟩ := execFliph_frame h
    · exact .flip _ _ (.inl ⟨rfl, rfl⟩) _ _ _ _ _ _
    · exact .flipFailed _ (.inl rfl) _ _ _ _ _ _ _
  | flipv =>
    obtain ⟨u, ⟨_, _, _, _, _, _, rfl⟩, rfl | ⟨e, rfl⟩⟩ := execFlipv_frame h
    · exact .flip _ _ (.inr ⟨rfl, rfl⟩) _ _ _ _ _ _
    · exact .flipFailed _ (.inr rfl) _ _ _ _ _ _ _
  | dstopen =>
    rcases execDstopen_frame h with rfl | rfl
    · exact .dstOpened
    · exact .dstFailed
  | enchdr =>
    obtain ⟨u, ⟨_, _, _, _, _, _, rfl⟩, rfl | ⟨e, rfl⟩⟩ := execEnchdr_frame h
    · exact .gave _ _ (.inl ⟨rfl, rfl⟩) _ _ _ _ _ _
    · exact .gaveFailed _ (.inl rfl) _ _ _ _ _ _ _
  | encgrid =>
    obtain ⟨u, ⟨_, _, _, _, _, _, rfl⟩, rfl | ⟨e, rfl⟩⟩ := execEncgrid_frame h
    · exact .gave _ _ (.inr ⟨rfl, rfl⟩) _ _ _ _ _ _
    · exact .gaveFailed _ (.inr rfl) _ _ _ _ _ _ _
  | close => injection h with h; subst h; exact .closed
  | markerLittle => exact hm _ (.inl rfl) (markerRow_frame h)
  | markerBig => exact hm _ (.inr rfl) (markerRow_frame h)
  | fmt0 => exact hh _ (by simp [HeaderWhole]) (formatRow_frame (f := 0) h)
  | fmt2 => exact hh _ (by simp [HeaderWhole]) (formatRow_frame (f := 2) h)
  | fmt3 => exact hh _ (by simp [HeaderWhole]) (formatRow_frame (f := 3) h)
  | fmt12 => exact hh _ (by simp [HeaderWhole]) (formatRow_frame (f := 12) h)
  | fmt14 => exact hh _ (by simp [HeaderWhole]) (formatRow_frame (f := 14) h)
  | fmt15 => exact hh _ (by simp [HeaderWhole]) (formatRow_frame (f := 15) h)
  | fmt16 => exact hh _ (by simp [HeaderWhole]) (formatRow_frame (f := 16) h)
  | fmt18 => exact hh _ (by simp [HeaderWhole]) (formatRow_frame (f := 18) h)
  | fmt19 => exact hh _ (by simp [HeaderWhole]) (formatRow_frame (f := 19) h)

end Sys2Proof.Machine
end

