-- ==== Sys2Proof/Laws/FlipWalk.lean ====
section
/-!
SUPPORT. Everything the exchanges of FLIPH and FLIPV do to the grid (42_transform_engine.md R90, R91): the exchanges of a list of
disjoint pairs mirror exactly those pairs.
-/

namespace Sys2Proof.Machine

/-- The grid of `h` rows and `w` columns whose cell `(i, j)` is `G (i, j)`. -/
def gridFrom (h w : Nat) (G : Nat × Nat → Cell) : GridMem := gridOf (h * w) fun a => G (a / w, a % w)

theorem gridFrom_read {h w : Nat} (G : Nat × Nat → Cell) {i j : Nat} (hi : i < h) (hj : j < w) :
    (gridFrom h w G).read (i * w + j) = some (G (i, j)) := by
  rw [gridFrom, gridOf_read, if_pos (flat_lt hi hj), flat_div hj, flat_mod hj]

theorem gridFrom_congr {h w : Nat} {G G' : Nat × Nat → Cell} (hG : ∀ i j, i < h → j < w → G (i, j) = G' (i, j)) :
    gridFrom h w G = gridFrom h w G' :=
  gridOf_congr fun _ ha => hG _ _ (div_lt_of_lt_mul ha) (mod_lt_of_lt_mul ha)

theorem gridFrom_write {h w : Nat} (G : Nat × Nat → Cell) {p : Nat × Nat} (hi : p.1 < h) (hj : p.2 < w) (v : Cell) :
    (gridFrom h w G).write (p.1 * w + p.2) v = gridFrom h w (fun q => if q = p then v else G q) := by
  rw [gridFrom, gridOf_write _ _ (flat_lt hi hj)]
  apply gridOf_congr
  intro a ha
  have : a = p.1 * w + p.2 ↔ (a / w, a % w) = p := by
    constructor
    · rintro rfl; rw [flat_div hj, flat_mod hj]
    · rintro rfl; exact (Nat.div_add_mod' a w).symm
  by_cases hq : (a / w, a % w) = p
  · rw [if_pos (this.mpr hq)]; exact (if_pos hq).symm
  · rw [if_neg fun e => hq (this.mp e)]; exact (if_neg hq).symm

/-- A grid with exactly the header's dimensions is given by its cells. -/
theorem State.grid_eq_gridFrom {s : State} (h : s.gridExact) :
    s.grid = gridFrom s.ht s.wd fun p => (s.cell p.1 p.2).getD 0 := by
  conv_lhs => rw [gridOf_of_fst h]
  rw [gridFrom]
  apply gridOf_congr
  intro a _
  rw [State.cell, State.cellAddr, Nat.div_add_mod']

/-- Every cell of an exact grid has a value. -/
theorem State.cell_of_gridExact {s : State} (h : s.gridExact) {i j : Nat} (hi : i < s.ht) (hj : j < s.wd) :
    s.cell i j = some ((s.cell i j).getD 0) := by
  have e := State.grid_eq_gridFrom h
  unfold State.cell State.cellAddr
  conv_lhs => rw [e]
  rw [gridFrom_read _ hi hj]
  rfl

theorem State.cell_of_gridFrom {s : State} {h w : Nat} {G : Nat × Nat → Cell} (hg : s.grid = gridFrom h w G) (hw : s.wd = w)
    {i j : Nat} (hi : i < h) (hj : j < w) : s.cell i j = some (G (i, j)) := by
  rw [State.cell, State.cellAddr, hg, hw, gridFrom_read _ hi hj]

theorem gridExact_of_gridFrom {s : State} {h w : Nat} {G : Nat × Nat → Cell} (hg : s.grid = gridFrom h w G) (hh : s.ht = h)
    (hw : s.wd = w) : s.gridExact := by
  rw [State.gridExact, hg, hh, hw]; exact gridOf_fst _ _

theorem gridFrom_values (h w : Nat) (G : Nat × Nat → Cell) : (gridFrom h w G).map Prod.snd = (rowMajor h w).map G := by
  rw [rowMajor, pairs_eq_map, gridFrom, gridOf]
  simp [List.map_map, Function.comp_def]

/-- One exchange, as it acts on the cells. -/
def swapAt (p q : Nat × Nat) (G : Nat × Nat → Cell) : Nat × Nat → Cell :=
  fun x => if x = q then G p else if x = p then G q else G x

theorem exchange_ok {s : State} {G : Nat × Nat → Cell} {p q : Nat × Nat} (hg : s.grid = gridFrom s.ht s.wd G)
    (hp : p.1 < s.ht ∧ p.2 < s.wd) (hq : q.1 < s.ht ∧ q.2 < s.wd) :
    exchange p.1 p.2 q.1 q.2 s = .ok () { s with grid := gridFrom s.ht s.wd (swapAt p q G) } := by
  have hpin : s.inGrid p.1 p.2 = true := by simp [State.inGrid, hp]
  have hqin : s.inGrid q.1 q.2 = true := by simp [State.inGrid, hq]
  have r1 : gridRead p.1 p.2 s = .ok (G p) s := by
    rw [gridRead, if_pos hpin, hg, State.cellAddr, gridFrom_read _ hp.1 hp.2]
  have r2 : gridRead q.1 q.2 s = .ok (G q) s := by
    rw [gridRead, if_pos hqin, hg, State.cellAddr, gridFrom_read _ hq.1 hq.2]
  have w1 : gridWrite p.1 p.2 (G q) s =
      .ok () { s with grid := gridFrom s.ht s.wd fun x => if x = p then G q else G x } := by
    rw [gridWrite, if_pos hpin, hg, State.cellAddr, gridFrom_write _ hp.1 hp.2]
  have w2 : gridWrite q.1 q.2 (G p) { s with grid := gridFrom s.ht s.wd fun x => if x = p then G q else G x } =
      .ok () { s with grid := gridFrom s.ht s.wd (swapAt p q G) } := by
    have hqin' : State.inGrid { s with grid := gridFrom s.ht s.wd fun x => if x = p then G q else G x } q.1 q.2 = true :=
      hqin
    rw [gridWrite, if_pos hqin']
    show Flow.ok () { s with
      grid := (gridFrom s.ht s.wd fun x => if x = p then G q else G x).write (q.1 * s.wd + q.2) (G p) } = _
    rw [gridFrom_write _ hq.1 hq.2]
    rfl
  rw [exchange, r1, Flow.bind_ok, r2, Flow.bind_ok, w1, Flow.bind_ok, w2]

/-- The exchanges of a list of pairs `(p, σ p)`, as they act on the cells. -/
def swapAll (σ : Nat × Nat → Nat × Nat) : List (Nat × Nat) → (Nat × Nat → Cell) → (Nat × Nat → Cell)
  | [],     G => G
  | p :: L, G => swapAll σ L (swapAt p (σ p) G)

/-- The pair `(x, σ x)` is among the exchanged ones. -/
def Touched (σ : Nat × Nat → Nat × Nat) (L : List (Nat × Nat)) (x : Nat × Nat) : Prop := ∃ p ∈ L, x = p ∨ x = σ p

/-- Exchanging disjoint pairs moves each cell of a pair to its partner's place and no other (42_transform_engine.md R90: each
pair is exchanged exactly once). -/
theorem swapAll_eq (σ : Nat × Nat → Nat × Nat) (L : List (Nat × Nat)) (hinv : ∀ p ∈ L, σ (σ p) = p)
    (hdis : L.Pairwise fun p q => p ≠ q ∧ p ≠ σ q ∧ σ p ≠ q ∧ σ p ≠ σ q) (G : Nat × Nat → Cell) (x : Nat × Nat) :
    (Touched σ L x → swapAll σ L G x = G (σ x)) ∧ (¬ Touched σ L x → swapAll σ L G x = G x) := by
  induction L generalizing G with
  | nil => exact ⟨fun ⟨p, hp, _⟩ => by simp at hp, fun _ => rfl⟩
  | cons p L ih =>
    obtain ⟨hp, hL⟩ := List.pairwise_cons.mp hdis
    obtain ⟨ih1, ih2⟩ := ih (fun q hq => hinv q (by simp [hq])) hL (swapAt p (σ p) G)
    have hpp : σ (σ p) = p := hinv p (by simp)
    simp only [swapAll]
    by_cases hx : x = p ∨ x = σ p
    · have hn : ¬ Touched σ L x := by
        rintro ⟨q, hq, hxq⟩
        have := hp q hq
        rcases hx with rfl | rfl <;> rcases hxq with h | h <;> simp_all
      refine ⟨fun _ => ?_, fun h => absurd ⟨p, by simp, hx⟩ h⟩
      rw [ih2 hn, swapAt]
      rcases hx with rfl | rfl
      · split
        · next h => rw [← h]
        · simp
      · simp [hpp]
    · constructor
      · rintro ⟨q, hq, hxq⟩
        rcases List.mem_cons.mp hq with rfl | hq
        · exact absurd hxq hx
        · rw [ih1 ⟨q, hq, hxq⟩, swapAt]
          have := hp q hq
          have hqq := hinv q (by simp [hq])
          have h1 : σ x ≠ p ∧ σ x ≠ σ p := by
            rcases hxq with rfl | rfl
            · exact ⟨fun e => this.2.1 e.symm, fun e => this.2.2.2 e.symm⟩
            · rw [hqq]; exact ⟨fun e => this.1 e.symm, fun e => this.2.2.1 e.symm⟩
          rw [if_neg h1.2, if_neg h1.1]
      · intro h
        have hn : ¬ Touched σ L x := fun ⟨q, hq, hxq⟩ => h ⟨q, by simp [hq], hxq⟩
        rw [ih2 hn, swapAt, if_neg fun e => hx (.inr e), if_neg fun e => hx (.inl e)]

/-- A walk of exchanges. -/
theorem walk_exchange (body : State → Flow Unit) (σ : Nat × Nat → Nat × Nat) (s : State)
    (hbody : ∀ (s' : State) (p : Nat × Nat), s'.hdr = s.hdr → p.1 < s.ht → p.2 < s.wd →
      body (s'.scanTo p) = exchange p.1 p.2 (σ p).1 (σ p).2 (s'.scanTo p))
    (L : List (Nat × Nat)) (hL : ∀ p ∈ L, (p.1 < s.ht ∧ p.2 < s.wd) ∧ ((σ p).1 < s.ht ∧ (σ p).2 < s.wd))
    (G : Nat × Nat → Cell) (r0 c0 : BitVec 16) :
    ∃ r c, walk body L { s with grid := gridFrom s.ht s.wd G, row := r0, col := c0 } =
      .ok () { s with grid := gridFrom s.ht s.wd (swapAll σ L G), row := r, col := c } := by
  induction L generalizing G r0 c0 with
  | nil => exact ⟨r0, c0, rfl⟩
  | cons p L ih =>
    obtain ⟨hp, hq⟩ := hL p (by simp)
    obtain ⟨r, c, h⟩ := ih (fun q hq => hL q (by simp [hq])) (swapAt p (σ p) G) (BitVec.ofNat 16 p.1) (BitVec.ofNat 16 p.2)
    refine ⟨r, c, ?_⟩
    rw [walk, forEach_cons, hbody { s with grid := gridFrom s.ht s.wd G, row := r0, col := c0 } p rfl hp.1 hp.2]
    rw [exchange_ok (s := State.scanTo { s with grid := gridFrom s.ht s.wd G, row := r0, col := c0 } p) (G := G) rfl hp hq,
      Flow.bind_ok]
    exact h

/-- The walk of FLIPH on a grid with the header's dimensions (42_transform_engine.md R90). -/
theorem walk_mirrorColumns (s : State) (G : Nat × Nat → Cell) (hg : s.grid = gridFrom s.ht s.wd G) :
    ∃ r c, walk mirrorColumns (fliphPairs s.ht s.wd) s =
      .ok () { s with grid := gridFrom s.ht s.wd (fun p => G (p.1, s.wd - 1 - p.2)), row := r, col := c } := by
  have hmem : ∀ p ∈ fliphPairs s.ht s.wd, p.1 < s.ht ∧ p.2 < s.wd / 2 := fun p hp => mem_pairs.mp hp
  obtain ⟨r, c, h⟩ := walk_exchange mirrorColumns (fun p => (p.1, s.wd - 1 - p.2)) s
    (by
      intro s' p hs' hi hj
      rw [mirrorColumns, State.scanTo_ri _ (hi.trans s.ht_lt), State.scanTo_cj _ (hj.trans s.wd_lt)]
      simp only [State.wd, State.scanTo_hdr, hs'])
    (fliphPairs s.ht s.wd)
    (by
      intro p hp
      have := hmem p hp
      exact ⟨⟨this.1, by omega⟩, ⟨this.1, by simp only; omega⟩⟩)
    G s.row s.col
  refine ⟨r, c, ?_⟩
  have hs : s = { s with grid := gridFrom s.ht s.wd G, row := s.row, col := s.col } := by rw [← hg]
  conv_lhs => rw [hs]
  refine Eq.trans ?_ (h.trans ?_)
  · rfl
  · congr 2
    apply gridFrom_congr
    intro i j hi hj
    have key := swapAll_eq (fun p => (p.1, s.wd - 1 - p.2)) (fliphPairs s.ht s.wd)
      (by
        rintro ⟨a, b⟩ hp
        have := hmem _ hp
        simp only [Prod.mk.injEq, true_and] at this ⊢
        omega)
      (by
        refine List.Pairwise.imp_of_mem ?_ (pairs_nodup _ _)
        rintro ⟨a, b⟩ ⟨a', b'⟩ hp hq hne
        have h1 := hmem _ hp
        have h2 := hmem _ hq
        simp only [ne_eq, Prod.mk.injEq, not_and] at h1 h2 hne ⊢
        refine ⟨hne, ?_, ?_, ?_⟩ <;> intro ha <;> omega)
      G (i, j)
    by_cases hm : j = s.wd - 1 - j
    · have hnt : ¬ Touched (fun p => (p.1, s.wd - 1 - p.2)) (fliphPairs s.ht s.wd) (i, j) := by
        rintro ⟨⟨a, b⟩, hp, hx⟩
        have := hmem _ hp
        simp only [Prod.mk.injEq] at this hx
        omega
      rw [key.2 hnt]
      simp only
      rw [← hm]
    · refine key.1 ?_
      by_cases hj2 : j < s.wd / 2
      · exact ⟨(i, j), mem_pairs.mpr ⟨hi, hj2⟩, .inl rfl⟩
      · refine ⟨(i, s.wd - 1 - j), mem_pairs.mpr ⟨hi, by simp only; omega⟩, .inr ?_⟩
        simp only [Prod.mk.injEq, true_and]
        omega

/-- The walk of FLIPV on a grid with the header's dimensions (42_transform_engine.md R91). -/
theorem walk_mirrorRows (s : State) (G : Nat × Nat → Cell) (hg : s.grid = gridFrom s.ht s.wd G) :
    ∃ r c, walk mirrorRows (flipvPairs s.ht s.wd) s =
      .ok () { s with grid := gridFrom s.ht s.wd (fun p => G (s.ht - 1 - p.1, p.2)), row := r, col := c } := by
  have hiff : ∀ p, p ∈ flipvPairs s.ht s.wd ↔ p.1 < s.ht / 2 ∧ p.2 < s.wd := by
    rintro ⟨a, b⟩
    simp only [flipvPairs, List.mem_map, Prod.exists, Prod.swap_prod_mk, Prod.mk.injEq]
    constructor
    · rintro ⟨x, y, hxy, rfl, rfl⟩
      have := mem_pairs.mp hxy
      exact ⟨this.2, this.1⟩
    · rintro ⟨h1, h2⟩
      exact ⟨b, a, mem_pairs.mpr ⟨h2, h1⟩, rfl, rfl⟩
  have hmem : ∀ p ∈ flipvPairs s.ht s.wd, p.1 < s.ht / 2 ∧ p.2 < s.wd := fun p hp => (hiff p).mp hp
  obtain ⟨r, c, h⟩ := walk_exchange mirrorRows (fun p => (s.ht - 1 - p.1, p.2)) s
    (by
      intro s' p hs' hi hj
      rw [mirrorRows, State.scanTo_ri _ (hi.trans s.ht_lt), State.scanTo_cj _ (hj.trans s.wd_lt)]
      simp only [State.ht, State.scanTo_hdr, hs'])
    (flipvPairs s.ht s.wd)
    (by
      intro p hp
      have := hmem p hp
      exact ⟨⟨by omega, this.2⟩, ⟨by simp only; omega, this.2⟩⟩)
    G s.row s.col
  refine ⟨r, c, ?_⟩
  have hs : s = { s with grid := gridFrom s.ht s.wd G, row := s.row, col := s.col } := by rw [← hg]
  conv_lhs => rw [hs]
  refine Eq.trans ?_ (h.trans ?_)
  · rfl
  · congr 2
    apply gridFrom_congr
    intro i j hi hj
    have key := swapAll_eq (fun p => (s.ht - 1 - p.1, p.2)) (flipvPairs s.ht s.wd)
      (by
        rintro ⟨a, b⟩ hp
        have := hmem _ hp
        simp only [Prod.mk.injEq, and_true] at this ⊢
        omega)
      (by
        refine List.Pairwise.imp_of_mem ?_ ((pairs_nodup _ _).map Prod.swap_injective)
        rintro ⟨a, b⟩ ⟨a', b'⟩ hp hq hne
        have h1 := hmem _ hp
        have h2 := hmem _ hq
        simp only [ne_eq, Prod.mk.injEq, not_and] at h1 h2 hne ⊢
        refine ⟨hne, ?_, ?_, ?_⟩ <;> intro ha <;> omega)
      G (i, j)
    by_cases hm : i = s.ht - 1 - i
    · have hnt : ¬ Touched (fun p => (s.ht - 1 - p.1, p.2)) (flipvPairs s.ht s.wd) (i, j) := by
        rintro ⟨⟨a, b⟩, hp, hx⟩
        have := hmem _ hp
        simp only [Prod.mk.injEq] at this hx
        omega
      rw [key.2 hnt]
      simp only
      rw [← hm]
    · refine key.1 ?_
      by_cases hi2 : i < s.ht / 2
      · exact ⟨(i, j), (hiff _).mpr ⟨hi2, hj⟩, .inl rfl⟩
      · refine ⟨(s.ht - 1 - i, j), (hiff _).mpr ⟨by simp only; omega, hj⟩, .inr ?_⟩
        simp only [Prod.mk.injEq, and_true]
        omega

end Sys2Proof.Machine
end

