-- ==== Sys2Proof/Laws/HeaderFlow.lean ====
section
/-!
SUPPORT. Everything the Header Codec's parts can do (40_header_codec.md R72): the parts of DECHDR after the marker, and DECHDR
whole, each with the state it leaves.
-/

namespace Sys2Proof.Machine

/-! ### The rows of the format table -/

/-- The codes the table gives the nine format rows (30_encoding.md R54). -/
theorem formatRows_eq : formatRows =
    [(0, .fmt0), (2, .fmt2), (3, .fmt3), (12, .fmt12), (14, .fmt14), (15, .fmt15), (16, .fmt16), (18, .fmt18),
     (19, .fmt19)] := rfl

/-- A code has a row exactly when the table gives it a byte width. -/
theorem formatRows_lookup_isSome (f : Field) : (formatRows.lookup f).isSome = (byteWidthOf f).isSome := by
  rw [formatRows_eq, byteWidthOf, Config.formatTable]
  simp only [List.lookup_cons, List.lookup_nil]
  repeat' split
  all_goals rfl

/-- An illegal format code is refused by name (30_encoding.md R54). -/
theorem decode_format_illegal {f : Field} (h : (CodeWord.format f).legal = false) :
    decode (.format f) = .error .illegalFormat := by
  have e : (formatRows.lookup f).isSome = false := (formatRows_lookup_isSome f).trans h
  rw [decode, decodeFormat, Option.isSome_eq_false_iff.mp e |> Option.isNone_iff_eq_none.mp]

/-! ### The parts of DECHDR -/

/-- A field is zero exactly when both of its bytes are. -/
theorem append_eq_zero (a b : Byte) : (a ++ b : Field) = 0 ↔ b = 0 ∧ a = 0 := by
  have h : (a ++ b : Field).toNat = a.toNat <<< 8 ||| b.toNat := BitVec.toNat_append a b
  rw [← Nat.shiftLeft_add_eq_or_of_lt b.isLt, Nat.shiftLeft_eq] at h
  rw [← BitVec.toNat_inj, h, ← BitVec.toNat_inj, ← BitVec.toNat_inj]
  simp; omega

/-- ByteSwap16 of two bytes side by side. -/
theorem byteSwap16_append (a b : Byte) : byteSwap16 (a ++ b : Field) = (b ++ a : Field) := by
  apply BitVec.eq_of_getLsbD_eq
  intro i hi
  have h1 := getLsbD_joinRaw b a
  have h2 := getLsbD_joinRaw a b
  have e1 : joinRaw b a = (a ++ b : Field) := rfl
  have e2 : joinRaw a b = (b ++ a : Field) := rfl
  rw [e1] at h1; rw [e2] at h2
  rw [getLsbD_byteSwap16, h2, h1, h1]
  split
  · simp
  · simp [show i - 8 < 8 by omega, hi]

/-! ### After the marker -/

/-- The header the six bytes after an accepted marker make. -/
def headerAfter (m : Field) (b : List Byte) : Header :=
  ⟨m, swapFor m (rawOf b), swapFor m (rawOf (b.drop 2)), swapFor m (rawOf (b.drop 4))⟩

theorem headerOf_eq_headerAfter (b : List Byte) : headerOf b = headerAfter (headerOf b).marker (b.drop 2) := by
  simp [headerOf, headerAfter, List.drop_drop]

theorem acceptMarker_ok {m : Field} {s : State} (ho : s.src.isOpen = true) (hn : s.ipos + 6 ≤ s.src.bytes.length) :
    acceptMarker m s =
      if (headerAfter m (s.src.bytes.drop s.ipos)).width = 0 ∨ (headerAfter m (s.src.bytes.drop s.ipos)).height = 0 then
        .raise .invalidDimension { s with hdr := headerAfter m (s.src.bytes.drop s.ipos), ipos := s.ipos + 6 }
      else .ok () { s with hdr := headerAfter m (s.src.bytes.drop s.ipos), ipos := s.ipos + 6 } := by
  rw [acceptMarker, takeField_ok (by exact ho) (by show s.ipos + 2 ≤ s.src.bytes.length; omega), Flow.bind_ok,
    takeField_ok (by exact ho) (by show s.ipos + 2 + 2 ≤ s.src.bytes.length; omega), Flow.bind_ok,
    takeField_ok (by exact ho) (by show s.ipos + 2 + 2 + 2 ≤ s.src.bytes.length; omega), Flow.bind_ok]
  simp only [headerAfter, List.drop_drop, Nat.add_assoc]

theorem acceptMarker_short {m : Field} {s : State} (ho : s.src.isOpen = true) (hn : s.src.bytes.length < s.ipos + 6) :
    ∃ h i d, acceptMarker m s = .raise .ioError { s with hdr := h, ipos := i, draws := d } ∧ i < 2 ^ Config.posBits := by
  have hd : ∀ d, (Config.freeValue d).toNat % 2 ^ Config.posBits < 2 ^ Config.posBits := fun d =>
    Nat.mod_lt _ (Nat.two_pow_pos _)
  by_cases h1 : s.ipos + 2 ≤ s.src.bytes.length
  · by_cases h2 : s.ipos + 2 + 2 ≤ s.src.bytes.length
    · rw [acceptMarker, takeField_ok (by exact ho) (by exact h1), Flow.bind_ok,
        takeField_ok (by exact ho) (by exact h2), Flow.bind_ok,
        takeField_short (by exact ho) (by show s.src.bytes.length < s.ipos + 2 + 2 + 2; omega), Flow.bind_raise]
      exact ⟨_, _, _, rfl, hd _⟩
    · rw [acceptMarker, takeField_ok (by exact ho) (by exact h1), Flow.bind_ok,
        takeField_short (by exact ho) (by show s.src.bytes.length < s.ipos + 2 + 2; omega), Flow.bind_raise]
      exact ⟨_, _, _, rfl, hd _⟩
  · rw [acceptMarker, takeField_short (by exact ho) (by show s.src.bytes.length < s.ipos + 2; omega), Flow.bind_raise]
    exact ⟨_, _, _, rfl, hd _⟩

/-- The part of DECHDR after the marker, on six bytes named one by one. -/
theorem acceptMarker_bytes {m : Field} {s : State} {w0 w1 h0 h1 f0 f1 : Byte} {r : List Byte} (ho : s.src.isOpen = true)
    (hb : s.src.bytes.drop s.ipos = w0 :: w1 :: h0 :: h1 :: f0 :: f1 :: r) :
    acceptMarker m s =
      if swapFor m (w1 ++ w0) = 0 ∨ swapFor m (h1 ++ h0) = 0 then
        .raise .invalidDimension { s with
          hdr := ⟨m, swapFor m (w1 ++ w0), swapFor m (h1 ++ h0), swapFor m (f1 ++ f0)⟩, ipos := s.ipos + 6 }
      else .ok () { s with
          hdr := ⟨m, swapFor m (w1 ++ w0), swapFor m (h1 ++ h0), swapFor m (f1 ++ f0)⟩, ipos := s.ipos + 6 } := by
  have hl : s.ipos + 6 ≤ s.src.bytes.length := by
    have := congrArg List.length hb
    simp at this; omega
  rw [acceptMarker_ok ho hl, hb]
  rfl

/-! ### The format code -/

/-- A format row whose code has a byte width. -/
theorem formatRow_ok {f : Field} {b : Nat} (s : State) (h : byteWidthOf f = some b) :
    formatRow f s = .next { s with
      hdr := { s.hdr with format := f }, bytew := BitVec.ofNat 4 b, hv := true, phase := .decgrid } := by
  rw [formatRow, acceptFormat, h]; rfl

/-! ### DECHDR -/

theorem byteWidthOf_none_of_not_valid {h : Header} (hv : h.valid = false) (hm : isSentinel h.marker = true)
    (hw : h.width ≠ 0) (hh : h.height ≠ 0) : byteWidthOf h.format = none := by
  have hw' : (h.width != 0) = true := bne_iff_ne.mpr hw
  have hh' : (h.height != 0) = true := bne_iff_ne.mpr hh
  rw [Header.valid, hm, hw', hh', Bool.true_and, Bool.true_and, Bool.true_and, Option.isSome_eq_false_iff] at hv
  exact Option.isNone_iff_eq_none.mp hv

theorem valid_of {h : Header} {B : Nat} (hm : isSentinel h.marker = true)
    (hw : h.width ≠ 0) (hh : h.height ≠ 0) (hf : byteWidthOf h.format = some B) : h.valid = true := by
  rw [byteWidthOf] at hf
  have hw' : (h.width != 0) = true := bne_iff_ne.mpr hw
  have hh' : (h.height != 0) = true := bne_iff_ne.mpr hh
  rw [Header.valid, hm, hw', hh', hf]
  rfl

theorem of_valid {h : Header} (hv : h.valid = true) :
    isSentinel h.marker = true ∧ h.width ≠ 0 ∧ h.height ≠ 0 ∧ ∃ B, byteWidthOf h.format = some B := by
  simp only [Header.valid, Bool.and_eq_true, bne_iff_ne, Option.isSome_iff_exists] at hv
  exact ⟨hv.1.1.1, hv.1.1.2, hv.1.2, hv.2⟩

/-- The body of DECHDR on a source that starts with a valid header. -/
theorem dechdrBody_ok {s : State} {B : Nat} (ho : s.src.isOpen = true) (hp : s.ipos = 0) (hn : 8 ≤ s.src.bytes.length)
    (hv : (headerOf s.src.bytes).valid = true) (hf : byteWidthOf (headerOf s.src.bytes).format = some B) :
    dechdrBody s = .ok () { s with
      hdr := headerOf s.src.bytes, bytew := BitVec.ofNat 4 B, hv := true, ipos := 8 } := by
  obtain ⟨hm, hw, hh, -⟩ := of_valid hv
  have e0 : (s.ipos == 0) = true := by rw [hp]; rfl
  have e1 : rawOf (s.src.bytes.drop s.ipos) = (headerOf s.src.bytes).marker := by rw [hp]; rfl
  have e2 : headerAfter (headerOf s.src.bytes).marker (s.src.bytes.drop (s.ipos + 2)) = headerOf s.src.bytes := by
    rw [headerOf_eq_headerAfter s.src.bytes, hp]; rfl
  rw [dechdrBody, e0, need_true, takeField_ok (by exact ho) (by show s.ipos + 2 ≤ s.src.bytes.length; omega), Flow.bind_ok]
  simp only [e1, hm, if_true]
  rw [acceptMarker_ok (by exact ho) (by show s.ipos + 2 + 6 ≤ s.src.bytes.length; omega)]
  simp only [e2]
  rw [if_neg (not_or.mpr ⟨hw, hh⟩), Flow.bind_ok, acceptFormat, hf]
  simp [hp]

/-- The error DECHDR meets first on a source that does not start with a valid header (60_exceptions.md R119, lines 2 to 6). -/
def headerError (b : List Byte) : ErrCode :=
  if b.length < 2 then .ioError
  else if isSentinel (headerOf b).marker = false then .invalidMarker
  else if b.length < 8 then .ioError
  else if (headerOf b).width = 0 ∨ (headerOf b).height = 0 then .invalidDimension
  else .unsupportedFormat

theorem headerError_ne_none (b : List Byte) : headerError b ≠ .none := by
  unfold headerError; split <;> [simp; (split <;> [simp; (split <;> [simp; (split <;> simp)])])]

/-- The body of DECHDR on any other source: only a short read leaves IPOS free (20_memory.md R32). -/
theorem dechdrBody_raise {s : State} (ho : s.src.isOpen = true) (hp : s.ipos = 0)
    (hv : 8 ≤ s.src.bytes.length → (headerOf s.src.bytes).valid = false) :
    ∃ h i d, dechdrBody s = .raise (headerError s.src.bytes) { s with hdr := h, hv := false, ipos := i, draws := d } ∧
      i < 2 ^ Config.posBits ∧
      (2 ≤ s.src.bytes.length → isSentinel (headerOf s.src.bytes).marker = false → i = 2) ∧
      (8 ≤ s.src.bytes.length → isSentinel (headerOf s.src.bytes).marker = true → i = 8) := by
  have e0 : (s.ipos == 0) = true := by rw [hp]; rfl
  have e1 : rawOf (s.src.bytes.drop s.ipos) = (headerOf s.src.bytes).marker := by rw [hp]; rfl
  have e2 : headerAfter (headerOf s.src.bytes).marker (s.src.bytes.drop (s.ipos + 2)) = headerOf s.src.bytes := by
    rw [headerOf_eq_headerAfter s.src.bytes, hp]; rfl
  have hd : ∀ d, (Config.freeValue d).toNat % 2 ^ Config.posBits < 2 ^ Config.posBits := fun d =>
    Nat.mod_lt _ (Nat.two_pow_pos _)
  have h36 : ∀ k, k ≤ 8 → k < 2 ^ Config.posBits := fun k hk => lt_of_le_of_lt hk (by decide)
  rw [dechdrBody, e0, need_true]
  by_cases h2 : s.src.bytes.length < 2
  · rw [takeField_short (by exact ho) (by show s.src.bytes.length < s.ipos + 2; omega), Flow.bind_raise]
    simp only [headerError, h2, if_true]
    exact ⟨_, _, _, rfl, hd _, fun h => by omega, fun h => by omega⟩
  · rw [takeField_ok (by exact ho) (by show s.ipos + 2 ≤ s.src.bytes.length; omega), Flow.bind_ok]
    simp only [e1, headerError, h2, if_false]
    by_cases hm : isSentinel (headerOf s.src.bytes).marker = true
    · simp only [hm, if_true, Bool.true_eq_false, if_false]
      by_cases h8 : s.src.bytes.length < 8
      · obtain ⟨h, i, d, he, hi⟩ := acceptMarker_short (m := (headerOf s.src.bytes).marker)
          (s := { s with hv := false, ipos := s.ipos + 2 }) (by exact ho)
          (by show s.src.bytes.length < s.ipos + 2 + 6; omega)
        rw [he]
        simp only [h8, if_true]
        exact ⟨_, _, _, rfl, hi, fun _ hf => hf.elim, fun h => by omega⟩
      · simp only [h8, if_false]
        rw [acceptMarker_ok (by exact ho) (by show s.ipos + 2 + 6 ≤ s.src.bytes.length; omega)]
        simp only [e2]
        by_cases hz : (headerOf s.src.bytes).width = 0 ∨ (headerOf s.src.bytes).height = 0
        · simp only [hz, if_true]
          exact ⟨_, _, _, rfl, h36 _ (by rw [hp]), fun _ hf => hf.elim, fun _ _ => by rw [hp]⟩
        · simp only [hz, if_false, Flow.bind_ok]
          rw [not_or] at hz
          rw [acceptFormat, byteWidthOf_none_of_not_valid (hv (by omega)) hm hz.1 hz.2]
          exact ⟨_, _, _, rfl, h36 _ (by rw [hp]), fun _ hf => hf.elim, fun _ _ => by rw [hp]⟩
    · simp only [Bool.not_eq_true] at hm
      simp only [hm, Bool.false_eq_true, if_false, if_true]
      exact ⟨_, _, _, rfl, h36 _ (by rw [hp]; omega), fun _ _ => by rw [hp], fun _ ht => ht.elim⟩

/-! ### ENCHDR -/

@[simp] theorem headerBytes_length (h : Header) : (headerBytes h).length = 8 := rfl

/-- The bytes ENCHDR gives for the header a source starts with are the source's (40_header_codec.md R74). -/
theorem headerBytes_headerOf (b : List Byte) (hn : 8 ≤ b.length) : headerBytes (headerOf b) = b.take 8 := by
  match b, hn with
  | b0 :: b1 :: b2 :: b3 :: b4 :: b5 :: b6 :: b7 :: r, _ =>
    have h : ∀ x y : Byte, ∀ t, splitRaw (rawOf (x :: y :: t)) = [x, y] := fun x y t => splitRaw_joinRaw x y
    simp only [headerBytes, headerOf, swapFor_swapFor, List.drop, h]
    rfl

/-- The header the bytes of ENCHDR hold is the one they were made of. -/
theorem headerOf_headerBytes (h : Header) (r : List Byte) : headerOf (headerBytes h ++ r) = h := by
  have e : ∀ (v : Field) (t : List Byte), rawOf (splitRaw v ++ t) = v := by
    intro v t
    have : rawOf (splitRaw v ++ t) = rawOf (splitRaw v) := rfl
    rw [this, rawOf_splitRaw]
  have d : ∀ (v : Field) (t : List Byte) (n : Nat), (splitRaw v ++ t).drop (n + 2) = t.drop n := fun v t n => rfl
  cases h with
  | mk m w h f =>
    simp only [headerOf, headerBytes, List.append_assoc, e]
    rw [show (2 : Nat) = 0 + 2 from rfl, d, show (4 : Nat) = 0 + 2 + 2 from rfl, d, d, show (6 : Nat) = 0 + 2 + 2 + 2 from rfl, d, d, d]
    simp only [List.drop_zero, e, swapFor_swapFor]

end Sys2Proof.Machine
end

