-- ==== Sys2Proof/Laws/Stages.lean ====
section
/-!
SUPPORT. Everything the bodies of DECGRID, FLIPH, FLIPV, ENCHDR and ENCGRID can do when their stage's requirements hold, each
with the state it leaves (41_pixel_grid_codec.md R82, R83, 42_transform_engine.md R90, R91, 40_header_codec.md R73).
-/

namespace Sys2Proof.Machine

theorem imageLength_eq (W H B : Nat) : imageLength W H B = 8 + H * W * B := by rw [imageLength, Nat.mul_comm W H]

/-! ### DECGRID -/

theorem decodedCell_flat (b : List Byte) (W B i j : Nat) :
    decodedCell b B (i * W + j) = laneAssemble (pixelBytes b W B i j) := rfl

/-- The grid DECGRID makes of a source. -/
def State.decodedGrid (s : State) : GridMem := gridOf (s.ht * s.wd) (decodedCell s.src.bytes s.bw)

theorem decgridBody_capacity {s : State} (hv : s.hv = true) (ho : s.src.isOpen = true) (hp : s.ipos = 8)
    (hc : s.wd * s.ht > s.gridCells) : decgridBody s = .raise .capacityError s := by
  have e0 : (s.ipos == 8) = true := by rw [hp]; rfl
  rw [decgridBody, need_of hv, need_of ho, need_of e0, if_pos hc]

/-- A source that holds every declared pixel: the check of its end decides. -/
theorem decgridBody_long {s : State} (hv : s.hv = true) (ho : s.src.isOpen = true) (hp : s.ipos = 8)
    (hc : s.wd * s.ht ≤ s.gridCells) (hl : imageLength s.wd s.ht s.bw ≤ s.src.bytes.length) :
    ∃ r c l p, decgridBody s =
      if s.src.bytes.length = imageLength s.wd s.ht s.bw then
        .ok () { s with
          gv := true, ipos := imageLength s.wd s.ht s.bw, grid := s.decodedGrid, row := r, col := c, lane := l, pix := p }
      else .raise .trailingDataError { s with
          ipos := imageLength s.wd s.ht s.bw, grid := s.decodedGrid, row := r, col := c, lane := l, pix := p } := by
  have e0 : (s.ipos == 8) = true := by rw [hp]; rfl
  rw [imageLength_eq] at hl ⊢
  obtain ⟨r, c, h1⟩ := walk_clearCell s.forgetGrid rfl
  obtain ⟨r', c', l, p, h2⟩ := walk_decPixel_ok
    { s.forgetGrid with grid := gridOf (s.ht * s.wd) (fun _ => 0), row := r, col := c } _ ho hp hl rfl
  refine ⟨r', c', l, p, ?_⟩
  have h1' : walk clearCell (rowMajor s.ht s.wd) s.forgetGrid =
    .ok () { s.forgetGrid with grid := gridOf (s.ht * s.wd) (fun _ => 0), row := r, col := c } := h1
  rw [decgridBody, need_of hv, need_of ho, need_of e0, if_neg (by omega), h1', Flow.bind_ok, h2, Flow.bind_ok]
  by_cases he : s.src.bytes.length = 8 + s.ht * s.wd * s.bw
  · rw [if_pos he, if_pos (by simp only [inAtEnd, decide_eq_true_eq]; exact he.le)]
    rfl
  · rw [if_neg he, if_neg (by
      simp only [inAtEnd, decide_eq_true_eq]
      show ¬ s.src.bytes.length ≤ 8 + s.ht * s.wd * s.bw
      omega)]
    rfl

/-- A source that ends before the last declared pixel. -/
theorem decgridBody_short {s : State} (hv : s.hv = true) (ho : s.src.isOpen = true) (hp : s.ipos = 8)
    (hc : s.wd * s.ht ≤ s.gridCells) (hl : s.src.bytes.length < imageLength s.wd s.ht s.bw) (hn : 0 < s.ht * s.wd) :
    ∃ m i r c l p, decgridBody s = .raise .truncatedPayloadError (State.forgetIpos { s with
      ipos := i, grid := m, row := r, col := c, lane := l, pix := p }) := by
  have e0 : (s.ipos == 8) = true := by rw [hp]; rfl
  rw [imageLength_eq] at hl
  obtain ⟨r, c, h1⟩ := walk_clearCell s.forgetGrid rfl
  obtain ⟨m, q, r', c', l, p, h2⟩ := walk_decPixel_short
    { s.forgetGrid with grid := gridOf (s.ht * s.wd) (fun _ => 0), row := r, col := c } _ ho hp hn hl rfl
  have h1' : walk clearCell (rowMajor s.ht s.wd) s.forgetGrid =
    .ok () { s.forgetGrid with grid := gridOf (s.ht * s.wd) (fun _ => 0), row := r, col := c } := h1
  refine ⟨m, q, r', c', l, p, ?_⟩
  rw [decgridBody, need_of hv, need_of ho, need_of e0, if_neg (by omega), h1', Flow.bind_ok, h2, Flow.bind_raise]
  rfl

/-! ### The flips -/

theorem fliph_walk_ok {s : State} (hg : s.gridExact) :
    ∃ r c, walk mirrorColumns (fliphPairs s.ht s.wd) s = .ok () { s with
      grid := gridFrom s.ht s.wd (fun p => (s.cell p.1 (s.wd - 1 - p.2)).getD 0), row := r, col := c } :=
  walk_mirrorColumns s _ (State.grid_eq_gridFrom hg)

theorem flipv_walk_ok {s : State} (hg : s.gridExact) :
    ∃ r c, walk mirrorRows (flipvPairs s.ht s.wd) s = .ok () { s with
      grid := gridFrom s.ht s.wd (fun p => (s.cell (s.ht - 1 - p.1) p.2).getD 0), row := r, col := c } :=
  walk_mirrorRows s _ (State.grid_eq_gridFrom hg)

/-! ### ENCHDR and ENCGRID -/

theorem enchdrBody_eq {s : State} (hv : s.hv = true) (ho : s.dst.isOpen = true) (hp : s.opos = 0) :
    enchdrBody s =
      if s.takesAll (headerBytes s.hdr) then .ok () (s.gave (headerBytes s.hdr))
      else .raise .ioError (s.gave (s.accepted (headerBytes s.hdr))) := by
  have e0 : (s.opos == 0) = true := by rw [hp]; rfl
  rw [enchdrBody, need_of hv, need_of e0, forEach_give _ _ ho]

theorem encgridBody_eq {s : State} (hv : s.gv = true) (ho : s.dst.isOpen = true) (hp : s.opos = 8) (hg : s.gridExact) :
    ∃ r c l p, encgridBody s =
      if s.takesAll s.payload then .ok () { s.gave s.payload with row := r, col := c, lane := l, pix := p }
      else .raise .ioError { s.gave (s.accepted s.payload) with row := r, col := c, lane := l, pix := p } := by
  have e0 : (s.opos == 8) = true := by rw [hp]; rfl
  rw [encgridBody, need_of hv, need_of ho, need_of e0]
  exact walk_encPixel (rowMajor s.ht s.wd) s (fun p => (s.cell p.1 p.2).getD 0)
    (fun p hm => ⟨(mem_pairs.mp hm).1, (mem_pairs.mp hm).2,
      State.cell_of_gridExact hg (mem_pairs.mp hm).1 (mem_pairs.mp hm).2⟩) ho

theorem flatMap_length_const {α β : Type} (f : α → List β) (n : Nat) (L : List α) (h : ∀ x ∈ L, (f x).length = n) :
    (L.flatMap f).length = L.length * n := by
  induction L with
  | nil => simp
  | cons x L ih =>
    rw [List.flatMap_cons, List.length_append, h x (by simp), ih fun y hy => h y (by simp [hy]), List.length_cons,
      Nat.succ_mul, Nat.add_comm]

theorem rowMajor_length (h w : Nat) : (rowMajor h w).length = h * w := by
  rw [rowMajor, pairs_eq_map, List.length_map, List.length_range]

theorem State.payload_length (s : State) : s.payload.length = s.ht * s.wd * s.bw := by
  rw [State.payload, flatMap_length_const _ s.bw _ (fun _ _ => laneEmit_length ..), rowMajor_length]

end Sys2Proof.Machine
end

