-- ==== Sys2Proof/Laws/Payload.lean ====
section
/-!
SUPPORT. The payload of an image as a list: cutting it into pixels and joining the pixels again (20_memory.md R44,
41_pixel_grid_codec.md R84).
-/

namespace Sys2Proof.Machine

/-- Pieces of one length, joined: piece `k` starts at `k * B`. -/
theorem take_drop_flatMap_range (B : Nat) (f : Nat → List Byte) (n k : Nat) (hk : k < n) (h : ∀ a, a < n → (f a).length = B) :
    (((List.range n).flatMap f).drop (k * B)).take B = f k := by
  induction n with
  | zero => omega
  | succ n ih =>
    have hlen : ((List.range n).flatMap f).length = n * B := by
      rw [flatMap_length_const f B _ (fun a ha => h a (by have := List.mem_range.mp ha; omega)), List.length_range]
    rw [List.range_succ, List.flatMap_append]
    by_cases hkn : k = n
    · subst hkn
      rw [List.drop_append_of_le_length hlen.ge, List.drop_of_length_le hlen.le, List.nil_append]
      simp only [List.flatMap_cons, List.flatMap_nil, List.append_nil]
      exact List.take_of_length_le (h k (by omega)).le
    · have hlt : k < n := by omega
      have hle : k * B + B ≤ n * B := by rw [← Nat.succ_mul]; exact Nat.mul_le_mul_right B hlt
      rw [List.drop_append_of_le_length (by omega), List.take_append_of_le_length (by rw [List.length_drop]; omega)]
      exact ih hlt fun a ha => h a (by omega)

/-- A payload cut into pixels and joined again. -/
theorem flatMap_range_take_drop (p : List Byte) (B n : Nat) (h : p.length = n * B) :
    ((List.range n).flatMap fun a => (p.drop (a * B)).take B) = p := by
  induction n generalizing p with
  | zero => simp at h; simp [h]
  | succ n ih =>
    rw [List.range_succ_eq_map, List.flatMap_cons, List.flatMap_map]
    have h' := ih (p.drop B) (by rw [List.length_drop, h, Nat.succ_mul]; omega)
    have e : ∀ a, (p.drop ((a + 1) * B)).take B = ((p.drop B).drop (a * B)).take B := by
      intro a; rw [List.drop_drop, Nat.succ_mul, Nat.add_comm]
    simp only [Nat.zero_mul, List.drop_zero, Nat.succ_eq_add_one, e, h', List.take_append_drop]

theorem pixelBytes_length {b : List Byte} {W H B i j : Nat} (hl : b.length = imageLength W H B) (hi : i < H) (hj : j < W) :
    (pixelBytes b W B i j).length = B := by
  rw [imageLength_eq] at hl
  have h1 := flat_lt hi hj
  have h2 : (i * W + j) * B + B ≤ H * W * B := by rw [← Nat.succ_mul]; exact Nat.mul_le_mul_right B h1
  rw [pixelBytes, List.length_take, List.length_drop]
  omega

/-- The pixels of an image in file order are its payload. -/
theorem rowMajor_flatMap_pixelBytes {b : List Byte} {W H B : Nat} (hl : b.length = imageLength W H B) :
    ((rowMajor H W).flatMap fun p => pixelBytes b W B p.1 p.2) = b.drop 8 := by
  rw [imageLength_eq] at hl
  rw [rowMajor, pairs_eq_map, List.flatMap_map, ← flatMap_range_take_drop (b.drop 8) B (H * W) (by
    rw [List.length_drop, hl]; omega)]
  congr 1
  funext a
  rw [pixelBytes, Nat.div_add_mod', List.drop_drop]

/-- Pixel `(i, j)` of a header followed by pixels given one by one. -/
theorem pixelBytes_of_pixels {hd : List Byte} (h8 : hd.length = 8) {W H B i j : Nat} (f : Nat × Nat → List Byte)
    (hf : ∀ p ∈ rowMajor H W, (f p).length = B) (hi : i < H) (hj : j < W) :
    pixelBytes (hd ++ (rowMajor H W).flatMap f) W B i j = f (i, j) := by
  rw [pixelBytes, ← List.drop_drop, List.drop_append_of_le_length h8.ge, List.drop_of_length_le h8.le, List.nil_append,
    rowMajor, pairs_eq_map, List.flatMap_map,
    take_drop_flatMap_range B (fun a => f (a / W, a % W)) (H * W) _ (flat_lt hi hj), flat_div hj, flat_mod hj]
  intro a ha
  exact hf _ (mem_pairs.mpr ⟨div_lt_of_lt_mul ha, mod_lt_of_lt_mul ha⟩)

theorem flatMap_congr_mem {α β : Type} {f g : α → List β} {L : List α} (h : ∀ x ∈ L, f x = g x) : L.flatMap f = L.flatMap g := by
  induction L with
  | nil => rfl
  | cons x L ih => rw [List.flatMap_cons, List.flatMap_cons, h x (by simp), ih fun y hy => h y (by simp [hy])]

end Sys2Proof.Machine
end

