-- ==== Sys2Proof/Laws/PerInstr.lean ====
section
/-!
SUPPORT. Laws about every instruction as syntax. Family EncodesLegal: the encoder gives a word that 30_encoding.md R61's table
calls legal.
-/

namespace Sys2Proof.Laws.EncodesLegal

/-- The word of the instruction is legal (30_encoding.md R52, R54, R59, R60). -/
def Statement (i : Sys2Proof.Instr) : Prop := (Sys2Proof.encode i).legal = true

theorem convert (fh fv : Bool) : Statement (.convert fh fv) := by
  cases fh <;> cases fv <;> (unfold Statement; decide)
theorem idle : Statement .idle := by unfold Statement; decide
theorem srcopen : Statement .srcopen := by unfold Statement; decide
theorem dechdr : Statement .dechdr := by unfold Statement; decide
theorem decgrid : Statement .decgrid := by unfold Statement; decide
theorem fliph : Statement .fliph := by unfold Statement; decide
theorem flipv : Statement .flipv := by unfold Statement; decide
theorem dstopen : Statement .dstopen := by unfold Statement; decide
theorem enchdr : Statement .enchdr := by unfold Statement; decide
theorem encgrid : Statement .encgrid := by unfold Statement; decide
theorem close : Statement .close := by unfold Statement; decide
theorem markerLittle : Statement .markerLittle := by unfold Statement; decide
theorem markerBig : Statement .markerBig := by unfold Statement; decide
theorem fmt0 : Statement .fmt0 := by unfold Statement; decide
theorem fmt2 : Statement .fmt2 := by unfold Statement; decide
theorem fmt3 : Statement .fmt3 := by unfold Statement; decide
theorem fmt12 : Statement .fmt12 := by unfold Statement; decide
theorem fmt14 : Statement .fmt14 := by unfold Statement; decide
theorem fmt15 : Statement .fmt15 := by unfold Statement; decide
theorem fmt16 : Statement .fmt16 := by unfold Statement; decide
theorem fmt18 : Statement .fmt18 := by unfold Statement; decide
theorem fmt19 : Statement .fmt19 := by unfold Statement; decide

end Sys2Proof.Laws.EncodesLegal
end

