-- ==== Sys2Proof/Laws/Run.lean ====
section
/-!
SUPPORT. How steps and runs unfold: what the next step runs when the host is silent, and how runs compose.
-/

namespace Sys2Proof.Machine

/-- The instruction a stage code stands for (30_encoding.md R60). -/
def Stage.instr : Stage → Instr
  | .idle    => .idle
  | .srcopen => .srcopen
  | .dechdr  => .dechdr
  | .decgrid => .decgrid
  | .fliph   => .fliph
  | .flipv   => .flipv
  | .dstopen => .dstopen
  | .enchdr  => .enchdr
  | .encgrid => .encgrid
  | .close   => .close

theorem decode_stage_code (p : Stage) : decode (.stage p.code) = .ok p.instr := by cases p <;> decide

theorem codecWord_of_not_dechdr {s : State} (hp : s.phase ≠ .dechdr) : s.codecWord = .stage s.phase.code := by
  cases h : s.phase <;> first | exact absurd h hp | simp [State.codecWord, h]

theorem popHost_of_nil {s : State} (hh : s.host = []) : s.popHost = s := by
  cases s; simp at hh; subst hh; rfl

/-- With a silent host the next step runs the word PHASE selects. -/
theorem step_of_silent_host {s : State} (hh : s.host = []) : step s = runWord s.codecWord s := by
  simp [step, State.work, hh, popHost_of_nil hh]

theorem step_of_stage {s : State} (hh : s.host = []) (hp : s.phase ≠ .dechdr) : step s = exec s.phase.instr s := by
  rw [step_of_silent_host hh, codecWord_of_not_dechdr hp, runWord, decode_stage_code]

theorem step_of_dechdr {s : State} (hh : s.host = []) (hp : s.phase = .dechdr) (h0 : s.ipos = 0) :
    step s = exec .dechdr s := by
  have : s.codecWord = .stage 2 := by simp [State.codecWord, hp, h0, Stage.code]
  rw [step_of_silent_host hh, this]; rfl

theorem run_zero (s : State) : Sys2Proof.core.run 0 s = .next s := by simp only [Host.Core.run]

theorem run_next {n : Nat} {s t : State} (h : Sys2Proof.core.step s = .next t) :
    Sys2Proof.core.run (n + 1) s = Sys2Proof.core.run n t := by
  simp only [Host.Core.run, h]

theorem run_one {s t : State} (h : step s = .next t) : Sys2Proof.core.run 1 s = .next t := by
  have h' : Sys2Proof.core.step s = .next t := h
  rw [run_next h', run_zero]

/-- A run continued. -/
theorem run_add {a b : Nat} {s t : State} (h : Sys2Proof.core.run a s = .next t) :
    Sys2Proof.core.run (a + b) s = Sys2Proof.core.run b t := by
  induction a generalizing s with
  | zero =>
    rw [run_zero] at h
    injection h with h
    rw [Nat.zero_add]
    exact congrArg _ h
  | succ a ih =>
    cases hs : step s with
    | next s' =>
      have hs' : Sys2Proof.core.step s = .next s' := hs
      rw [run_next hs'] at h
      rw [show a + 1 + b = (a + b) + 1 by omega, run_next hs']
      exact ih h
    | fault r =>
      have hs' : Sys2Proof.core.step s = .fault r := hs
      simp only [Host.Core.run, hs'] at h; cases h
    | refused r =>
      have hs' : Sys2Proof.core.step s = .refused r := hs
      simp only [Host.Core.run, hs'] at h; cases h

theorem run_trans {a b : Nat} {s t u : State} (h : Sys2Proof.core.run a s = .next t)
    (h2 : Sys2Proof.core.run b t = .next u) : Sys2Proof.core.run (a + b) s = .next u := by
  rw [run_add h, h2]

/-- The idle block stays as it is while the host is silent. -/
theorem run_of_idle {s : State} (hh : s.host = []) (hp : s.phase = .idle) (n : Nat) : Sys2Proof.core.run n s = .next s := by
  induction n with
  | zero => exact run_zero s
  | succ n ih =>
    have : step s = .next s := by rw [step_of_stage hh (by rw [hp]; decide), hp]; rfl
    have h' : Sys2Proof.core.step s = .next s := this
    rw [run_next h', ih]

/-- The host's moves, what it read and the draws are no part of the invariant. -/
theorem State.Inv.environment {s : State} (h : s.Inv) (m : List HostMove) (r : BitVec 16) (d : Nat) :
    State.Inv { s with host := m, rdata := r, draws := d } where
  gridCanonical := h.gridCanonical
  headerValid := h.headerValid
  gridNeedsHeader := h.gridNeedsHeader
  gridDimensions := h.gridDimensions
  upperLanesZero := h.upperLanesZero
  idleWhenNotBusy := h.idleWhenNotBusy
  busyNotDone := h.busyNotDone
  okMeansNoError := h.okMeansNoError
  errorCloses := h.errorCloses
  laneBound := h.laneBound
  iposFits := h.iposFits
  oposFits := h.oposFits
  oposCounts := h.oposCounts
  stageIsReady := h.stageIsReady

end Sys2Proof.Machine
end

