-- ==== Sys2Proof/Tests/Slice0.lean ====
section
/-!
SUPPORT. The model's own tests: the well-formedness smoke, a word of the spec's encoding tables for every row, one or two small
steps per instruction with results from 95_test_vectors.md, and a witness for the hypotheses of every statement.
-/

namespace Sys2Proof.Tests

open Sys2Proof Sys2Proof.Machine

/-! ### Well-formedness: every check refuses an ill-formed term -/

theorem test_illformed_command : (CodeWord.command 0x02).legal = false := by decide
theorem test_illformed_reserved_bit : (CodeWord.command 0x21).legal = false := by decide
theorem test_illformed_stage : (CodeWord.stage 10).legal = false := by decide
theorem test_illformed_marker : (CodeWord.marker 0x494D).legal = false := by decide
theorem test_illformed_format : (CodeWord.format 1).legal = false := by decide
theorem test_illformed_header_marker : Header.valid ⟨0x494D, 1, 1, 0⟩ = false := by decide
theorem test_illformed_header_width : Header.valid ⟨0x4949, 0, 1, 0⟩ = false := by decide
theorem test_illformed_header_height : Header.valid ⟨0x4949, 1, 0, 0⟩ = false := by decide
theorem test_illformed_header_format : Header.valid ⟨0x4949, 1, 1, 99⟩ = false := by decide
theorem test_wellformed_header : Header.valid ⟨0x4D4D, 3, 2, 14⟩ = true := by decide

/-! ### Decoding: words written out from 30_encoding.md R52, R54, R58, R60 -/

theorem test_decode_convert : decode (.command 0b00000001) = .ok (.convert false false) := by decide
theorem test_decode_convert_fh : decode (.command 0b00001001) = .ok (.convert true false) := by decide
theorem test_decode_convert_fv : decode (.command 0b00010001) = .ok (.convert false true) := by decide
theorem test_decode_convert_both : decode (.command 0b00011001) = .ok (.convert true true) := by decide
theorem test_decode_idle : decode (.stage 0b0000) = .ok .idle := by decide
theorem test_decode_srcopen : decode (.stage 0b0001) = .ok .srcopen := by decide
theorem test_decode_dechdr : decode (.stage 0b0010) = .ok .dechdr := by decide
theorem test_decode_decgrid : decode (.stage 0b0011) = .ok .decgrid := by decide
theorem test_decode_fliph : decode (.stage 0b0100) = .ok .fliph := by decide
theorem test_decode_flipv : decode (.stage 0b0101) = .ok .flipv := by decide
theorem test_decode_dstopen : decode (.stage 0b0110) = .ok .dstopen := by decide
theorem test_decode_enchdr : decode (.stage 0b0111) = .ok .enchdr := by decide
theorem test_decode_encgrid : decode (.stage 0b1000) = .ok .encgrid := by decide
theorem test_decode_close : decode (.stage 0b1001) = .ok .close := by decide
theorem test_decode_marker_little : decode (.marker 0b0100100101001001) = .ok .markerLittle := by decide
theorem test_decode_marker_big : decode (.marker 0b0100110101001101) = .ok .markerBig := by decide
theorem test_decode_fmt0 : decode (.format 0b0000000000000000) = .ok .fmt0 := by decide
theorem test_decode_fmt2 : decode (.format 0b0000000000000010) = .ok .fmt2 := by decide
theorem test_decode_fmt3 : decode (.format 0b0000000000000011) = .ok .fmt3 := by decide
theorem test_decode_fmt12 : decode (.format 0b0000000000001100) = .ok .fmt12 := by decide
theorem test_decode_fmt14 : decode (.format 0b0000000000001110) = .ok .fmt14 := by decide
theorem test_decode_fmt15 : decode (.format 0b0000000000001111) = .ok .fmt15 := by decide
theorem test_decode_fmt16 : decode (.format 0b0000000000010000) = .ok .fmt16 := by decide
theorem test_decode_fmt18 : decode (.format 0b0000000000010010) = .ok .fmt18 := by decide
theorem test_decode_fmt19 : decode (.format 0b0000000000010011) = .ok .fmt19 := by decide
theorem test_decode_illegal_stage : decode (.stage 0b1010) = .error .illegalStage := by decide
theorem test_decode_illegal_format : decode (.format 0b0001000000000000) = .error .illegalFormat := by decide
/-- The raw marker of the bytes 49 4D, low byte first (20_memory.md R39). -/
theorem test_marker_bytes : decode (.marker (rawOf [0x49, 0x4D])) = .error .illegalMarker := by decide
theorem test_table_fliph : decodeTableWord 8 0b00010100 = some .fliph := by decide
theorem test_table_convert : decodeTableWord 8 0x11 = some (.convert false true) := by decide

/-! ### States of the tests -/

/-- A field of the state a step answers. -/
def after {α : Type} (o : Host.Outcome State Fault Refusal) (f : State → α) : Option α :=
  match o with
  | .next t => some (f t)
  | _       => none

/-- An open source at position `p`. -/
def withSrc (bytes : List Byte) (p : Nat) : State :=
  { State.reset with src := ⟨true, bytes, true⟩, ipos := p, busy := true }

/-- The header of a 2 by 2 image, one byte a pixel (95_test_vectors.md, source A), decoded. -/
def square (s : State) : State := { s with hdr := ⟨0x4949, 2, 2, 0⟩, bytew := 1, hv := true }

/-- The grid [[1,2],[3,4]]. -/
def squareGrid : GridMem := [(0, 1), (1, 2), (2, 3), (3, 4)]

/-- After DECGRID of source A. -/
def picture : State := { square (withSrc [] 8) with gv := true, grid := squareGrid }

/-- A destination open at `p` with a limit. -/
def withDst (s : State) (limit : Option Nat) (bytes : List Byte) : State :=
  { s with dst := ⟨true, limit, bytes, true⟩, opos := bytes.length }

/-! ### One step per instruction (95_test_vectors.md, sections 2.3 to 2.10) -/

theorem test_convert_accepts : after (exec (.convert true false) State.reset) State.statusByte = some 0x01 := by decide
theorem test_convert_latches :
    after (exec (.convert false true) State.reset) (fun t => (t.fh, t.fv, t.phase)) = some (false, true, .srcopen) := by decide
theorem test_illegal_word_refused :
    after (step { State.reset with host := [.writeCmd 0x21] }) State.statusByte = some 0x72 := by decide
theorem test_idle : after (exec .idle State.reset) State.phase = some .idle := by decide
theorem test_srcopen : after (exec .srcopen (withSrc [0x49] 3)) (fun t => (t.ipos, t.phase)) = some (0, .dechdr) := by decide
theorem test_srcopen_unreadable :
    after (exec .srcopen { State.reset with busy := true }) (fun t => (t.err, t.phase)) = some (.ioError, .close) := by decide
theorem test_dechdr_big :
    after (exec .dechdr (withSrc [0x4D, 0x4D, 0x00, 0x01, 0x00, 0x01, 0x00, 0x10, 0x07, 0x08] 0))
      (fun t => (t.hdr, t.bytew, t.ipos, t.hv)) = some (⟨0x4D4D, 1, 1, 16⟩, 2, 8, true) := by decide
theorem test_dechdr_zero_width :
    after (exec .dechdr (withSrc [0x49, 0x49, 0x00, 0x00, 0x01, 0x00, 0x63, 0x00] 0)) (fun t => (t.err, t.hv)) =
      some (.invalidDimension, false) := by decide
theorem test_marker_little :
    after (exec .markerLittle (withSrc [0x49, 0x49, 0x02, 0x00, 0x03, 0x00, 0x10, 0x00] 2)) State.hdr =
      some ⟨0x4949, 2, 3, 16⟩ := by decide
theorem test_marker_big :
    after (exec .markerBig (withSrc [0x4D, 0x4D, 0x00, 0x02, 0x00, 0x03, 0x00, 0x10] 2)) State.hdr =
      some ⟨0x4D4D, 2, 3, 16⟩ := by decide
theorem test_fmt0 : after (exec .fmt0 State.reset) (fun t => (t.bytew, t.hv)) = some (1, true) := by decide
theorem test_fmt2 : after (exec .fmt2 State.reset) (fun t => (t.bytew, t.hv)) = some (3, true) := by decide
theorem test_fmt3 : after (exec .fmt3 State.reset) (fun t => (t.bytew, t.hv)) = some (4, true) := by decide
theorem test_fmt12 : after (exec .fmt12 State.reset) (fun t => (t.bytew, t.hv)) = some (1, true) := by decide
theorem test_fmt14 : after (exec .fmt14 State.reset) (fun t => (t.bytew, t.hv)) = some (3, true) := by decide
theorem test_fmt15 : after (exec .fmt15 State.reset) (fun t => (t.bytew, t.hv)) = some (4, true) := by decide
theorem test_fmt16 : after (exec .fmt16 State.reset) (fun t => (t.bytew, t.hv)) = some (2, true) := by decide
theorem test_fmt18 : after (exec .fmt18 State.reset) (fun t => (t.bytew, t.hv)) = some (6, true) := by decide
theorem test_fmt19 : after (exec .fmt19 State.reset) (fun t => (t.bytew, t.hv)) = some (8, true) := by decide
theorem test_decgrid :
    after (exec .decgrid (square (withSrc [0x49, 0x49, 2, 0, 2, 0, 0, 0, 1, 2, 3, 4] 8))) (fun t => (t.grid, t.ipos)) =
      some (squareGrid, 12) := by decide
theorem test_decgrid_trailing :
    after (exec .decgrid (square (withSrc [0x49, 0x49, 2, 0, 2, 0, 0, 0, 1, 2, 3, 4, 0] 8))) (fun t => (t.err, t.gv)) =
      some (.trailingDataError, false) := by decide
theorem test_fliph : after (exec .fliph picture) State.grid = some [(0, 2), (1, 1), (2, 4), (3, 3)] := by decide
theorem test_fliph_middle :
    after (exec .fliph { picture with hdr := ⟨0x4949, 3, 1, 0⟩, grid := [(0, 1), (1, 2), (2, 3)] }) State.grid =
      some [(0, 3), (1, 2), (2, 1)] := by decide
theorem test_flipv : after (exec .flipv picture) State.grid = some [(0, 3), (1, 4), (2, 1), (3, 2)] := by decide
theorem test_flipv_middle :
    after (exec .flipv { picture with hdr := ⟨0x4949, 1, 3, 0⟩, grid := [(0, 1), (1, 2), (2, 3)] }) State.grid =
      some [(0, 3), (1, 2), (2, 1)] := by decide
theorem test_dstopen_empties :
    after (exec .dstopen (withDst picture none [7, 7])) (fun t => (t.dst.bytes, t.opos)) = some ([], 0) := by decide
theorem test_enchdr_big :
    after (exec .enchdr (withDst { picture with hdr := ⟨0x4D4D, 3, 1, 16⟩ } none [])) (fun t => t.dst.bytes) =
      some [0x4D, 0x4D, 0x00, 0x03, 0x00, 0x01, 0x00, 0x10] := by decide
theorem test_enchdr_limit :
    after (exec .enchdr (withDst picture (some 3) [])) (fun t => (t.dst.bytes, t.err)) =
      some ([0x49, 0x49, 0x02], .ioError) := by decide
theorem test_encgrid_order :
    after (exec .encgrid (withDst { picture with
        hdr := ⟨0x4949, 2, 1, 16⟩, bytew := 2, grid := [(0, 0x6655), (1, 0x4433)] } none [0, 0, 0, 0, 0, 0, 0, 0]))
      (fun t => t.dst.bytes.drop 8) = some [0x55, 0x66, 0x33, 0x44] := by decide
theorem test_encgrid_limit :
    after (exec .encgrid (withDst picture (some 10) [0, 0, 0, 0, 0, 0, 0, 0]))
      (fun t => (t.dst.bytes.drop 8, t.err, t.opos)) = some ([1, 2], .ioError, 10) := by decide
theorem test_close : after (exec .close (withDst picture none [])) State.statusByte = some 0x0E := by decide
theorem test_close_error : after (exec .close { picture with err := .trailingDataError }) State.statusByte = some 0x5A := by
  decide

/-! ### Witnesses: the hypotheses of the statements, clause by clause, at boundary values -/

theorem witness_FourCommandWordsAreLegal :
    (0x02 : BitVec 8) ≠ 0x01 ∧ (0x02 : BitVec 8) ≠ 0x09 ∧ (0x02 : BitVec 8) ≠ 0x11 ∧ (0x02 : BitVec 8) ≠ 0x19 := by decide

theorem witness_DecodeAndEncodeAgree : decode (.format 19) = .ok .fmt19 := by decide

/-- A state in DECHDR with `p` bytes taken. -/
def inHeader (p : Nat) : State := { withSrc [0x49, 0x49, 1, 0, 1, 0, 0, 0] p with phase := .dechdr }

theorem witness_StepRunsTheDecodedWord_word :
    State.reset.work = .word (.stage 0) ∧ decode (.stage 0) = .ok .idle := by decide
theorem witness_StepRunsTheDecodedWord_host :
    State.host { State.reset with host := [.writeCmd 0x01] } = .writeCmd 0x01 :: [] ∧ State.reset.host = [] ∧
    State.reset.phase ≠ .dechdr := by decide
theorem witness_StepRunsTheDecodedWord_wait :
    (State.host { State.reset with host := [.wait] }).head? = some .wait := by decide
theorem witness_StepRunsTheDecodedWord_dechdr :
    (inHeader 0).phase = .dechdr ∧ (inHeader 0).ipos ≠ 2 ∧ (inHeader 0).ipos ≠ 8 ∧ (inHeader 2).ipos = 2 ∧
    (inHeader 8).ipos = 8 := by decide

theorem witness_IllegalHeaderWordRaisesItsError :
    State.work { withSrc [0x49, 0x4D, 1, 0, 1, 0, 0, 0] 2 with phase := .dechdr } = .word (.marker 0x4D49) ∧
    (CodeWord.marker 0x4D49).legal = false ∧
    State.work { inHeader 8 with hdr := ⟨0x4949, 1, 1, 13⟩ } = .word (.format 13) ∧ (CodeWord.format 13).legal = false ∧
    (inHeader 0).work = .word (.stage 2) := by decide

theorem witness_PlacedWordRunsNext :
    (CodeWord.command 0x19).legal = true ∧ (CodeWord.stage 9).legal = true ∧ (CodeWord.marker 0x4D4D).legal = true ∧
    (CodeWord.format 19).legal = true := by decide

theorem witness_LaneAssembleHoldsTheBytesSideBySide :
    ([1, 2, 3, 4, 5, 6, 7, 8] : List Byte).length ≤ 8 ∧ 7 < 8 ∧
    laneAssemble [1, 2] = laneAssemble [1, 2] ∧ ([] : List Byte).length ≤ 8 := by decide
theorem witness_LaneEmitInvertsLaneAssemble : ([1, 2, 3, 4, 5, 6, 7, 8] : List Byte).length ≤ 8 ∧ 8 ≤ 8 := by decide

theorem witness_CommandIsAcceptedOrIgnored :
    State.reset.busy = false ∧ (withSrc [] 0).busy = true ∧
    State.host { withSrc [] 0 with host := [.writeCmd 0xFF] } = .writeCmd 0xFF :: [] ∧
    State.host { State.reset with host := [.writeCmd 0x19] } = .writeCmd 0x19 :: [] ∧
    (CodeWord.command 0x19).legal = true := by decide
theorem witness_IllegalCommandIsRefused :
    State.reset.busy = false ∧ State.host { State.reset with host := [.writeCmd 0x18] } = .writeCmd 0x18 :: [] ∧
    (CodeWord.command 0x18).legal = false := by decide
theorem witness_IdleBlockWaits : State.reset.phase = .idle ∧ State.reset.host = [] := by decide
theorem witness_SrcopenOpensOrRaises : (withSrc [] 0).src.ok = true ∧ State.reset.src.ok = false := by decide
theorem witness_DstopenOpensOrRaises : (withDst picture none []).dst.ok = true ∧ State.reset.dst.ok = false := by decide

theorem witness_DechdrDecodes :
    (inHeader 0).src.isOpen = true ∧ (inHeader 0).ipos = 0 ∧ 8 ≤ (inHeader 0).src.bytes.length ∧
    isSentinel (headerOf (inHeader 0).src.bytes).marker = true ∧ (headerOf (inHeader 0).src.bytes).width ≠ 0 ∧
    (headerOf (inHeader 0).src.bytes).height ≠ 0 ∧ byteWidthOf (headerOf (inHeader 0).src.bytes).format = some 1 := by decide
theorem witness_DechdrRaises_short :
    (withSrc [0x49] 0).src.isOpen = true ∧ (withSrc [0x49] 0).ipos = 0 ∧ (withSrc [0x49] 0).src.bytes.length < 2 ∧
    (withSrc [0x49, 0x49, 1, 0, 1, 0, 0] 0).src.bytes.length < 8 := by decide
theorem witness_DechdrRaises_positions :
    2 ≤ ([0x49, 0x4D] : List Byte).length ∧ isSentinel (headerOf [0x49, 0x4D]).marker = false ∧
    8 ≤ ([0x49, 0x49, 0, 0, 1, 0, 0, 0] : List Byte).length ∧
    isSentinel (headerOf [0x49, 0x49, 0, 0, 1, 0, 0, 0]).marker = true := by decide
theorem witness_DechdrRaises_invalid :
    (headerOf [0x49, 0x4D, 1, 0, 1, 0, 0, 0]).valid = false ∧ (headerOf [0x49, 0x49, 0, 0, 1, 0, 0, 0]).valid = false ∧
    (headerOf [0x49, 0x49, 1, 0, 0, 0, 0, 0]).valid = false ∧ (headerOf [0x49, 0x49, 1, 0, 1, 0, 1, 0]).valid = false := by
  decide

theorem witness_MarkerSelectsTheByteOrder :
    (inHeader 2).src.isOpen = true ∧ (inHeader 2).src.bytes.drop (inHeader 2).ipos = 1 :: 0 :: 1 :: 0 :: 0 :: 0 :: [] ∧
    ¬ ((1 : Byte) = 0 ∧ (0 : Byte) = 0) := by decide
theorem witness_MarkerSelectsTheByteOrder_zero :
    (withSrc [0x49, 0x49, 0, 0, 1, 0, 0, 0] 2).src.bytes.drop 2 = 0 :: 0 :: 1 :: 0 :: 0 :: 0 :: [] ∧
    (((0 : Byte) = 0 ∧ (0 : Byte) = 0) ∨ ((1 : Byte) = 0 ∧ (0 : Byte) = 0)) := by decide
theorem witness_MarkerSelectsTheByteOrder_short :
    (withSrc [0x49, 0x49, 1, 0, 1, 0, 0] 2).src.isOpen = true ∧
    (withSrc [0x49, 0x49, 1, 0, 1, 0, 0] 2).src.bytes.length < (withSrc [0x49, 0x49, 1, 0, 1, 0, 0] 2).ipos + 6 := by decide

/-- DECGRID's turn on a 2 by 2 source with `n` payload bytes and a grid memory of `k` cells. -/
def inGridStage (n k : Nat) : State :=
  { square (withSrc ([0x49, 0x49, 2, 0, 2, 0, 0, 0] ++ List.replicate n 5) 8) with gridCells := k, phase := .decgrid }

theorem witness_DecgridReadsEveryPixel :
    (inGridStage 4 4).hv = true ∧ (inGridStage 4 4).src.isOpen = true ∧ (inGridStage 4 4).ipos = 8 ∧
    (inGridStage 4 4).wd * (inGridStage 4 4).ht ≤ (inGridStage 4 4).gridCells ∧
    (inGridStage 4 4).src.bytes.length = imageLength (inGridStage 4 4).wd (inGridStage 4 4).ht (inGridStage 4 4).bw := by
  decide
theorem witness_DecgridRaises_capacity :
    0 < (inGridStage 4 3).wd ∧ 0 < (inGridStage 4 3).ht ∧
    (inGridStage 4 3).wd * (inGridStage 4 3).ht > (inGridStage 4 3).gridCells := by decide
theorem witness_DecgridRaises_length :
    (inGridStage 3 4).src.bytes.length < imageLength (inGridStage 3 4).wd (inGridStage 3 4).ht (inGridStage 3 4).bw ∧
    (inGridStage 5 4).src.bytes.length > imageLength (inGridStage 5 4).wd (inGridStage 5 4).ht (inGridStage 5 4).bw := by
  decide

theorem picture_gridExact : picture.gridExact := by unfold State.gridExact; decide

theorem witness_Flips :
    (Instr.fliph = .fliph ∨ Instr.fliph = .flipv) ∧ picture.gv = true ∧ picture.gridExact ∧
    1 < picture.ht ∧ 1 < picture.wd ∧ ∀ kv ∈ picture.grid, kv.2.toNat < 2 ^ (8 * picture.bw) :=
  ⟨by decide, by decide, picture_gridExact, by decide, by decide, by decide⟩

theorem witness_EnchdrGivesTheHeaderBytes :
    (withDst picture (some 8) []).hv = true ∧ (withDst picture (some 8) []).dst.isOpen = true ∧
    (withDst picture (some 8) []).opos = 0 ∧
    State.takesAll (withDst picture (some 8) []) (headerBytes picture.hdr) = true ∧
    (withDst picture (some 7) []).dst.limit = some 7 ∧ 7 < 8 := by decide

/-- ENCGRID's turn on the picture, with a sink of `l` bytes. -/
def inPayload (l : Nat) : State :=
  { withDst picture (some l) [0x49, 0x49, 2, 0, 2, 0, 0, 0] with phase := .encgrid }

theorem witness_EncgridGivesThePayload :
    (inPayload 12).gv = true ∧ (inPayload 12).gridExact ∧ (inPayload 12).dst.isOpen = true ∧ (inPayload 12).opos = 8 ∧
    (inPayload 12).takesAll (inPayload 12).payload = true ∧ (inPayload 11).dst.limit = some 11 ∧
    (inPayload 11).takesAll (inPayload 11).payload = false :=
  ⟨by decide, picture_gridExact, by decide, by decide, by decide, by decide, by decide⟩

theorem witness_Stops_header :
    (inHeader 2).ipos ≠ 0 ∧ State.reset.ipos = 0 ∧ State.reset.src.isOpen = false ∧ State.reset.hv = false ∧
    State.hv (square State.reset) = true ∧ State.src (square State.reset) = ⟨false, [], false⟩ ∧
    (square (withSrc [] 7)).src.isOpen = true ∧ (square (withSrc [] 7)).ipos ≠ 8 := by decide
theorem witness_Stops_output :
    (inPayload 12).hv = true ∧ (inPayload 12).opos ≠ 0 ∧ picture.hv = true ∧ picture.opos = 0 ∧ picture.dst.isOpen = false ∧
    State.reset.gv = false ∧ picture.gv = true ∧ (withDst picture none []).dst.isOpen = true ∧
    (withDst picture none []).opos ≠ 8 := by decide
theorem witness_Stops_cell :
    picture.ht ≤ 2 ∧ State.wd { picture with grid := [] } ≤ 2 ∧ 1 < picture.ht ∧ 1 < picture.wd ∧
    State.cell { picture with grid := [] } 1 1 = none := by decide
theorem witness_GridReadsTheLastWrite : 1 < picture.ht ∧ 1 < picture.wd ∧ ((0, 0) : Nat × Nat) ≠ (1, 1) := by decide

theorem witness_HeaderRoundTrip :
    ∃ t, exec .dechdr (inHeader 0) = .next t ∧ t.hv = true ∧ t.hdr = ⟨0x4949, 1, 1, 0⟩ := ⟨_, rfl, rfl, by decide⟩
theorem witness_HeaderRoundTrip_write :
    State.hv { withDst picture (some 8) [] with hdr := ⟨0x4D4D, 65535, 1, 19⟩ } = true ∧
    Header.valid ⟨0x4D4D, 65535, 1, 19⟩ = true ∧ (withDst picture (some 8) []).dst.bytes = [] ∧
    (withDst picture (some 8) []).opos = 0 ∧ (withDst picture (some 8) []).dst.limit = some 8 := by decide
theorem witness_PayloadRoundTrip :
    after (exec .decgrid (inGridStage 4 4)) State.gv = some true ∧ (inGridStage 4 4).gv = false ∧ (inGridStage 4 4).bw ≤ 8 := by
  decide
theorem witness_PayloadRoundTrip_write :
    State.gv { withDst picture none [0, 0, 0, 0, 0, 0, 0, 0] with phase := .encgrid } = true ∧
    (withDst picture none [0, 0, 0, 0, 0, 0, 0, 0]).dst.isOpen = true ∧
    (withDst picture none [0, 0, 0, 0, 0, 0, 0, 0]).opos = 8 ∧
    (withDst picture none [0, 0, 0, 0, 0, 0, 0, 0]).dst.limit = none := by decide

/-- For the frames: each kind of stage answers a next state. -/
theorem witness_Frames :
    (after (exec .close picture) State.busy).isSome ∧ (after (exec .srcopen picture) State.busy).isSome ∧
    (after (exec .decgrid (inGridStage 4 4)) State.busy).isSome ∧ (after (exec .fliph picture) State.busy).isSome ∧
    (after (exec .enchdr (withDst picture none [])) State.busy).isSome ∧
    (after (exec .encgrid (inPayload 12)) State.busy).isSome ∧ (after (exec .fmt0 picture) State.busy).isSome := by decide
theorem witness_RaisedErrorEndsTheConversion :
    State.reset.err = .none ∧
    after (exec .srcopen { State.reset with busy := true }) (fun t => (t.err, t.host)) = some (.ioError, []) := by decide

theorem witness_HostReadsTheRegisters :
    State.host { State.reset with host := [.read 1] } = .read 1 :: [] ∧ State.reset.busy = false ∧ (withSrc [] 0).busy = true ∧
    State.hv { picture with busy := false } = true ∧ 7 ≤ 7 := by decide
theorem witness_OtherWritesAreIgnoredAndWaitPerformsAStage :
    State.host { State.reset with host := [.writeOther 0 0xFFFF] } = .writeOther 0 0xFFFF :: [] ∧
    State.host { State.reset with host := [.wait] } = .wait :: [] ∧ State.reset.host = [] := by decide
theorem witness_HostBindsOnlyWhileIdle :
    State.host { State.reset with host := [.bindSrc true []] } = .bindSrc true [] :: [] ∧
    State.host { picture with host := [.bindDst true none []] } = .bindDst true none [] :: [] ∧
    State.reset.busy = false ∧ picture.busy = true := by decide
theorem witness_ResetEventMakesTheBlockIdle :
    State.host { picture with host := [.reset 3], phase := .fliph } = .reset 3 :: [] ∧ Stage.fliph ≠ .enchdr ∧
    Stage.fliph ≠ .encgrid := by decide

/-- A state of a run in ENCGRID meets the invariant. -/
theorem inPayload_inv : (inPayload 12).Inv where
  gridCanonical := rfl
  headerValid := fun _ => ⟨by decide, by decide⟩
  gridNeedsHeader := fun _ => rfl
  gridDimensions := fun _ => picture_gridExact
  upperLanesZero := fun _ => by decide
  idleWhenNotBusy := by decide
  busyNotDone := fun _ => ⟨rfl, rfl⟩
  okMeansNoError := fun hd => absurd hd (by decide)
  errorCloses := fun _ he => absurd rfl he
  laneBound := by decide
  iposFits := by decide
  oposFits := by decide
  oposCounts := fun _ => ⟨rfl, fun l hl => by cases hl; decide⟩
  stageIsReady := ⟨rfl, rfl, rfl⟩

/-- A state of a run in ENCHDR meets the invariant. -/
theorem inHeaderOut_inv : State.Inv { withDst picture (some 0) [] with phase := .enchdr } where
  gridCanonical := rfl
  headerValid := fun _ => ⟨by decide, by decide⟩
  gridNeedsHeader := fun _ => rfl
  gridDimensions := fun _ => picture_gridExact
  upperLanesZero := fun _ => by decide
  idleWhenNotBusy := by decide
  busyNotDone := fun _ => ⟨rfl, rfl⟩
  okMeansNoError := fun hd => absurd hd (by decide)
  errorCloses := fun _ he => absurd rfl he
  laneBound := by decide
  iposFits := by decide
  oposFits := by decide
  oposCounts := fun _ => ⟨rfl, fun l hl => by cases hl; decide⟩
  stageIsReady := ⟨rfl, rfl, rfl⟩

theorem witness_ResetCutsTheOutputAnywhere :
    (State.Inv { inPayload 12 with host := [.reset 2] } ∧ (inPayload 12).phase = .encgrid) ∧
    State.Inv { withDst picture (some 0) [] with phase := .enchdr, host := [.reset 0] } :=
  ⟨⟨inPayload_inv.environment _ _ _, by decide⟩, inHeaderOut_inv.environment _ _ _⟩

theorem witness_StepKeepsTheInvariant :
    State.Inv { inPayload 12 with host := [] } ∧ ∃ t, step { inPayload 12 with host := [] } = .next t :=
  ⟨inPayload_inv.environment _ _ _, _, rfl⟩
theorem witness_StepNeverFaults :
    State.Inv { inPayload 12 with host := [.bindSrc true []] } ∧
    State.busy { inPayload 12 with host := [.bindSrc true []] } = true := ⟨inPayload_inv.environment _ _ _, rfl⟩
theorem witness_StepKeepsTheGridCanonical :
    picture.grid.wf = true ∧ ∃ t, step { picture with phase := .flipv } = .next t := ⟨by decide, _, rfl⟩
theorem witness_PhaseNeverMovesBackwards :
    (inGridStage 4 4).busy = true ∧
    after (step { inGridStage 4 4 with fh := true }) (fun t => (t.busy, t.phase)) = some (true, .fliph) ∧
    after (step { inGridStage 4 4 with fv := true }) (fun t => (t.busy, t.phase)) = some (true, .flipv) := by decide
theorem witness_EveryConversionEnds :
    State.Inv { inPayload 12 with host := [] } ∧ State.host { inPayload 12 with host := [] } = [] ∧
    State.busy { inPayload 12 with host := [] } = true := ⟨inPayload_inv.environment _ _ _, rfl, rfl⟩

/-! ### Whole conversions: one pixel, one byte -/

/-- A source of two pixels and a fresh destination, with a command waiting. -/
def waiting (c : BitVec 8) (bytes : List Byte) : State :=
  { State.reset with src := ⟨true, bytes, false⟩, dst := ⟨true, some 10, [9], false⟩, host := [.writeCmd c] }

theorem witness_ConversionReportsTheFirstError :
    (waiting 0x09 [0x49, 0x49, 2, 0, 1, 0, 0, 0, 5, 6]).busy = false ∧
    decode (.command 0x09) = .ok (.convert true false) ∧
    (waiting 0x09 [0x49, 0x49, 2, 0, 1, 0, 0, 0, 5, 6]).host = [.writeCmd 0x09] ∧
    reachesDestination (waiting 0x09 [0x49, 0x49, 2, 0, 1, 0, 0, 0, 5, 6]).src
      (waiting 0x09 [0x49, 0x49, 2, 0, 1, 0, 0, 0, 5, 6]).dst (2 ^ 32) = true ∧
    reachesDestination (waiting 0x09 [0x49]).src (waiting 0x09 [0x49]).dst (2 ^ 32) = false := by decide
theorem witness_SuccessfulConversion :
    conversionError (waiting 0x09 [0x49, 0x49, 2, 0, 1, 0, 0, 0, 5, 6]).src
      (waiting 0x09 [0x49, 0x49, 2, 0, 1, 0, 0, 0, 5, 6]).dst (2 ^ 32) = .none ∧
    byteWidthOf (headerOf [0x49, 0x49, 2, 0, 1, 0, 0, 0, 5, 6]).format = some 1 := by decide
theorem witness_UnflippedConversionCopies :
    (waiting 0x01 [0x4D, 0x4D, 0, 1, 0, 2, 0, 0, 5, 6]).host = [.writeCmd 0x01] ∧
    conversionError (waiting 0x01 [0x4D, 0x4D, 0, 1, 0, 2, 0, 0, 5, 6]).src
      (waiting 0x01 [0x4D, 0x4D, 0, 1, 0, 2, 0, 0, 5, 6]).dst (2 ^ 32) = .none := by decide
theorem witness_ConvertingTwiceRestoresTheSource :
    after (Sys2Proof.core.run 10 (waiting 0x09 [0x49, 0x49, 2, 0, 1, 0, 0, 0, 5, 6])) (fun t => t.dst.bytes) =
      some (waiting 0x09 [0x49, 0x49, 2, 0, 1, 0, 0, 0, 6, 5]).src.bytes ∧
    (waiting 0x09 [0x49, 0x49, 2, 0, 1, 0, 0, 0, 6, 5]).dst = (waiting 0x09 [0x49, 0x49, 2, 0, 1, 0, 0, 0, 5, 6]).dst ∧
    (waiting 0x09 [0x49, 0x49, 2, 0, 1, 0, 0, 0, 6, 5]).src.ok = true := by decide

end Sys2Proof.Tests
end

section
/-!
PROOFS. What a step can be, the bounds of the registers, and the invariant inside a conversion under way.
-/

namespace Sys2Proof.Machine

/-! ### The words a step runs -/

theorem mem_of_lookup_eq_some {α β : Type} [BEq α] [LawfulBEq α] {l : List (α × β)} {k : α} {b : β}
    (h : l.lookup k = some b) : (k, b) ∈ l := by
  obtain ⟨l₁, l₂, rfl, -⟩ := List.lookup_eq_some_iff.mp h
  simp

/-- The instruction of a format code's row is the format row of that code (30_encoding.md R54). -/
theorem exec_of_formatRows_lookup {f : Field} {i : Instr} (s : State) (h : formatRows.lookup f = some i) :
    exec i s = formatRow f s := by
  have hrows : ∀ r ∈ formatRows, exec r.2 s = formatRow r.1 s := by
    simp only [formatRows_eq, List.forall_mem_cons]
    exact ⟨rfl, rfl, rfl, rfl, rfl, rfl, rfl, rfl, rfl, nofun⟩
  exact hrows _ (mem_of_lookup_eq_some h)

/-- Every format word, legal or not, runs as the format row of its code. -/
theorem runWord_format (f : Field) (s : State) : runWord (.format f) s = formatRow f s := by
  cases hl : formatRows.lookup f with
  | some i => simp only [runWord, decode, decodeFormat, hl]; exact exec_of_formatRows_lookup s hl
  | none =>
    have hb : byteWidthOf f = none := by
      rw [← Option.isNone_iff_eq_none, ← Option.isSome_eq_false_iff, ← formatRows_lookup_isSome, hl]
      rfl
    simp only [runWord, decode, decodeFormat, hl, formatRow, acceptFormat, hb]
    rfl

/-- A marker word runs as DECHDR from that marker on, or raises InvalidMarker (30_encoding.md R52, 60_exceptions.md R112). -/
theorem runWord_marker (m : Field) (s : State) :
    runWord (.marker m) s =
      if isSentinel m then markerRow m s else .next (raiseError .invalidMarker s.forgetHeader) := by
  by_cases hl : m = Config.markerLittle
  · subst hl; rfl
  · by_cases hb : m = Config.markerBig
    · subst hb; rfl
    · simp [runWord, decode, decodeMarker, isSentinel, hl, hb, rejectWord]

/-- A command word is CONVERT or it is refused (30_encoding.md R59). -/
theorem runWord_command (c : BitVec 8) (s : State) :
    (∃ fh fv, runWord (.command c) s = execConvert fh fv s) ∨ runWord (.command c) s = .next (refuseCommand s) := by
  simp only [runWord, decode, decodeCommand]
  split
  · next h => split at h <;> cases h; exact .inl ⟨_, _, rfl⟩
  · next h => split at h <;> cases h; exact .inr rfl

/-- Outside DECHDR the word PHASE selects runs the stage. -/
theorem runWord_codecWord_of_not_dechdr {s : State} (hp : s.phase ≠ .dechdr) :
    runWord s.codecWord s = exec s.phase.instr s := by
  rw [codecWord_of_not_dechdr hp, runWord, decode_stage_code]

/-- Outside the two places where DECHDR goes on, the word it runs is its stage code (log entry 9). -/
theorem codecWord_dechdr {s : State} (hp : s.phase = .dechdr) (h2 : s.ipos ≠ 2) (h8 : s.ipos ≠ 8) :
    s.codecWord = .stage Stage.dechdr.code := by
  simp [State.codecWord, hp, h2, h8]

/-- With two bytes taken DECHDR goes on with the marker. -/
theorem codecWord_marker {s : State} (hp : s.phase = .dechdr) (h2 : s.ipos = 2) :
    s.codecWord = .marker (rawOf s.src.bytes) := by
  simp [State.codecWord, hp, h2]

/-- With eight bytes taken DECHDR goes on with the format code. -/
theorem codecWord_format {s : State} (hp : s.phase = .dechdr) (h8 : s.ipos = 8) : s.codecWord = .format s.hdr.format := by
  simp [State.codecWord, hp, h8]

/-- The word a step runs is a command word or the word PHASE selects. -/
theorem work_word {s : State} {w : CodeWord} (h : s.work = .word w) : (∃ c, w = .command c) ∨ w = s.codecWord := by
  unfold State.work at h
  split at h <;> cases h
  · exact .inr rfl
  · exact .inr rfl
  · exact .inl ⟨_, rfl⟩

/-- What a step can be: the word PHASE selects, a command word, or another move of the host. -/
theorem step_cases {s t : State} (h : step s = .next t) :
    runWord s.popHost.codecWord s.popHost = .next t ∨ (∃ c, runWord (.command c) s.popHost = .next t) ∨
    ∃ m, hostMove m s.popHost = .next t := by
  unfold step at h
  split at h
  · next w hw =>
    rcases work_word hw with ⟨c, rfl⟩ | rfl
    · exact .inr (.inl ⟨c, h⟩)
    · exact .inl h
  · next m _ => exact .inr (.inr ⟨m, h⟩)

/-- A read changes only the value read and the count of draws (10_state.md R23). -/
theorem readRegister_frame (s : State) (n : Nat) : ∃ r d, s.readRegister n = { s with rdata := r, draws := d } := by
  have hr : ∀ v k, ∃ r d, s.reliableOr v k = { s with rdata := r, draws := d } := by
    intro v k
    unfold State.reliableOr
    split
    · exact ⟨_, _, rfl⟩
    · exact ⟨_, _, rfl⟩
  unfold State.readRegister
  split
  · exact ⟨_, _, rfl⟩
  · split
    · exact ⟨_, _, rfl⟩
    · exact ⟨_, _, rfl⟩
  · exact hr _ _
  · exact hr _ _
  · exact hr _ _
  · exact hr _ _
  · exact hr _ _
  · exact ⟨_, _, rfl⟩

/-! ### Bounds -/

theorem byteWidthOf_le {f : Field} {B : Nat} (h : byteWidthOf f = some B) : B ≤ 8 :=
  (by decide : ∀ r ∈ Config.formatTable, r.2 ≤ 8) _ (mem_of_lookup_eq_some h)

/-- BYTEW holds every byte width of the table. -/
theorem byteWidthOf_eq_some_bytew {f : Field} {B : Nat} (h : byteWidthOf f = some B) :
    byteWidthOf f = some (BitVec.ofNat 4 B).toNat := by
  rw [h, BitVec.toNat_ofNat, Nat.mod_eq_of_lt (lt_of_le_of_lt (byteWidthOf_le h) (by decide))]

/-- A free position fits its 36 bits (10_state.md R21). -/
theorem State.forgetIpos_ipos_lt (s : State) : s.forgetIpos.ipos < 2 ^ Config.posBits :=
  Nat.mod_lt _ (Nat.two_pow_pos _)

/-- A free LANE is 0 to 8 (10_state.md R20). -/
theorem State.forgetScan_lane_le (s : State) : s.forgetScan.lane.toNat ≤ 8 := by
  simp only [State.forgetScan, BitVec.toNat_ofNat]
  omega

/-- An image of 16-bit dimensions and at most eight bytes per pixel fits the positions (10_state.md R21). -/
theorem State.imageLength_lt (s : State) (hb : s.bw ≤ 8) : imageLength s.wd s.ht s.bw < 2 ^ Config.posBits := by
  have h1 : s.wd * s.ht ≤ 65535 * 65535 := Nat.mul_le_mul (Nat.le_of_lt_succ s.wd_lt) (Nat.le_of_lt_succ s.ht_lt)
  have h2 : s.wd * s.ht * s.bw ≤ 65535 * 65535 * 8 := Nat.mul_le_mul h1 hb
  simp only [imageLength, Config.posBits]
  omega

theorem State.accepted_length_le (s : State) (out : List Byte) : (s.accepted out).length ≤ out.length := by
  unfold State.accepted
  split
  · exact le_rfl
  · exact List.length_take_le' _ _

/-- The sink never takes more than its limit (20_memory.md R35). -/
theorem State.opos_add_accepted_le {s : State} {l : Nat} (hl : s.dst.limit = some l) (h : s.opos ≤ l) (out : List Byte) :
    s.opos + (s.accepted out).length ≤ l := by
  simp only [State.accepted, hl, List.length_take]
  omega

/-- Every cell DECGRID makes has its upper lanes zero (10_state.md R24). -/
theorem decodedCell_lt (b : List Byte) {B : Nat} (a : Nat) (hB : B ≤ 8) : (decodedCell b B a).toNat < 2 ^ (8 * B) := by
  have hl : ((b.drop (8 + a * B)).take B).length ≤ B := List.length_take_le _ _
  exact (laneAssemble_toNat_lt _ (hl.trans hB)).trans_le (Nat.pow_le_pow_right (by decide) (by omega))

theorem gridOf_toNat_lt {n b : Nat} {f : Nat → Cell} (hf : ∀ a, (f a).toNat < b) : ∀ kv ∈ gridOf n f, kv.2.toNat < b := by
  intro kv hkv
  simp only [gridOf, List.mem_map] at hkv
  obtain ⟨a, -, rfl⟩ := hkv
  exact hf a

/-- A value read from a grid memory is one it lists. -/
theorem GridMem.mem_of_read {m : GridMem} {a : Nat} {v : Cell} (h : m.read a = some v) : (a, v) ∈ m := by
  induction m with
  | nil => cases h
  | cons kv m ih =>
    obtain ⟨k, w⟩ := kv
    simp only [GridMem.read] at h
    split at h
    · next hk => cases h; subst hk; exact List.mem_cons_self
    · exact List.mem_cons_of_mem _ (ih h)

/-! ### The invariant inside a stage -/

/-- A conversion under way: the invariant holds but for which stage PHASE names, and no error is recorded. Every stage but IDLE
and CLOSE runs in such a state and leaves one. -/
structure State.Working (s : State) : Prop where
  /-- With PHASE at CLOSE, which requires nothing, the invariant holds. -/
  closing : State.Inv { s with phase := .close }
  noError : s.err = .none

section
variable {s : State}

theorem State.Inv.busy_of_phase (h : s.Inv) (hp : s.phase ≠ .idle) : s.busy = true :=
  Bool.eq_true_of_not_eq_false fun hb => hp (h.idleWhenNotBusy.mpr hb)

theorem State.Inv.working (h : s.Inv) (hi : s.phase ≠ .idle) (hc : s.phase ≠ .close) : s.Working where
  closing := { h with
    idleWhenNotBusy := by simp [h.busy_of_phase hi]
    errorCloses := fun _ _ => rfl
    stageIsReady := trivial }
  noError := by
    by_contra he
    exact hc (h.errorCloses (h.busy_of_phase hi) he)

theorem State.Working.busy (h : s.Working) : s.busy = true := h.closing.busy_of_phase (by simp)

/-- The sequence goes on to a stage whose requirements hold (43_orchestration.md R103). -/
theorem State.Working.enter (h : s.Working) {p : Stage} (hp : p ≠ .idle) (hr : State.stageReady { s with phase := p }) :
    State.Inv { s with phase := p } :=
  { h.closing with
    idleWhenNotBusy := by simp [h.busy, hp]
    errorCloses := fun _ he => absurd h.noError he
    stageIsReady := hr }

/-- An error sends PHASE to CLOSE (60_exceptions.md R121). -/
theorem State.Working.raised (h : s.Working) (e : ErrCode) : (raiseError e s).Inv :=
  { h.closing with
    okMeansNoError := fun hd => absurd ((h.closing.busyNotDone h.busy).1.symm.trans hd) (by decide)
    errorCloses := fun _ _ => rfl }

/-- The header registers change while no grid depends on them. -/
theorem State.Working.setHeader (h : s.Working) (hg : s.gv = false) {hd : Header} {w : BitVec 4} {v : Bool} {i d : Nat}
    (hv : v = true → hd.valid = true ∧ byteWidthOf hd.format = some w.toNat) (hi : i < 2 ^ Config.posBits) :
    State.Working { s with hdr := hd, bytew := w, hv := v, ipos := i, draws := d } where
  closing := { h.closing with
    headerValid := hv
    gridNeedsHeader := fun he => absurd (hg.symm.trans he) (by decide)
    gridDimensions := fun he => absurd (hg.symm.trans he) (by decide)
    upperLanesZero := fun he => absurd (hg.symm.trans he) (by decide)
    iposFits := hi }
  noError := h.noError

/-- The grid changes, to one that is as GV says. -/
theorem State.Working.setGrid (h : s.Working) (hv : s.hv = true) {g : GridMem} {v : Bool} {i d : Nat} (hwf : g.wf = true)
    (hex : v = true → g.map Prod.fst = List.range (s.ht * s.wd))
    (hup : v = true → ∀ kv ∈ g, kv.2.toNat < 2 ^ (8 * s.bw)) (hi : i < 2 ^ Config.posBits) :
    State.Working { s with grid := g, gv := v, ipos := i, draws := d } where
  closing := { h.closing with
    gridCanonical := hwf
    gridNeedsHeader := fun _ => hv
    gridDimensions := hex
    upperLanesZero := hup
    iposFits := hi }
  noError := h.noError

/-- The scan registers end with free values, whatever the walk left in them (93_implementation_defined.md U3). -/
theorem State.Working.forgetScan (h : s.Working) (p : Cell) (r c : BitVec 16) (l : BitVec 4) :
    (State.forgetScan { s with pix := p, row := r, col := c, lane := l }).Working where
  closing := { h.closing with laneBound := State.forgetScan_lane_le _ }
  noError := h.noError

/-- The sink takes what it accepts of `out` (20_memory.md R35). -/
theorem State.Working.gaveAccepted (h : s.Working) (ho : s.dst.isOpen = true) {out : List Byte}
    (hfit : s.opos + out.length < 2 ^ Config.posBits) : (s.gave (s.accepted out)).Working where
  closing := { h.closing with
    oposFits := lt_of_le_of_lt (Nat.add_le_add_left (s.accepted_length_le out) _) hfit
    oposCounts := fun _ => by
      obtain ⟨hc, hl⟩ := h.closing.oposCounts ho
      simp only at hc hl
      simp only [State.gave, List.length_append, ← hc, true_and]
      exact fun l hs => State.opos_add_accepted_le hs (hc ▸ hl l hs) out }
  noError := h.noError

theorem State.Working.gave (h : s.Working) (ho : s.dst.isOpen = true) {out : List Byte} (ht : s.takesAll out = true)
    (hfit : s.opos + out.length < 2 ^ Config.posBits) : (s.gave out).Working := by
  simpa only [State.accepted_of_takesAll ht] using h.gaveAccepted ho hfit

end

end Sys2Proof.Machine
end

section
/-!
PROOFS. Every stage and every move of the host keeps the invariant, and so every step does.
-/

namespace Sys2Proof.Machine

/-! ### Every stage keeps the invariant -/

section
variable {s t : State}

/-- Opening the source keeps a conversion under way (20_memory.md R31). -/
theorem State.Working.openSource (h : s.Working) :
    State.Working { s with src := { s.src with isOpen := true }, ipos := 0 } where
  closing := { h.closing with iposFits := Nat.two_pow_pos _ }
  noError := h.noError

/-- Opening the destination empties it (20_memory.md R34). -/
theorem State.Working.openDestination (h : s.Working) :
    State.Working { s with dst := { s.dst with isOpen := true, bytes := [] }, opos := 0 } where
  closing := { h.closing with
    oposFits := Nat.two_pow_pos _
    oposCounts := fun _ => ⟨rfl, fun _ _ => Nat.zero_le _⟩ }
  noError := h.noError

theorem execSrcopen_inv (h : s.Inv) (hp : s.phase = .srcopen) (he : execSrcopen s = .next t) : t.Inv := by
  have hw := h.working (by simp [hp]) (by simp [hp])
  have hr := h.stageIsReady
  simp only [State.stageReady, hp] at hr
  obtain ⟨hv, hg⟩ := hr
  rcases execSrcopen_frame he with rfl | rfl
  · exact hw.openSource.enter (by simp) ⟨rfl, hv, hg, .inl rfl⟩
  · exact hw.raised _

theorem execDechdr_inv (h : s.Inv) (hp : s.phase = .dechdr) (h0 : s.ipos = 0) (he : execDechdr s = .next t) : t.Inv := by
  have hw := h.working (by simp [hp]) (by simp [hp])
  have hr := h.stageIsReady
  simp only [State.stageReady, hp] at hr
  obtain ⟨ho, -, hg, -⟩ := hr
  by_cases hv : 8 ≤ s.src.bytes.length ∧ (headerOf s.src.bytes).valid = true
  · obtain ⟨hn, hv⟩ := hv
    obtain ⟨-, -, -, B, hB⟩ := of_valid hv
    rw [execDechdr, dechdrBody_ok ho h0 hn hv hB, Flow.onRaise_ok, stageEnd_ok] at he
    cases he
    exact (hw.setHeader hg (fun _ => ⟨hv, byteWidthOf_eq_some_bytew hB⟩) (by decide)).enter (by simp [nextStage])
      ⟨ho, rfl, hg, rfl⟩
  · obtain ⟨hd, i, d, hb, hi, -, -⟩ := dechdrBody_raise ho h0 fun hn => Bool.eq_false_of_not_eq_true fun hv' => hv ⟨hn, hv'⟩
    rw [execDechdr, hb, Flow.onRaise_raise, stageEnd_raise] at he
    cases he
    exact (hw.setHeader (v := false) hg nofun hi).raised _

theorem markerRow_inv {m : Field} (h : s.Inv) (hp : s.phase = .dechdr) (h2 : s.ipos = 2) (hm : isSentinel m = true)
    (he : markerRow m s = .next t) : t.Inv := by
  have hw := h.working (by simp [hp]) (by simp [hp])
  have hr := h.stageIsReady
  simp only [State.stageReady, hp] at hr
  obtain ⟨ho, hv, hg, -⟩ := hr
  have hnv : ∀ {P : Prop}, s.hv = true → P := fun hv' => absurd (hv.symm.trans hv') (by decide)
  have h8 : s.ipos + 6 < 2 ^ Config.posBits := by rw [h2]; decide
  by_cases hn : s.ipos + 6 ≤ s.src.bytes.length
  · rw [markerRow, acceptMarker_ok ho hn] at he
    split at he
    · cases he
      exact (hw.setHeader hg hnv h8).raised _
    · next hz =>
      cases he
      rw [not_or] at hz
      refine (hw.setHeader hg hnv h8).enter (p := s.phase) (by simp [hp]) ?_
      simp only [State.stageReady, hp]
      exact ⟨ho, hv, hg, .inr (.inr ⟨by rw [h2], hm, hz⟩)⟩
  · obtain ⟨hd, i, d, hb, hi⟩ := acceptMarker_short (m := m) ho (Nat.lt_of_not_le hn)
    rw [markerRow, hb] at he
    cases he
    exact (hw.setHeader hg hnv hi).raised _

theorem formatRow_inv (h : s.Inv) (hp : s.phase = .dechdr) (h8 : s.ipos = 8)
    (he : formatRow s.hdr.format s = .next t) : t.Inv := by
  have hw := h.working (by simp [hp]) (by simp [hp])
  have hr := h.stageIsReady
  simp only [State.stageReady, hp, h8] at hr
  obtain ⟨ho, hv, hg, hready⟩ := hr
  obtain ⟨hm, hwd, hht⟩ : isSentinel s.hdr.marker = true ∧ s.hdr.width ≠ 0 ∧ s.hdr.height ≠ 0 := by simpa using hready
  cases hb : byteWidthOf s.hdr.format with
  | some B =>
    rw [formatRow_ok s hb] at he
    cases he
    exact (hw.setHeader hg (fun _ => ⟨valid_of hm hwd hht hb, byteWidthOf_eq_some_bytew hb⟩) h.iposFits).enter (by simp)
      ⟨ho, rfl, hg, h8⟩
  | none =>
    rw [formatRow, acceptFormat, hb] at he
    cases he
    exact (hw.setHeader hg (fun hv' => absurd (hv.symm.trans hv') (by decide)) h.iposFits).raised _

/-- In DECHDR the word PHASE selects keeps the invariant, from the first byte, after the marker and after the last byte. -/
theorem runWord_codecWord_dechdr_inv (h : s.Inv) (hp : s.phase = .dechdr) (he : runWord s.codecWord s = .next t) : t.Inv := by
  have hr := h.stageIsReady
  simp only [State.stageReady, hp] at hr
  obtain ⟨ho, hv, hg, h0 | h2 | ⟨h8, -⟩⟩ := hr
  · rw [codecWord_dechdr hp (by simp [h0]) (by simp [h0])] at he
    exact execDechdr_inv h hp h0 he
  · rw [codecWord_marker hp h2, runWord_marker] at he
    split at he
    · next hm => exact markerRow_inv h hp h2 hm he
    · cases he
      exact ((h.working (by simp [hp]) (by simp [hp])).setHeader hg
        (fun hv' => absurd (hv.symm.trans hv') (by decide)) h.iposFits).raised _
  · rw [codecWord_format hp h8, runWord_format] at he
    exact formatRow_inv h hp h8 he

/-- After the grid is made or mirrored comes a flip that is asked for, or DSTOPEN (43_orchestration.md R103). -/
theorem nextStage_after_grid {st : Stage} (hst : st = .decgrid ∨ st = .fliph ∨ st = .flipv) (fh fv : Bool) :
    (nextStage fh fv st = .fliph ∧ fh = true) ∨ (nextStage fh fv st = .flipv ∧ fv = true) ∨ nextStage fh fv st = .dstopen := by
  rcases hst with rfl | rfl | rfl <;> revert fh fv <;> decide

/-- The stage after the grid is made or mirrored finds what it requires. -/
theorem stageReady_nextStage (hg : s.gv = true) {st : Stage} (hst : st = .decgrid ∨ st = .fliph ∨ st = .flipv) :
    State.stageReady { s with phase := nextStage s.fh s.fv st } := by
  rcases nextStage_after_grid hst s.fh s.fv with ⟨e, hh⟩ | ⟨e, hf⟩ | e <;> rw [e]
  · exact ⟨hg, hh⟩
  · exact ⟨hg, hf⟩
  · exact hg

theorem nextStage_ne_idle {fh fv : Bool} {st : Stage} (hi : st ≠ .idle) (hc : st ≠ .close) : nextStage fh fv st ≠ .idle := by
  revert fh fv
  cases st with
  | idle => exact absurd rfl hi
  | close => exact absurd rfl hc
  | _ => decide

/-- What HV = 1 says of the dimensions: there is a pixel, and a pixel has at most eight bytes. -/
theorem State.Inv.dimensions (h : s.Inv) (hv : s.hv = true) : 0 < s.ht * s.wd ∧ s.bw ≤ 8 := by
  obtain ⟨hval, hbw⟩ := h.headerValid hv
  obtain ⟨-, hwd, hht, -⟩ := of_valid hval
  have pos : ∀ {v : Field}, v ≠ 0 → 0 < v.toNat := fun hv => Nat.pos_of_ne_zero fun h0 => hv (BitVec.eq_of_toNat_eq h0)
  exact ⟨Nat.mul_pos (pos hht) (pos hwd), byteWidthOf_le hbw⟩

theorem execDecgrid_inv (h : s.Inv) (hp : s.phase = .decgrid) (he : execDecgrid s = .next t) : t.Inv := by
  have hw := h.working (by simp [hp]) (by simp [hp])
  have hr := h.stageIsReady
  simp only [State.stageReady, hp] at hr
  obtain ⟨ho, hv, hg, h8⟩ := hr
  obtain ⟨hpos, hb8⟩ := h.dimensions hv
  have hfit := s.imageLength_lt hb8
  have hng : ∀ {P : Prop}, s.gv = true → P := fun hg' => absurd (hg.symm.trans hg') (by decide)
  by_cases hc : s.wd * s.ht ≤ s.gridCells
  · by_cases hl : imageLength s.wd s.ht s.bw ≤ s.src.bytes.length
    · obtain ⟨r, c, l, p, hb⟩ := decgridBody_long hv ho h8 hc hl
      rw [execDecgrid, hb] at he
      split at he
      · cases he
        exact ((hw.setGrid hv (gridOf_wf _ _) (fun _ => gridOf_fst _ _)
            (fun _ => gridOf_toNat_lt fun a => decodedCell_lt s.src.bytes a hb8) hfit).forgetScan p r c l).enter
          (nextStage_ne_idle (by simp) (by simp)) (stageReady_nextStage rfl (.inl rfl))
      · cases he
        exact ((hw.setGrid hv GridMem.wf_nil hng hng hfit).forgetScan p r c l).raised _
    · obtain ⟨m, i, r, c, l, p, hb⟩ := decgridBody_short hv ho h8 hc (Nat.lt_of_not_le hl) hpos
      rw [execDecgrid, hb] at he
      cases he
      exact ((hw.setGrid hv GridMem.wf_nil hng hng (State.forgetIpos_ipos_lt _)).forgetScan p r c l).raised _
  · rw [execDecgrid, decgridBody_capacity hv ho h8 (Nat.lt_of_not_le hc)] at he
    cases he
    exact ((hw.setGrid hv GridMem.wf_nil hng hng h.iposFits).forgetScan s.pix s.row s.col s.lane).raised _

/-- Every cell's value has its upper lanes zero (10_state.md R24). -/
theorem State.Inv.cell_lt (h : s.Inv) (hg : s.gv = true) (i j : Nat) : ((s.cell i j).getD 0).toNat < 2 ^ (8 * s.bw) := by
  cases hc : s.cell i j with
  | none => exact Nat.two_pow_pos _
  | some v => exact h.upperLanesZero hg _ (GridMem.mem_of_read hc)

/-- A flip leaves a grid of the same dimensions whose cells are the grid's (42_transform_engine.md R92). -/
theorem State.Inv.flipped (h : s.Inv) {st : Stage} (hp : s.phase = st) (hst : st = .fliph ∨ st = .flipv) (hg : s.gv = true)
    {G : Nat × Nat → Cell} (hG : ∀ q, ∃ i j, G q = (s.cell i j).getD 0) {r c : BitVec 16} {x : Flow Unit}
    (hx : x = .ok () { s with grid := gridFrom s.ht s.wd G, row := r, col := c })
    (he : stageEnd st (x.finally State.forgetScan) = .next t) : t.Inv := by
  have hi : st ≠ .idle ∧ st ≠ .close := by rcases hst with rfl | rfl <;> simp
  have hw := h.working (hp ▸ hi.1) (hp ▸ hi.2)
  have hlt : ∀ q, (G q).toNat < 2 ^ (8 * s.bw) := fun q => by
    obtain ⟨i, j, hq⟩ := hG q
    exact hq ▸ h.cell_lt hg i j
  subst hx
  cases he
  exact ((hw.setGrid (h.gridNeedsHeader hg) (gridOf_wf _ _) (fun _ => gridOf_fst _ _)
      (fun _ => gridOf_toNat_lt fun _ => hlt _) h.iposFits).forgetScan s.pix r c s.lane).enter
    (nextStage_ne_idle hi.1 hi.2) (stageReady_nextStage hg (.inr hst))

theorem execFliph_inv (h : s.Inv) (hp : s.phase = .fliph) (he : execFliph s = .next t) : t.Inv := by
  have hr := h.stageIsReady
  simp only [State.stageReady, hp] at hr
  obtain ⟨hg, -⟩ := hr
  obtain ⟨r, c, hx⟩ := fliph_walk_ok (h.gridDimensions hg)
  rw [execFliph, need_of hg] at he
  exact h.flipped hp (.inl rfl) hg (fun q => ⟨_, _, rfl⟩) hx he

theorem execFlipv_inv (h : s.Inv) (hp : s.phase = .flipv) (he : execFlipv s = .next t) : t.Inv := by
  have hr := h.stageIsReady
  simp only [State.stageReady, hp] at hr
  obtain ⟨hg, -⟩ := hr
  obtain ⟨r, c, hx⟩ := flipv_walk_ok (h.gridDimensions hg)
  rw [execFlipv, need_of hg] at he
  exact h.flipped hp (.inr rfl) hg (fun q => ⟨_, _, rfl⟩) hx he

theorem execDstopen_inv (h : s.Inv) (hp : s.phase = .dstopen) (he : execDstopen s = .next t) : t.Inv := by
  have hw := h.working (by simp [hp]) (by simp [hp])
  have hg := h.stageIsReady
  simp only [State.stageReady, hp] at hg
  rcases execDstopen_frame he with rfl | rfl
  · exact hw.openDestination.enter (by simp) ⟨hg, rfl, rfl⟩
  · exact hw.raised _

theorem execEnchdr_inv (h : s.Inv) (hp : s.phase = .enchdr) (he : execEnchdr s = .next t) : t.Inv := by
  have hw := h.working (by simp [hp]) (by simp [hp])
  have hr := h.stageIsReady
  simp only [State.stageReady, hp] at hr
  obtain ⟨hg, ho, h0⟩ := hr
  have hfit : s.opos + (headerBytes s.hdr).length < 2 ^ Config.posBits := by rw [h0, headerBytes_length]; decide
  rw [execEnchdr, enchdrBody_eq (h.gridNeedsHeader hg) ho h0] at he
  split at he
  · next ht =>
    cases he
    exact (hw.gave ho ht hfit).enter (by simp [nextStage]) ⟨hg, ho, by simp [State.gave, h0]⟩
  · cases he
    exact (hw.gaveAccepted ho hfit).raised _

theorem execEncgrid_inv (h : s.Inv) (hp : s.phase = .encgrid) (he : execEncgrid s = .next t) : t.Inv := by
  have hw := h.working (by simp [hp]) (by simp [hp])
  have hr := h.stageIsReady
  simp only [State.stageReady, hp] at hr
  obtain ⟨hg, ho, h8⟩ := hr
  have hfit : s.opos + s.payload.length < 2 ^ Config.posBits := by
    rw [h8, State.payload_length, ← imageLength_eq]
    exact s.imageLength_lt (h.dimensions (h.gridNeedsHeader hg)).2
  obtain ⟨r, c, l, p, hb⟩ := encgridBody_eq hg ho h8 (h.gridDimensions hg)
  rw [execEncgrid, hb] at he
  split at he
  · next ht =>
    cases he
    exact ((hw.gave ho ht hfit).forgetScan p r c l).enter (by simp [nextStage]) trivial
  · cases he
    exact ((hw.gaveAccepted ho hfit).forgetScan p r c l).raised _

theorem execClose_inv (h : s.Inv) (he : execClose s = .next t) : t.Inv := by
  cases he
  exact { h with
    gridCanonical := rfl
    gridNeedsHeader := nofun
    gridDimensions := nofun
    upperLanesZero := nofun
    idleWhenNotBusy := by simp
    busyNotDone := nofun
    okMeansNoError := fun _ => decide_eq_true_iff
    errorCloses := nofun
    oposCounts := nofun
    stageIsReady := ⟨rfl, rfl, rfl⟩ }

/-- The word PHASE selects keeps the invariant. -/
theorem runWord_codecWord_inv (h : s.Inv) (he : runWord s.codecWord s = .next t) : t.Inv := by
  by_cases hd : s.phase = .dechdr
  · exact runWord_codecWord_dechdr_inv h hd he
  · rw [runWord_codecWord_of_not_dechdr hd] at he
    cases hp : s.phase <;> rw [hp] at he
    case idle => cases he; exact h
    case srcopen => exact execSrcopen_inv h hp he
    case dechdr => exact absurd hp hd
    case decgrid => exact execDecgrid_inv h hp he
    case fliph => exact execFliph_inv h hp he
    case flipv => exact execFlipv_inv h hp he
    case dstopen => exact execDstopen_inv h hp he
    case enchdr => exact execEnchdr_inv h hp he
    case encgrid => exact execEncgrid_inv h hp he
    case close => exact execClose_inv h he

/-! ### The host's moves keep the invariant -/

/-- An idle block has no grid, and both streams are closed. -/
theorem State.Inv.ready_of_not_busy (h : s.Inv) (hb : s.busy = false) :
    s.phase = .idle ∧ s.gv = false ∧ s.src.isOpen = false ∧ s.dst.isOpen = false := by
  have hp := h.idleWhenNotBusy.mpr hb
  have hr := h.stageIsReady
  simp only [State.stageReady, hp] at hr
  exact ⟨hp, hr⟩

theorem State.Inv.start (h : s.Inv) (hb : s.busy = false) (fh fv : Bool) : (s.start fh fv).Inv := by
  obtain ⟨-, -, -, ho⟩ := h.ready_of_not_busy hb
  exact { h with
    gridCanonical := rfl
    headerValid := nofun
    gridNeedsHeader := nofun
    gridDimensions := nofun
    upperLanesZero := nofun
    idleWhenNotBusy := by simp
    busyNotDone := fun _ => ⟨rfl, rfl⟩
    okMeansNoError := nofun
    errorCloses := fun _ he => absurd rfl he
    stageIsReady := ⟨rfl, rfl⟩ }

theorem refuseCommand_inv (h : s.Inv) : (refuseCommand s).Inv := by
  unfold refuseCommand
  split
  · exact h
  · next hb =>
    exact { h with
      busyNotDone := fun hb' => absurd hb' hb
      okMeansNoError := fun _ => by simp
      errorCloses := fun hb' => absurd hb' hb }

theorem runWord_command_inv {c : BitVec 8} (h : s.Inv) (he : runWord (.command c) s = .next t) : t.Inv := by
  rcases runWord_command c s with ⟨fh, fv, hc⟩ | hc <;> rw [hc] at he
  · unfold execConvert at he
    split at he
    · cases he; exact h
    · next hb => cases he; exact h.start (Bool.eq_false_of_not_eq_true hb) fh fv
  · cases he; exact refuseCommand_inv h

/-- The reset event makes a state that meets the invariant out of any state (70_reset_and_hazards.md R130). -/
theorem State.resetEvent_inv (s : State) (given : Nat) : (s.resetEvent given).Inv where
  gridCanonical := rfl
  headerValid := nofun
  gridNeedsHeader := nofun
  gridDimensions := nofun
  upperLanesZero := nofun
  idleWhenNotBusy := by simp [State.resetEvent]
  busyNotDone := nofun
  okMeansNoError := nofun
  errorCloses := nofun
  laneBound := State.forgetScan_lane_le s.forgetHeader
  iposFits := Nat.two_pow_pos _
  oposFits := Nat.two_pow_pos _
  oposCounts := nofun
  stageIsReady := ⟨rfl, rfl, rfl⟩

/-- Closed streams may hold anything. -/
theorem State.Inv.bind (h : s.Inv) (hb : s.busy = false) (src : Src) (dst : Dst) (hs : src.isOpen = s.src.isOpen)
    (hd : dst.isOpen = s.dst.isOpen) : State.Inv { s with src := src, dst := dst } := by
  obtain ⟨hp, hg, hso, hdo⟩ := h.ready_of_not_busy hb
  exact { h with
    oposCounts := fun ho => absurd ((hd.trans hdo).symm.trans ho) (by decide)
    stageIsReady := by simp only [State.stageReady, hp]; exact ⟨hg, hs.trans hso, hd.trans hdo⟩ }

theorem hostMove_inv {m : HostMove} (h : s.Inv) (he : hostMove m s = .next t) : t.Inv := by
  cases m with
  | writeCmd c => cases he; exact h
  | writeOther n v => cases he; exact h
  | wait => cases he; exact h
  | read n =>
    cases he
    obtain ⟨r, d, hr⟩ := readRegister_frame s n
    exact hr ▸ h.environment s.host r d
  | reset given => cases he; exact s.resetEvent_inv given
  | bindSrc ok bytes =>
    simp only [hostMove] at he
    split at he
    · cases he
    · next hb => cases he; exact h.bind (Bool.eq_false_of_not_eq_true hb) { s.src with ok := ok, bytes := bytes } s.dst rfl rfl
  | bindDst ok limit bytes =>
    simp only [hostMove] at he
    split at he
    · cases he
    · next hb =>
      cases he
      exact h.bind (Bool.eq_false_of_not_eq_true hb) s.src { s.dst with ok := ok, limit := limit, bytes := bytes } rfl rfl

end

/-- Settles O45: the host's move is no part of the invariant, and the word PHASE selects, every command word and every other
move of the host keeps it. -/
theorem stepKeepsTheInvariant : Obligations.StepKeepsTheInvariant := by
  intro s t h he
  have hpop : s.popHost.Inv := h.environment s.host.tail s.rdata s.draws
  rcases step_cases he with hw | ⟨c, hc⟩ | ⟨m, hm⟩
  · exact runWord_codecWord_inv hpop hw
  · exact runWord_command_inv hpop hc
  · exact hostMove_inv hpop hm

end Sys2Proof.Machine
end

section
/-!
PROOFS. What no instruction does, the host's moves, and the words a step runs.
-/

namespace Sys2Proof.Machine

/-! ### What no instruction does -/

/-- Settles O32: each listed stage ends in one of the ways `Ends` gives it, and none of these writes HDR, BYTEW or HV. -/
theorem onlyDechdrWritesTheHeader : Obligations.OnlyDechdrWritesTheHeader := by
  intro i s t h hi
  have hno : ¬ (HeaderWhole i ∨ i = .markerLittle ∨ i = .markerBig) := by
    rintro ((rfl | rfl | rfl | rfl | rfl | rfl | rfl | rfl | rfl | rfl) | rfl | rfl) <;> simp at hi
  cases exec_ends h with
  | header _ hw => exact absurd (.inl hw) hno
  | headerFailed _ hw => exact absurd hw hno
  | marker _ hm => exact absurd (.inr hm) hno
  | started => simp at hi
  | _ => exact ⟨rfl, rfl, rfl⟩

/-- Settles O33: of the ways an instruction can end only those of DECGRID, the flips, CLOSE and an accepted CONVERT touch the
grid or GV. -/
theorem onlyGridStagesWriteTheGrid : Obligations.OnlyGridStagesWriteTheGrid := by
  intro i s t h hi
  cases exec_ends h with
  | grid => simp at hi
  | gridFailed => simp at hi
  | flip _ _ hf => rcases hf with ⟨rfl, -⟩ | ⟨rfl, -⟩ <;> simp at hi
  | flipFailed _ hf => rcases hf with rfl | rfl <;> simp at hi
  | closed => simp at hi
  | started a b => cases a <;> cases b <;> simp at hi
  | _ => exact ⟨rfl, rfl⟩

/-- Settles O34: no end of an instruction touches the host's inputs, and only the acceptance of CONVERT latches FH and FV. -/
theorem inputsAndFlagsStayFixed : Obligations.InputsAndFlagsStayFixed := by
  intro i s t h
  cases exec_ends h with
  | started a b => exact ⟨rfl, rfl, rfl, rfl, rfl, rfl, rfl, fun hi => absurd rfl (hi a b)⟩
  | _ => exact ⟨rfl, rfl, rfl, rfl, rfl, rfl, rfl, fun _ => ⟨rfl, rfl⟩⟩

/-- Settles O36: the ends that change BUSY, DONE or OK are those of CONVERT and CLOSE, and every end that records an error goes
to CLOSE. -/
theorem statusIsSetOnlyAtTheEnds : Obligations.StatusIsSetOnlyAtTheEnds := by
  intro i s t h hi
  cases exec_ends h with
  | started a b => exact absurd rfl (hi a b)
  | closed => exact ⟨fun hc => absurd rfl hc, fun he => absurd rfl he⟩
  | srcFailed => exact ⟨fun _ => ⟨rfl, rfl, rfl⟩, fun _ => rfl⟩
  | headerFailed => exact ⟨fun _ => ⟨rfl, rfl, rfl⟩, fun _ => rfl⟩
  | gridFailed => exact ⟨fun _ => ⟨rfl, rfl, rfl⟩, fun _ => rfl⟩
  | flipFailed => exact ⟨fun _ => ⟨rfl, rfl, rfl⟩, fun _ => rfl⟩
  | dstFailed => exact ⟨fun _ => ⟨rfl, rfl, rfl⟩, fun _ => rfl⟩
  | gaveFailed => exact ⟨fun _ => ⟨rfl, rfl, rfl⟩, fun _ => rfl⟩
  | _ => exact ⟨fun _ => ⟨rfl, rfl, rfl⟩, fun he => absurd rfl he⟩

/-! ### PHASE -/

/-- The sequence of stages never goes back, but from CLOSE to IDLE (43_orchestration.md R103). -/
theorem code_le_nextStage {st : Stage} (hc : st ≠ .close) (fh fv : Bool) :
    st.code.toNat ≤ (nextStage fh fv st).code.toNat := by
  revert fh fv
  cases st with
  | close => exact absurd rfl hc
  | _ => decide

theorem code_le_close (st : Stage) : st.code.toNat ≤ Stage.close.code.toNat := by
  cases st <;> decide

/-- A flip follows another stage only when its flag asks for it (43_orchestration.md R103). -/
theorem flag_of_nextStage {st : Stage} {fh fv : Bool} :
    (nextStage fh fv st = .fliph → fh = true) ∧ (nextStage fh fv st = .flipv → fv = true) := by
  revert fh fv
  cases st <;> decide

/-- The moves of PHASE by the word it selects: it stays, goes on to the next stage, or goes to CLOSE; CLOSE ends with
BUSY = 0. -/
theorem phase_of_runWord_codecWord {s t : State} (h : runWord s.codecWord s = .next t) :
    t.phase = s.phase ∨ t.phase = .close ∨
      t.phase = nextStage s.fh s.fv s.phase ∧ (s.phase = .close → t.busy = false) := by
  by_cases hd : s.phase = .dechdr
  · by_cases h2 : s.ipos = 2
    · rw [codecWord_marker hd h2, runWord_marker] at h
      split at h
      · obtain ⟨u, ⟨_, _, _, _, _, rfl⟩, rfl | ⟨e, rfl⟩⟩ := markerRow_frame h
        · exact .inl rfl
        · exact .inr (.inl rfl)
      · cases h; exact .inr (.inl rfl)
    · have hframe : ∃ u, HeaderFrame s u ∧ (t = { u with phase := .decgrid } ∨ ∃ e, t = raiseError e u) := by
        by_cases h8 : s.ipos = 8
        · rw [codecWord_format hd h8, runWord_format] at h; exact formatRow_frame h
        · rw [codecWord_dechdr hd h2 h8] at h; exact execDechdr_frame h
      rw [hd]
      obtain ⟨u, -, rfl | ⟨e, rfl⟩⟩ := hframe
      · exact .inr (.inr ⟨rfl, nofun⟩)
      · exact .inr (.inl rfl)
  · rw [runWord_codecWord_of_not_dechdr hd] at h
    cases hp : s.phase <;> rw [hp] at h
    case dechdr => exact absurd hp hd
    case idle => cases h; exact .inl hp
    case close => cases h; exact .inr (.inr ⟨rfl, fun _ => rfl⟩)
    case srcopen => rcases execSrcopen_frame h with rfl | rfl <;> simp [nextStage]
    case dstopen => rcases execDstopen_frame h with rfl | rfl <;> simp [nextStage]
    case decgrid => obtain ⟨u, ⟨_, _, _, _, _, _, _, _, rfl⟩, rfl | ⟨e, rfl⟩⟩ := execDecgrid_frame h <;> simp [raiseError]
    case fliph => obtain ⟨u, ⟨_, _, _, _, _, _, rfl⟩, rfl | ⟨e, rfl⟩⟩ := execFliph_frame h <;> simp [raiseError]
    case flipv => obtain ⟨u, ⟨_, _, _, _, _, _, rfl⟩, rfl | ⟨e, rfl⟩⟩ := execFlipv_frame h <;> simp [raiseError]
    case enchdr => obtain ⟨u, -, rfl | ⟨e, rfl⟩⟩ := execEnchdr_frame h <;> simp [raiseError, nextStage]
    case encgrid => obtain ⟨u, -, rfl | ⟨e, rfl⟩⟩ := execEncgrid_frame h <;> simp [raiseError]

/-- A command word written while BUSY = 1 changes nothing (43_orchestration.md R104). -/
theorem runWord_command_of_busy {s : State} (hb : s.busy = true) (c : BitVec 8) : runWord (.command c) s = .next s := by
  rcases runWord_command c s with ⟨fh, fv, hc⟩ | hc
  · rw [hc, execConvert, if_pos hb]
  · rw [hc, refuseCommand, if_pos hb]

/-- No move of the host but the reset changes PHASE. -/
theorem phase_of_hostMove {m : HostMove} {s t : State} (h : hostMove m s = .next t) :
    t.phase = s.phase ∨ t.busy = false := by
  cases m with
  | read n =>
    cases h
    obtain ⟨r, d, hr⟩ := readRegister_frame s n
    exact .inl (by rw [hr])
  | reset given => cases h; exact .inr rfl
  | bindSrc ok bytes =>
    simp only [hostMove] at h
    split at h <;> cases h
    exact .inl rfl
  | bindDst ok limit bytes =>
    simp only [hostMove] at h
    split at h <;> cases h
    exact .inl rfl
  | _ => cases h; exact .inl rfl

/-- The moves of PHASE while a conversion stays under way: it stays, goes on to the next stage, or goes to CLOSE. -/
theorem phase_of_step {s t : State} (hb : s.busy = true) (h : step s = .next t) (hb' : t.busy = true) :
    t.phase = s.phase ∨ t.phase = .close ∨ t.phase = nextStage s.fh s.fv s.phase ∧ s.phase ≠ .close := by
  rcases step_cases h with hw | ⟨c, hc⟩ | ⟨m, hm⟩
  · rcases phase_of_runWord_codecWord hw with e | e | ⟨e, hn⟩
    · exact .inl e
    · exact .inr (.inl e)
    · exact .inr (.inr ⟨e, fun hp => by simp [hn hp] at hb'⟩)
  · rw [runWord_command_of_busy (by exact hb)] at hc
    cases hc
    exact .inl rfl
  · rcases phase_of_hostMove hm with e | e
    · exact .inl e
    · simp [e] at hb'

/-- Settles O48: PHASE stays, goes on along the sequence or jumps to CLOSE, the last stage. -/
theorem phaseNeverMovesBackwards : Obligations.PhaseNeverMovesBackwards := by
  intro s t hb h hb'
  rcases phase_of_step hb h hb' with e | e | ⟨e, hc⟩ <;> rw [e]
  · exact ⟨le_rfl, fun hf hn => absurd hf hn, fun hf hn => absurd hf hn⟩
  · exact ⟨code_le_close _, nofun, nofun⟩
  · exact ⟨code_le_nextStage hc _ _, fun hf _ => flag_of_nextStage.1 hf, fun hf _ => flag_of_nextStage.2 hf⟩

/-! ### The host -/

theorem popHost_of_cons {s : State} {m : HostMove} {rest : List HostMove} (hh : s.host = m :: rest) :
    s.popHost = { s with host := rest } := by
  rw [State.popHost, hh]
  rfl

/-- A move that is neither a command word nor a wait is taken as it is (log entry 4). -/
theorem step_of_move {s : State} {m : HostMove} {rest : List HostMove} (hh : s.host = m :: rest) (hw : m ≠ .wait)
    (hc : ∀ c, m ≠ .writeCmd c) : step s = hostMove m { s with host := rest } := by
  have hwork : s.work = .move m := by
    cases m with
    | wait => exact absurd rfl hw
    | writeCmd c => exact absurd rfl (hc c)
    | _ => simp only [State.work, hh]
  rw [step, hwork, popHost_of_cons hh]

/-- STATUS as a number (10_state.md R18): ERR in bits 7:4, then HV, OK, DONE, BUSY. -/
theorem State.statusByte_toNat (s : State) :
    s.statusByte.toNat =
      16 * s.err.code.toNat + 8 * s.hv.toNat + 4 * s.ok.toNat + 2 * s.done.toNat + s.busy.toNat := by
  have key : ∀ (e : BitVec 4) (a b c d : Bool),
      (e ++ BitVec.ofBool a ++ BitVec.ofBool b ++ BitVec.ofBool c ++ BitVec.ofBool d).toNat =
        16 * e.toNat + 8 * a.toNat + 4 * b.toNat + 2 * c.toNat + d.toNat := by decide
  exact key _ _ _ _ _

/-- A register of eight bits reads as a number below 256. -/
theorem toNat_setWidth_byte (v : BitVec 8) : (v.setWidth 16).toNat = v.toNat := by
  rw [BitVec.toNat_setWidth, Nat.mod_eq_of_lt (by omega)]

/-- Bit 0 of STATUS is set while BUSY = 1, whatever the other bits are (U7). -/
theorem toNat_or_one_mod_two (v : BitVec 8) : (v ||| 1).toNat % 2 = 1 := by
  rw [BitVec.toNat_or]
  simp [Nat.or_mod_two_eq_one]

/-- A header register read while HV = 1 and BUSY = 0 (10_state.md R23). -/
theorem State.reliableOr_rdata {s : State} (hv : s.hv = true) (hb : s.busy = false) (v : BitVec 16) (n : Nat) :
    (s.reliableOr v n).rdata = v := by
  simp [State.reliableOr, hv, hb]

/-- HDR_BYTEW has eight bits, read reliably or not (10_state.md R17). -/
theorem State.reliableOr_byte_lt (s : State) (v : BitVec 8) : (s.reliableOr (v.setWidth 16) 8).rdata.toNat < 256 := by
  unfold State.reliableOr
  split
  · exact (toNat_setWidth_byte v).trans_lt v.isLt
  · exact (toNat_setWidth_byte _).trans_lt (BitVec.isLt _)

/-- Settles O38, register by register. -/
theorem hostReadsTheRegisters : Obligations.HostReadsTheRegisters := by
  intro s n rest hh
  have hstep := step_of_move hh nofun nofun
  obtain ⟨r, d, hr⟩ := readRegister_frame { s with host := rest } n
  refine ⟨_, hstep, by rw [hr], ?_, ?_, ?_, ?_, ?_, ?_⟩
  · rintro rfl; rfl
  · rintro rfl hb
    simp only [State.readRegister, hb, Bool.false_eq_true, if_false]
    exact (toNat_setWidth_byte _).trans (State.statusByte_toNat _)
  · rintro rfl hb
    simp only [State.readRegister, hb, if_true, toNat_setWidth_byte]
    exact ⟨toNat_or_one_mod_two _, BitVec.isLt _⟩
  · intro hv hb
    have hread : ∀ v k, (State.reliableOr { s with host := rest } v k).rdata = v := State.reliableOr_rdata hv hb
    refine ⟨?_, ?_, ?_, ?_, ?_⟩ <;> rintro rfl
    · exact hread _ _
    · exact hread _ _
    · exact hread _ _
    · exact hread _ _
    · rw [State.readRegister, hread, toNat_setWidth_byte, BitVec.toNat_setWidth_of_le (by decide)]
  · rintro rfl; exact State.reliableOr_byte_lt _ _
  · intro hn
    obtain ⟨k, rfl⟩ := Nat.exists_eq_add_of_le' hn
    rfl

/-- Outside ENCHDR and ENCGRID a reset cuts off nothing (70_reset_and_hazards.md R131). -/
theorem State.cutBytes_of_no_output {s : State} (h1 : s.phase ≠ .enchdr) (h2 : s.phase ≠ .encgrid) (given : Nat) :
    s.cutBytes given = s.dst.bytes := by
  unfold State.cutBytes
  cases hp : s.phase with
  | enchdr => exact absurd hp h1
  | encgrid => exact absurd hp h2
  | _ => rfl

/-- Settles O42: `State.resetEvent` writes R27's values out. -/
theorem resetEventMakesTheBlockIdle : Obligations.ResetEventMakesTheBlockIdle := by
  intro s given rest hh
  refine ⟨_, step_of_move hh nofun nofun, ?_⟩
  refine ⟨rfl, rfl, rfl, rfl, rfl, rfl, rfl, rfl, rfl, rfl, rfl, rfl, rfl, fun i j => rfl, fun h1 h2 => ?_, rfl, rfl, rfl⟩
  exact State.cutBytes_of_no_output (s := { s with host := rest }) h1 h2 given

theorem work_of_writeCmd {s : State} {c : BitVec 8} {rest : List HostMove} (hh : s.host = .writeCmd c :: rest) :
    s.work = .word (.command c) := by
  simp only [State.work, hh]

theorem work_of_wait {s : State} (hh : s.host = [] ∨ s.host.head? = some .wait) : s.work = .word s.codecWord := by
  unfold State.work
  rcases hh with hh | hh
  · rw [hh]
  · obtain ⟨rest, hh⟩ := List.head?_eq_some_iff.mp hh
    rw [hh]

/-- Settles O39: a step takes such a write as it is, and a wait as no move at all. -/
theorem otherWritesAreIgnoredAndWaitPerformsAStage : Obligations.OtherWritesAreIgnoredAndWaitPerformsAStage := by
  refine ⟨fun s n v rest hh => step_of_move hh nofun nofun, fun s rest hh => ?_, fun s hh => step_of_silent_host hh⟩
  rw [step, work_of_wait (.inr (by rw [hh]; rfl)), popHost_of_cons hh]

/-- Settles O41: the values stand in `State.reset`. -/
theorem resetStateHasTheGivenValues : Obligations.ResetStateHasTheGivenValues := by
  unfold Obligations.ResetStateHasTheGivenValues
  decide

/-- Settles O44: with BUSY, HV and GV at 0 and both streams closed most of the invariant is vacuous. -/
theorem resetStateMeetsTheInvariant : Obligations.ResetStateMeetsTheInvariant where
  gridCanonical := rfl
  headerValid := nofun
  gridNeedsHeader := nofun
  gridDimensions := nofun
  upperLanesZero := nofun
  idleWhenNotBusy := by decide
  busyNotDone := nofun
  okMeansNoError := nofun
  errorCloses := nofun
  laneBound := by decide
  iposFits := by decide
  oposFits := by decide
  oposCounts := nofun
  stageIsReady := ⟨rfl, rfl, rfl⟩

/-! ### The words a step runs -/

/-- Settles O4: a law of `State.work` or of `State.codecWord` for each way a word is selected, and `runWord` of a decoded word. -/
theorem stepRunsTheDecodedWord : Obligations.StepRunsTheDecodedWord := by
  refine ⟨fun s w i hw hd => ?_, fun s c rest hh => work_of_writeCmd hh, fun s hh => work_of_wait hh,
    fun s hp => codecWord_of_not_dechdr hp, fun s hp h2 h8 => codecWord_dechdr hp h2 h8,
    fun s hp h2 => codecWord_marker hp h2, fun s hp h8 => codecWord_format hp h8⟩
  rw [step, hw]
  simp only [runWord, hd]
  rfl

/-- The stage of a legal stage code has that code (30_encoding.md R60). -/
theorem stageOf_code : ∀ c : BitVec 4, c.toNat ≤ 9 → (stageOf c).code = c := by decide

@[simp] theorem State.enterStage_phase (s : State) (st : Stage) : (s.enterStage st).phase = st := by
  cases st <;> rfl

/-- Settles O5: a command word is placed as the host's move, and any other word is what `State.codecWord` selects in the
placed state. -/
theorem placedWordRunsNext : Obligations.PlacedWordRunsNext := by
  intro s w hw
  cases w with
  | command c => exact work_of_writeCmd rfl
  | stage c =>
    rw [work_of_wait (.inr rfl)]
    congr 1
    have hcode : (stageOf c).code = c := stageOf_code c (by simpa [CodeWord.legal] using hw)
    have hphase : (s.selectWord (.stage c)).phase = stageOf c := State.enterStage_phase s _
    by_cases hd : stageOf c = .dechdr
    · have hipos : (s.selectWord (.stage c)).ipos = 0 := by simp [State.selectWord, hd, State.enterStage]
      rw [codecWord_dechdr (hphase.trans hd) (by simp [hipos]) (by simp [hipos]), ← hd, hcode]
    · rw [codecWord_of_not_dechdr (by rwa [hphase]), hphase, hcode]
  | marker m =>
    rw [work_of_wait (.inr rfl), codecWord_marker rfl rfl]
    exact congrArg (Work.word ∘ CodeWord.marker) (rawOf_splitRaw m)
  | format f => rw [work_of_wait (.inr rfl), codecWord_format rfl rfl]; rfl

/-- An illegal marker is refused by name (30_encoding.md R52). -/
theorem decode_marker_illegal {m : Field} (h : (CodeWord.marker m).legal = false) :
    decode (.marker m) = .error .illegalMarker := by
  simp only [CodeWord.legal, isSentinel, Bool.or_eq_false_iff, beq_eq_false_iff_ne] at h
  simp [decode, decodeMarker, h]

/-- Every code PHASE can hold is legal (10_state.md R19). -/
theorem Stage.code_legal (p : Stage) : (CodeWord.stage p.code).legal = true := by
  cases p <;> decide

/-- The stage code the machine selects is one of PHASE's. -/
theorem codecWord_stage {s : State} {c : BitVec 4} (h : s.codecWord = .stage c) : ∃ p : Stage, c = p.code := by
  unfold State.codecWord at h
  split at h
  · split at h
    · cases h
    · split at h <;> cases h
      exact ⟨_, rfl⟩
  · cases h; exact ⟨_, rfl⟩

/-- Settles O55: the decoder refuses the word by name, and `rejectWord` raises the error of its field. -/
theorem illegalHeaderWordRaisesItsError : Obligations.IllegalHeaderWordRaisesItsError := by
  refine ⟨fun s m hw hl => ?_, fun s f hw hl => ?_, fun s c hw => ?_⟩
  · refine ⟨raiseError .invalidMarker s.popHost.forgetHeader, ?_, rfl⟩
    simp only [step, hw, runWord, decode_marker_illegal hl, rejectWord]
  · refine ⟨raiseError .unsupportedFormat s.popHost.forgetHeader, ?_, rfl⟩
    simp only [step, hw, runWord, decode_format_illegal hl, rejectWord]
  · rcases work_word hw with ⟨_, hc⟩ | hc
    · cases hc
    · obtain ⟨p, rfl⟩ := codecWord_stage hc.symm
      exact p.code_legal

end Sys2Proof.Machine
end

section
/-!
PROOFS. The grid memory and the destination: every step keeps the canonical form, the destination only grows, no stage is used
outside what it requires, and where it would be it stops by name.
-/

namespace Sys2Proof.Machine

/-! ### The canonical form of the grid memory -/

/-- The grid memory is in canonical form (log entry 3). -/
def State.GridCanonical (s : State) : Prop := s.grid.wf = true

section
variable {s t : State}

theorem State.GridCanonical.forgetScan (h : s.GridCanonical) : s.forgetScan.GridCanonical := h

theorem State.forgetGrid_gridCanonical (s : State) : s.forgetGrid.GridCanonical := GridMem.wf_nil

theorem gridWrite_gridCanonical (i j : Nat) (v : Cell) (h : s.GridCanonical) :
    (gridWrite i j v s).All State.GridCanonical :=
  gridWrite_all _ _ _ _ (GridMem.write_wf h _ _)

theorem gridRead_gridCanonical (i j : Nat) (h : s.GridCanonical) : (gridRead i j s).All State.GridCanonical :=
  gridRead_all _ _ _ h

/-- A walk whose body keeps the canonical form keeps it. -/
theorem walk_gridCanonical {body : State → Flow Unit} (hb : ∀ s, s.GridCanonical → (body s).All State.GridCanonical)
    (L : List (Nat × Nat)) (h : s.GridCanonical) : (walk body L s).All State.GridCanonical :=
  walk_all hb (fun _ _ h => h) L h

theorem decPixel_gridCanonical (h : s.GridCanonical) : (decPixel s).All State.GridCanonical := by
  refine (takeOr_frame _ _ _).bind ?_ ?_
  · rintro _ ⟨_, _, rfl⟩
    exact h
  · rintro p _ ⟨_, _, rfl⟩
    exact gridWrite_gridCanonical _ _ _ h

/-- DECGRID builds its grid from the empty one by writes alone (41_pixel_grid_codec.md R82). -/
theorem decgridBody_gridCanonical (h : s.GridCanonical) : (decgridBody s).All State.GridCanonical := by
  refine need_all (need_all (need_all ?_))
  split
  · exact h
  · refine (walk_gridCanonical (fun _ => gridWrite_gridCanonical _ _ _) _ s.forgetGrid_gridCanonical).bind (fun _ h => h)
      fun _ s1 h1 => ?_
    refine (walk_gridCanonical (fun _ => decPixel_gridCanonical) _ h1).bind (fun _ h => h) fun _ s2 h2 => ?_
    split <;> exact h2

/-- An exchange is two reads and two writes (42_transform_engine.md R90). -/
theorem exchange_gridCanonical (i j i' j' : Nat) (h : s.GridCanonical) :
    (exchange i j i' j' s).All State.GridCanonical :=
  (gridRead_gridCanonical _ _ h).bind (fun _ h => h) fun _ _ h1 =>
    (gridRead_gridCanonical _ _ h1).bind (fun _ h => h) fun _ _ h2 =>
      (gridWrite_gridCanonical _ _ _ h2).bind (fun _ h => h) fun _ _ h3 => gridWrite_gridCanonical _ _ _ h3

/-- The end of a stage leaves the grid memory alone. -/
theorem stageEnd_gridCanonical {st : Stage} {x : Flow Unit} (hx : x.All State.GridCanonical)
    (h : stageEnd st x = .next t) : t.GridCanonical := by
  obtain ⟨u, hu, rfl | ⟨e, rfl⟩⟩ := stageEnd_all hx h
  · exact hu
  · exact hu

theorem execDecgrid_gridCanonical (h : s.GridCanonical) (he : execDecgrid s = .next t) : t.GridCanonical :=
  stageEnd_gridCanonical
    (((decgridBody_gridCanonical h).onRaise (fun s _ => s.forgetGrid_gridCanonical) fun _ h => h).finally
      fun _ h => h.forgetScan) he

theorem execFliph_gridCanonical (h : s.GridCanonical) (he : execFliph s = .next t) : t.GridCanonical :=
  stageEnd_gridCanonical
    ((need_all (walk_gridCanonical (fun _ => exchange_gridCanonical _ _ _ _) _ h)).finally fun _ h => h.forgetScan) he

theorem execFlipv_gridCanonical (h : s.GridCanonical) (he : execFlipv s = .next t) : t.GridCanonical :=
  stageEnd_gridCanonical
    ((need_all (walk_gridCanonical (fun _ => exchange_gridCanonical _ _ _ _) _ h)).finally fun _ h => h.forgetScan) he

/-- An instruction that writes the grid keeps its canonical form or empties it; every other one leaves the grid alone. -/
theorem exec_gridCanonical {i : Instr} (h : s.GridCanonical) (he : exec i s = .next t) : t.GridCanonical := by
  cases exec_ends he with
  | grid | gridFailed => exact execDecgrid_gridCanonical h he
  | flip _ _ hi =>
    rcases hi with ⟨rfl, -⟩ | ⟨rfl, -⟩
    · exact execFliph_gridCanonical h he
    · exact execFlipv_gridCanonical h he
  | flipFailed _ hi =>
    rcases hi with rfl | rfl
    · exact execFliph_gridCanonical h he
    · exact execFlipv_gridCanonical h he
  | started | closed => exact GridMem.wf_nil
  | _ => exact h

theorem refuseCommand_grid (s : State) : (refuseCommand s).grid = s.grid := by
  unfold refuseCommand
  split <;> rfl

/-- A word that is no instruction leaves the grid alone. -/
theorem rejectWord_gridCanonical {e : DecodeError} (h : s.GridCanonical) (he : rejectWord e s = .next t) :
    t.GridCanonical := by
  cases e with
  | illegalCommand => cases he; exact (congrArg GridMem.wf (refuseCommand_grid s)).trans h
  | _ => cases he; exact h

theorem runWord_gridCanonical {w : CodeWord} (h : s.GridCanonical) (he : runWord w s = .next t) : t.GridCanonical := by
  unfold runWord at he
  split at he
  · exact exec_gridCanonical h he
  · exact rejectWord_gridCanonical h he

/-- No move of the host writes a cell; the reset event empties the grid. -/
theorem hostMove_gridCanonical {m : HostMove} (h : s.GridCanonical) (he : hostMove m s = .next t) : t.GridCanonical := by
  cases m with
  | read n =>
    cases he
    obtain ⟨r, d, hr⟩ := readRegister_frame s n
    rw [hr]
    exact h
  | reset given => cases he; exact GridMem.wf_nil
  | bindSrc ok bytes =>
    simp only [hostMove] at he
    split at he <;> cases he
    exact h
  | bindDst ok limit bytes =>
    simp only [hostMove] at he
    split at he <;> cases he
    exact h
  | _ => cases he; exact h

end

/-- Settles O47: whatever a step runs, a word or a move of the host, changes the grid memory only by the writes of
`GridMem.write` or by emptying it. -/
theorem stepKeepsTheGridCanonical : Obligations.StepKeepsTheGridCanonical := by
  intro s t h he
  have hpop : s.popHost.GridCanonical := h
  rcases step_cases he with hw | ⟨c, hc⟩ | ⟨m, hm⟩
  · exact runWord_gridCanonical hpop hw
  · exact runWord_gridCanonical hpop hc
  · exact hostMove_gridCanonical hpop hm

/-! ### The destination -/

/-- Settles O35: of the ways an instruction can end only those of DSTOPEN, ENCHDR and ENCGRID touch DST.bytes or OPOS, and
ENCHDR and ENCGRID end with what they gave behind what DST held. -/
theorem destinationOnlyGrows : Obligations.DestinationOnlyGrows := by
  intro i s t h
  cases exec_ends h with
  | dstOpened => exact ⟨fun hi => by simp at hi, fun hi => absurd rfl hi⟩
  | gave _ _ hi out =>
    refine ⟨fun hn => ?_, fun _ => ⟨out, rfl, rfl⟩⟩
    rcases hi with ⟨rfl, -⟩ | ⟨rfl, -⟩ <;> simp at hn
  | gaveFailed _ hi out =>
    refine ⟨fun hn => ?_, fun _ => ⟨out, rfl, rfl⟩⟩
    rcases hi with rfl | rfl <;> simp at hn
  | _ => exact ⟨fun _ => ⟨rfl, rfl⟩, fun _ => ⟨[], (List.append_nil _).symm, rfl⟩⟩

/-! ### No stage is used outside what it requires -/

section
variable {s : State}

theorem execSrcopen_next (s : State) : ∃ t, execSrcopen s = .next t := by
  unfold execSrcopen srcOpen
  split <;> exact ⟨_, rfl⟩

theorem execDstopen_next (s : State) : ∃ t, execDstopen s = .next t := by
  unfold execDstopen dstOpen
  split <;> exact ⟨_, rfl⟩

/-- DECHDR from the first byte of an open source ends with a header or with an error (40_header_codec.md R72). -/
theorem execDechdr_next (ho : s.src.isOpen = true) (h0 : s.ipos = 0) : ∃ t, execDechdr s = .next t := by
  by_cases hv : 8 ≤ s.src.bytes.length ∧ (headerOf s.src.bytes).valid = true
  · obtain ⟨-, -, -, B, hB⟩ := of_valid hv.2
    rw [execDechdr, dechdrBody_ok ho h0 hv.1 hv.2 hB]
    exact ⟨_, rfl⟩
  · obtain ⟨_, _, _, hb, -⟩ := dechdrBody_raise ho h0 fun hn => Bool.eq_false_of_not_eq_true fun hv' => hv ⟨hn, hv'⟩
    rw [execDechdr, hb]
    exact ⟨_, rfl⟩

theorem markerRow_next (m : Field) (ho : s.src.isOpen = true) : ∃ t, markerRow m s = .next t := by
  by_cases hn : s.ipos + 6 ≤ s.src.bytes.length
  · rw [markerRow, acceptMarker_ok ho hn]
    split <;> exact ⟨_, rfl⟩
  · obtain ⟨_, _, _, hb, -⟩ := acceptMarker_short (m := m) ho (Nat.lt_of_not_le hn)
    rw [markerRow, hb]
    exact ⟨_, rfl⟩

theorem formatRow_next (f : Field) (s : State) : ∃ t, formatRow f s = .next t := by
  unfold formatRow acceptFormat
  split <;> exact ⟨_, rfl⟩

/-- In DECHDR, at each of the three places where it can be, the word PHASE selects has a next state. -/
theorem runWord_codecWord_dechdr_next (h : s.Inv) (hp : s.phase = .dechdr) : ∃ t, runWord s.codecWord s = .next t := by
  have hr := h.stageIsReady
  simp only [State.stageReady, hp] at hr
  obtain ⟨ho, -, -, h0 | h2 | ⟨h8, -⟩⟩ := hr
  · rw [codecWord_dechdr hp (by simp [h0]) (by simp [h0])]
    exact execDechdr_next ho h0
  · rw [codecWord_marker hp h2, runWord_marker]
    split
    · exact markerRow_next _ ho
    · exact ⟨_, rfl⟩
  · rw [codecWord_format hp h8, runWord_format]
    exact formatRow_next _ s

/-- DECGRID meets the capacity, the end of its source, or neither (41_pixel_grid_codec.md R82). -/
theorem execDecgrid_next (h : s.Inv) (hp : s.phase = .decgrid) : ∃ t, execDecgrid s = .next t := by
  have hr := h.stageIsReady
  simp only [State.stageReady, hp] at hr
  obtain ⟨ho, hv, -, h8⟩ := hr
  by_cases hc : s.wd * s.ht ≤ s.gridCells
  · by_cases hl : imageLength s.wd s.ht s.bw ≤ s.src.bytes.length
    · obtain ⟨_, _, _, _, hb⟩ := decgridBody_long hv ho h8 hc hl
      rw [execDecgrid, hb]
      split <;> exact ⟨_, rfl⟩
    · obtain ⟨_, _, _, _, _, _, hb⟩ := decgridBody_short hv ho h8 hc (Nat.lt_of_not_le hl) (h.dimensions hv).1
      rw [execDecgrid, hb]
      exact ⟨_, rfl⟩
  · rw [execDecgrid, decgridBody_capacity hv ho h8 (Nat.lt_of_not_le hc)]
    exact ⟨_, rfl⟩

theorem execFliph_next (hg : s.gv = true) (hx : s.gridExact) : ∃ t, execFliph s = .next t := by
  obtain ⟨_, _, hw⟩ := fliph_walk_ok hx
  rw [execFliph, need_of hg, hw]
  exact ⟨_, rfl⟩

theorem execFlipv_next (hg : s.gv = true) (hx : s.gridExact) : ∃ t, execFlipv s = .next t := by
  obtain ⟨_, _, hw⟩ := flipv_walk_ok hx
  rw [execFlipv, need_of hg, hw]
  exact ⟨_, rfl⟩

theorem execEnchdr_next (hv : s.hv = true) (ho : s.dst.isOpen = true) (h0 : s.opos = 0) :
    ∃ t, execEnchdr s = .next t := by
  rw [execEnchdr, enchdrBody_eq hv ho h0]
  split <;> exact ⟨_, rfl⟩

theorem execEncgrid_next (hg : s.gv = true) (hx : s.gridExact) (ho : s.dst.isOpen = true) (h8 : s.opos = 8) :
    ∃ t, execEncgrid s = .next t := by
  obtain ⟨_, _, _, _, hb⟩ := encgridBody_eq hg ho h8 hx
  rw [execEncgrid, hb]
  split <;> exact ⟨_, rfl⟩

/-- From a state that meets the invariant the word PHASE selects has a next state: the stage finds what it requires. -/
theorem runWord_codecWord_next (h : s.Inv) : ∃ t, runWord s.codecWord s = .next t := by
  by_cases hd : s.phase = .dechdr
  · exact runWord_codecWord_dechdr_next h hd
  · rw [runWord_codecWord_of_not_dechdr hd]
    have hr := h.stageIsReady
    unfold State.stageReady at hr
    cases hp : s.phase <;> rw [hp] at hr
    case idle => exact ⟨_, rfl⟩
    case srcopen => exact execSrcopen_next s
    case dechdr => exact absurd hp hd
    case decgrid => exact execDecgrid_next h hp
    case fliph =>
      obtain ⟨hg, -⟩ := hr
      exact execFliph_next hg (h.gridDimensions hg)
    case flipv =>
      obtain ⟨hg, -⟩ := hr
      exact execFlipv_next hg (h.gridDimensions hg)
    case dstopen => exact execDstopen_next s
    case enchdr =>
      obtain ⟨hg, ho, h0⟩ := hr
      exact execEnchdr_next (h.gridNeedsHeader hg) ho h0
    case encgrid =>
      obtain ⟨hg, ho, h8⟩ := hr
      exact execEncgrid_next hg (h.gridDimensions hg) ho h8
    case close => exact ⟨_, rfl⟩

/-- A command word is accepted, ignored or refused (43_orchestration.md R104, R105): never a fault, in any state. -/
theorem runWord_command_next (c : BitVec 8) (s : State) : ∃ t, runWord (.command c) s = .next t := by
  rcases runWord_command c s with ⟨fh, fv, hc⟩ | hc <;> rw [hc]
  · unfold execConvert
    split <;> exact ⟨_, rfl⟩
  · exact ⟨_, rfl⟩

/-- The only move of the host without a next state binds a stream while BUSY = 1 (70_reset_and_hazards.md R133, R134). -/
theorem hostMove_next_or_refused (m : HostMove) (s : State) :
    (∃ t, hostMove m s = .next t) ∨
    (s.busy = true ∧ hostMove m s = .refused .rebindWhileBusy ∧
      ((∃ ok bytes, m = .bindSrc ok bytes) ∨ ∃ ok limit bytes, m = .bindDst ok limit bytes)) := by
  cases m with
  | bindSrc ok bytes =>
    simp only [hostMove]
    split
    · next hb => exact .inr ⟨hb, rfl, .inl ⟨ok, bytes, rfl⟩⟩
    · exact .inl ⟨_, rfl⟩
  | bindDst ok limit bytes =>
    simp only [hostMove]
    split
    · next hb => exact .inr ⟨hb, rfl, .inr ⟨ok, limit, bytes, rfl⟩⟩
    · exact .inl ⟨_, rfl⟩
  | _ => exact .inl ⟨_, rfl⟩

/-- A move that a step takes is the host's oldest (log entry 4). -/
theorem host_of_work_move {m : HostMove} (h : s.work = .move m) : ∃ rest, s.host = m :: rest := by
  unfold State.work at h
  split at h <;> cases h
  next hh => exact ⟨_, hh⟩

end

/-- Settles O46: the word PHASE selects finds what its stage requires, a command word asks for nothing, and of the host's other
moves the model refuses the rebinding alone. -/
theorem stepNeverFaults : Obligations.StepNeverFaults := by
  intro s h
  cases hw : s.work with
  | word w =>
    rw [step, hw]
    rcases work_word hw with ⟨c, rfl⟩ | rfl
    · exact .inl (runWord_command_next c s.popHost)
    · exact .inl (runWord_codecWord_next (h.environment s.host.tail s.rdata s.draws))
  | move m =>
    rw [step, hw]
    rcases hostMove_next_or_refused m s.popHost with ht | ⟨hb, hm, hbind⟩
    · exact .inl ht
    · obtain ⟨rest, hh⟩ := host_of_work_move hw
      refine .inr ⟨hb, hm, rest, ?_⟩
      rcases hbind with ⟨ok, bytes, rfl⟩ | ⟨ok, limit, bytes, rfl⟩
      · exact .inl ⟨ok, bytes, hh⟩
      · exact .inr ⟨ok, limit, bytes, hh⟩

/-! ### A stage used outside what it requires

A stop of a stage's body is the fault of that name, whatever the stage does to its state at its end. -/

section
variable {s : State} {f : Fault}

theorem need_not {c : Bool} {k : Flow Unit} (h : c = false) : need c f k = .stop f := by rw [h]; rfl

theorem exec_dechdr_stop (h : dechdrBody s = .stop f) : exec .dechdr s = .fault f := by
  rw [exec, execDechdr, h]
  rfl

theorem exec_decgrid_stop (h : decgridBody s = .stop f) : exec .decgrid s = .fault f := by
  rw [exec, execDecgrid, h]
  rfl

theorem exec_enchdr_stop (h : enchdrBody s = .stop f) : exec .enchdr s = .fault f := by
  rw [exec, execEnchdr, h]
  rfl

theorem exec_encgrid_stop (h : encgridBody s = .stop f) : exec .encgrid s = .fault f := by
  rw [exec, execEncgrid, h]
  rfl

theorem exec_fliph_without_grid (hg : s.gv = false) : exec .fliph s = .fault .gridNotValid := by
  rw [exec, execFliph, need_not hg]
  rfl

theorem exec_flipv_without_grid (hg : s.gv = false) : exec .flipv s = .fault .gridNotValid := by
  rw [exec, execFlipv, need_not hg]
  rfl

/-- After the marker DECHDR takes its fields from the source (40_header_codec.md R72). -/
theorem markerRow_closed (m : Field) (ho : s.src.isOpen = false) : markerRow m s = .fault .srcNotOpen := by
  rw [markerRow, acceptMarker, takeField_closed (by exact ho)]
  rfl

/-- DECHDR takes its first bytes at once (40_header_codec.md R72). -/
theorem dechdrBody_closed (h0 : s.ipos = 0) (ho : s.src.isOpen = false) : dechdrBody s = .stop .srcNotOpen := by
  rw [dechdrBody, need_of (beq_iff_eq.mpr h0), takeField_closed (by exact ho)]
  rfl

/-- A header has bytes, and the first finds the destination closed (20_memory.md R35). -/
theorem enchdrBody_closed (hv : s.hv = true) (h0 : s.opos = 0) (ho : s.dst.isOpen = false) :
    enchdrBody s = .stop .dstNotOpen := by
  rw [enchdrBody, need_of hv, need_of (beq_iff_eq.mpr h0)]
  exact forEach_give_closed _ _ s ho

/-! ### The cells -/

theorem State.inGrid_iff {i j : Nat} : s.inGrid i j = true ↔ i < s.ht ∧ j < s.wd := by
  simp [State.inGrid]

theorem gridRead_out_of_range {i j : Nat} (h : ¬ s.inGrid i j = true) : gridRead i j s = .stop .cellOutOfRange := by
  rw [gridRead, if_neg h]

theorem gridWrite_out_of_range {i j : Nat} (h : ¬ s.inGrid i j = true) (v : Cell) :
    gridWrite i j v s = .stop .cellOutOfRange := by
  rw [gridWrite, if_neg h]

theorem gridRead_without_value {i j : Nat} (h : s.inGrid i j = true) (hc : s.cell i j = none) :
    gridRead i j s = .stop .cellUnspecified := by
  have hread : s.grid.read (s.cellAddr i j) = none := hc
  rw [gridRead, if_pos h, hread]

theorem gridRead_ok {i j : Nat} {v : Cell} (h : s.inGrid i j = true) (hc : s.cell i j = some v) :
    gridRead i j s = .ok v s := by
  have hread : s.grid.read (s.cellAddr i j) = some v := hc
  rw [gridRead, if_pos h, hread]

theorem gridWrite_ok {i j : Nat} (h : s.inGrid i j = true) (v : Cell) :
    gridWrite i j v s = .ok () { s with grid := s.grid.write (s.cellAddr i j) v } := by
  rw [gridWrite, if_pos h]

/-- Two cells in range have two addresses (20_memory.md R37). -/
theorem State.cellAddr_inj {i j i' j' : Nat} (hj : j < s.wd) (hj' : j' < s.wd) (h : s.cellAddr i j = s.cellAddr i' j') :
    (i, j) = (i', j') := by
  have hdiv : (i * s.wd + j) / s.wd = (i' * s.wd + j') / s.wd := congrArg (· / s.wd) h
  have hmod : (i * s.wd + j) % s.wd = (i' * s.wd + j') % s.wd := congrArg (· % s.wd) h
  rw [flat_div hj, flat_div hj'] at hdiv
  rw [flat_mod hj, flat_mod hj'] at hmod
  rw [hdiv, hmod]

end

/-- Settles O28: each body tests its requirements in order, and the first that does not hold stops it by its name. -/
theorem stagesOutsideTheirRequirementsStop : Obligations.StagesOutsideTheirRequirementsStop := by
  refine ⟨fun s h0 => ?_, fun s h0 ho => ?_, fun s ho => ⟨markerRow_closed _ ho, markerRow_closed _ ho⟩,
    fun s hv => ⟨?_, ?_⟩, fun s hv ho => ?_, fun s hv ho h8 => ?_, fun s hv h0 => ?_, fun s hv h0 ho => ?_,
    fun s hg => ⟨exec_fliph_without_grid hg, exec_flipv_without_grid hg, ?_⟩, fun s hg ho => ?_, fun s hg ho h8 => ?_,
    fun s i j hij => ?_, fun s i j hi hj hc => gridRead_without_value (State.inGrid_iff.mpr ⟨hi, hj⟩) hc⟩
  · exact exec_dechdr_stop (need_not (beq_false_of_ne h0))
  · exact exec_dechdr_stop (dechdrBody_closed h0 ho)
  · exact exec_decgrid_stop (need_not hv)
  · exact exec_enchdr_stop (need_not hv)
  · exact exec_decgrid_stop ((need_of hv).trans (need_not ho))
  · exact exec_decgrid_stop ((need_of hv).trans ((need_of ho).trans (need_not (beq_false_of_ne h8))))
  · exact exec_enchdr_stop ((need_of hv).trans (need_not (beq_false_of_ne h0)))
  · exact exec_enchdr_stop (enchdrBody_closed hv h0 ho)
  · exact exec_encgrid_stop (need_not hg)
  · exact exec_encgrid_stop ((need_of hg).trans (need_not ho))
  · exact exec_encgrid_stop ((need_of hg).trans ((need_of ho).trans (need_not (beq_false_of_ne h8))))
  · have hout : ¬ s.inGrid i j = true := by rw [State.inGrid_iff]; omega
    exact ⟨gridRead_out_of_range hout, gridWrite_out_of_range hout⟩

/-- Settles O29: a write sets the one address of its cell, and two cells in range have two addresses. -/
theorem gridReadsTheLastWrite : Obligations.GridReadsTheLastWrite := by
  intro s i j v hi hj
  have hin : s.inGrid i j = true := State.inGrid_iff.mpr ⟨hi, hj⟩
  refine ⟨_, gridWrite_ok hin v, gridRead_ok hin (GridMem.read_write_same _ _ v), fun i' j' _ hj' hne => ?_, rfl⟩
  exact GridMem.read_write_other _ v fun ha => hne (State.cellAddr_inj hj' hj ha)

end Sys2Proof.Machine
end

section
/-!
PROOFS. The words and their rows: the decoder and the encoder agree, the four command words, the rows of the tables, and what
the marker rows and the format rows do.
-/

namespace Sys2Proof.Machine

/-! ### Command words -/

/-- The mask of 30_encoding.md R59 leaves the two flag bits free: the four legal command words. -/
theorem command_mask_iff (c : BitVec 8) : c &&& 0xE7 = 0x01 ↔ c = 0x01 ∨ c = 0x09 ∨ c = 0x11 ∨ c = 0x19 := by
  decide +revert

/-- The fields OP and bits 7:5 that the decoder tests are the bits of the mask (30_encoding.md R58, R59). -/
theorem command_fields_iff_mask (c : BitVec 8) :
    c.extractLsb' 0 3 = 1 ∧ c.extractLsb' 5 3 = 0 ↔ c &&& 0xE7 = 0x01 := by
  decide +revert

theorem command_legal_iff (c : BitVec 8) : (CodeWord.command c).legal = true ↔ c &&& 0xE7 = 0x01 := beq_iff_eq

theorem decode_command_legal {c : BitVec 8} (h : (CodeWord.command c).legal = true) :
    decode (.command c) = .ok (.convert (c.getLsbD 3) (c.getLsbD 4)) :=
  if_pos ((command_fields_iff_mask c).mpr ((command_legal_iff c).mp h))

/-- An illegal command word is refused by name (30_encoding.md R59). -/
theorem decode_command_illegal {c : BitVec 8} (h : (CodeWord.command c).legal = false) :
    decode (.command c) = .error .illegalCommand := by
  refine if_neg fun hf => ?_
  rw [(command_legal_iff c).mpr ((command_fields_iff_mask c).mp hf)] at h
  cases h

/-! ### Decoder and encoder -/

/-- The word of every instruction decodes to the instruction. -/
theorem decode_encode (i : Instr) : decode (encode i) = .ok i := by
  cases i with
  | convert fh fv => cases fh <;> cases fv <;> rfl
  | _ => rfl

/-- The word of every instruction is legal (30_encoding.md R61). -/
theorem encode_legal (i : Instr) : (encode i).legal = true := by
  cases i with
  | convert fh fv => exact Laws.EncodesLegal.convert fh fv
  | _ => rfl

theorem stageRows_encode : ∀ r ∈ stageRows, encode r.2 = .stage r.1 := by decide

theorem formatRows_encode : ∀ r ∈ formatRows, encode r.2 = .format r.1 := by decide

theorem encode_of_decode_command {c : BitVec 8} {i : Instr} (h : decode (.command c) = .ok i) :
    encode i = .command c := by
  by_cases hl : (CodeWord.command c).legal = true
  · rw [decode_command_legal hl] at h
    cases h
    rcases (command_mask_iff c).mp ((command_legal_iff c).mp hl) with rfl | rfl | rfl | rfl <;> rfl
  · rw [decode_command_illegal (Bool.eq_false_of_not_eq_true hl)] at h
    cases h

theorem encode_of_decode_stage {c : BitVec 4} {i : Instr} (h : decode (.stage c) = .ok i) : encode i = .stage c := by
  rw [decode, decodeStage] at h
  split at h <;> cases h
  next hl => exact stageRows_encode _ (mem_of_lookup_eq_some hl)

theorem encode_of_decode_marker {m : Field} {i : Instr} (h : decode (.marker m) = .ok i) : encode i = .marker m := by
  rw [decode, decodeMarker] at h
  split at h
  · next hm => cases h; rw [hm]; rfl
  · split at h <;> cases h
    next hm => rw [hm]; rfl

theorem encode_of_decode_format {f : Field} {i : Instr} (h : decode (.format f) = .ok i) : encode i = .format f := by
  rw [decode, decodeFormat] at h
  split at h <;> cases h
  next hl => exact formatRows_encode _ (mem_of_lookup_eq_some hl)

/-- A word the decoder accepts is the word of its instruction. -/
theorem encode_of_decode {w : CodeWord} {i : Instr} (h : decode w = .ok i) : encode i = w := by
  cases w with
  | command c => exact encode_of_decode_command h
  | stage c => exact encode_of_decode_stage h
  | marker m => exact encode_of_decode_marker h
  | format f => exact encode_of_decode_format h

/-- The decoder accepts every legal word (30_encoding.md R61). -/
theorem decode_of_legal {w : CodeWord} (h : w.legal = true) : ∃ i, decode w = .ok i := by
  cases w with
  | command c => exact ⟨_, decode_command_legal h⟩
  | stage c =>
    rw [← stageOf_code c (by simpa [CodeWord.legal] using h)]
    exact ⟨_, decode_stage_code _⟩
  | marker m =>
    simp only [CodeWord.legal, isSentinel, Bool.or_eq_true, beq_iff_eq] at h
    rcases h with rfl | rfl
    · exact ⟨_, decode_encode .markerLittle⟩
    · exact ⟨_, decode_encode .markerBig⟩
  | format f =>
    obtain ⟨i, hi⟩ := Option.isSome_iff_exists.mp ((formatRows_lookup_isSome f).trans h)
    exact ⟨i, by rw [decode, decodeFormat, hi]⟩

/-- Settles O1: the encoder inverts the decoder on the words it accepts, and the words of the instructions are legal. -/
theorem decodeAndEncodeAgree : Obligations.DecodeAndEncodeAgree := by
  refine ⟨decode_encode, fun w => ⟨decode_of_legal, ?_⟩, fun w i => encode_of_decode⟩
  rintro ⟨i, hi⟩
  rw [← encode_of_decode hi]
  exact encode_legal i

/-- Settles O2: the four words are those of CONVERT with its flags, and the mask holds of no other. -/
theorem fourCommandWordsAreLegal : Obligations.FourCommandWordsAreLegal := by
  refine ⟨decode_encode (.convert false false), decode_encode (.convert true false), decode_encode (.convert false true),
    decode_encode (.convert true true), command_legal_iff, fun c h01 h09 h11 h19 => ?_, by decide +kernel⟩
  refine decode_command_illegal (Bool.eq_false_of_not_eq_true fun hl => ?_)
  rcases (command_mask_iff c).mp ((command_legal_iff c).mp hl) with h | h | h | h
  · exact h01 h
  · exact h09 h
  · exact h11 h
  · exact h19 h

/-- Settles O3: each word written out is the encoder's word of its row, and each neighbour is illegal. -/
theorem wordsOfTheTablesDecode : Obligations.WordsOfTheTablesDecode :=
  ⟨decode_encode (.convert false false), decode_encode (.convert true false), decode_encode (.convert false true),
    decode_encode (.convert true true),
    decode_encode .idle, decode_encode .srcopen, decode_encode .dechdr, decode_encode .decgrid, decode_encode .fliph,
    decode_encode .flipv, decode_encode .dstopen, decode_encode .enchdr, decode_encode .encgrid, decode_encode .close,
    decode_encode .markerLittle, decode_encode .markerBig,
    decode_encode .fmt0, decode_encode .fmt2, decode_encode .fmt3, decode_encode .fmt12, decode_encode .fmt14,
    decode_encode .fmt15, decode_encode .fmt16, decode_encode .fmt18, decode_encode .fmt19,
    rfl, decode_marker_illegal rfl, decode_format_illegal rfl, decode_command_illegal rfl, rfl, rfl⟩

/-! ### The marker rows -/

/-- A field is zero whichever way its bytes are read. -/
theorem swapFor_eq_zero (m v : Field) : swapFor m v = 0 ↔ v = 0 := by
  have h0 : swapFor m 0 = 0 := by unfold swapFor; split <;> rfl
  constructor
  · intro h
    rw [← swapFor_swapFor m v, h, h0]
  · rintro rfl
    exact h0

section
variable {m : Field} {s : State} {w0 w1 h0 h1 f0 f1 : Byte} {rest : List Byte}

/-- The header a marker row reads from the six bytes named one by one (30_encoding.md R53). -/
theorem markerRow_ok (ho : s.src.isOpen = true)
    (hb : s.src.bytes.drop s.ipos = w0 :: w1 :: h0 :: h1 :: f0 :: f1 :: rest)
    (hw : ¬ (w0 = 0 ∧ w1 = 0)) (hh : ¬ (h0 = 0 ∧ h1 = 0)) :
    markerRow m s = .next { s with
      hdr := ⟨m, swapFor m (w1 ++ w0), swapFor m (h1 ++ h0), swapFor m (f1 ++ f0)⟩, ipos := s.ipos + 6 } := by
  have hdim : ¬ (swapFor m (w1 ++ w0) = 0 ∨ swapFor m (h1 ++ h0) = 0) := by
    rw [swapFor_eq_zero, swapFor_eq_zero, append_eq_zero, append_eq_zero]
    exact not_or.mpr ⟨hw, hh⟩
  rw [markerRow, acceptMarker_bytes ho hb, if_neg hdim]
  rfl

theorem markerRow_zero_dimension (ho : s.src.isOpen = true)
    (hb : s.src.bytes.drop s.ipos = w0 :: w1 :: h0 :: h1 :: f0 :: f1 :: rest)
    (hz : (w0 = 0 ∧ w1 = 0) ∨ (h0 = 0 ∧ h1 = 0)) :
    ∃ t, markerRow m s = .next t ∧ t = { s with
      err := .invalidDimension, phase := .close, ipos := s.ipos + 6
      hdr := t.hdr, bytew := t.bytew, draws := t.draws } := by
  have hdim : swapFor m (w1 ++ w0) = 0 ∨ swapFor m (h1 ++ h0) = 0 := by
    rwa [swapFor_eq_zero, swapFor_eq_zero, append_eq_zero, append_eq_zero]
  rw [markerRow, acceptMarker_bytes ho hb, if_pos hdim]
  exact ⟨_, rfl, rfl⟩

theorem markerRow_short (ho : s.src.isOpen = true) (hn : s.src.bytes.length < s.ipos + 6) :
    ∃ t, markerRow m s = .next t ∧ t = { s with
      err := .ioError, phase := .close, ipos := t.ipos
      hdr := t.hdr, bytew := t.bytew, draws := t.draws } := by
  obtain ⟨h, i, d, he, -⟩ := acceptMarker_short (m := m) ho hn
  rw [markerRow, he]
  exact ⟨_, rfl, rfl⟩

end

/-- Settles O16: both instructions are one row; the marker decides whether the bytes of a field are exchanged. -/
theorem markerSelectsTheByteOrder : Obligations.MarkerSelectsTheByteOrder := by
  refine ⟨fun s w0 w1 h0 h1 f0 f1 rest ho hb hw hh => ⟨?_, ?_⟩, fun s w0 w1 h0 h1 f0 f1 rest ho hb hz i hi => ?_,
    fun s ho hn i hi => ?_⟩
  · refine (markerRow_ok (m := Config.markerLittle) ho hb hw hh).trans ?_
    simp only [swapFor_little]
    rfl
  · refine (markerRow_ok (m := Config.markerBig) ho hb hw hh).trans ?_
    simp only [swapFor_big, byteSwap16_append]
    rfl
  · rcases hi with rfl | rfl <;> exact markerRow_zero_dimension ho hb hz
  · rcases hi with rfl | rfl <;> exact markerRow_short ho hn

/-! ### The format rows -/

/-- Settles O17: each format instruction is the format row of a code that the table gives a byte width. -/
theorem formatCodeSelectsTheByteWidth : Obligations.FormatCodeSelectsTheByteWidth := fun s =>
  ⟨formatRow_ok (f := 0) s rfl, formatRow_ok (f := 2) s rfl, formatRow_ok (f := 3) s rfl, formatRow_ok (f := 12) s rfl,
    formatRow_ok (f := 14) s rfl, formatRow_ok (f := 15) s rfl, formatRow_ok (f := 16) s rfl,
    formatRow_ok (f := 18) s rfl, formatRow_ok (f := 19) s rfl⟩

end Sys2Proof.Machine
end

section
/-!
PROOFS. The Header Codec: ByteSwap16 and the format table, DECHDR and ENCHDR as whole instructions, and the round trip
between them (40_header_codec.md).
-/

namespace Sys2Proof.Machine

/-! ### ByteSwap16 -/

/-- The low byte becomes the high one (40_header_codec.md R70). -/
theorem byteSwap16_toNat (v : Field) : (byteSwap16 v).toNat = v.toNat % 256 * 256 + v.toNat / 256 := by
  have h : (byteSwap16 v).toNat = (v.extractLsb' 0 8).toNat <<< 8 ||| (v.extractLsb' 8 8).toNat := BitVec.toNat_append _ _
  rw [h, ← Nat.shiftLeft_add_eq_or_of_lt (BitVec.isLt _), Nat.shiftLeft_eq, BitVec.extractLsb'_toNat,
    BitVec.extractLsb'_toNat, Nat.shiftRight_zero, Nat.shiftRight_eq_div_pow]
  have hv := v.isLt
  omega

theorem byteSwap16_involutive : Function.Involutive byteSwap16 := byteSwap16_byteSwap16

/-- The fixed points are the values of two equal bytes. -/
theorem byteSwap16_eq_self_iff (v : Field) : byteSwap16 v = v ↔ v.toNat % 256 = v.toNat / 256 := by
  rw [← BitVec.toNat_inj, byteSwap16_toNat]
  omega

theorem byteSwap16_eq_zero_iff (v : Field) : byteSwap16 v = 0 ↔ v = 0 := by
  rw [← swapFor_big, swapFor_eq_zero]

/-- Settles O6: the value of the exchange gives its fixed points, and an involution is a bijection. -/
theorem byteSwapExchangesTheHalves : Obligations.ByteSwapExchangesTheHalves :=
  ⟨byteSwap16_toNat, byteSwap16_involutive, byteSwap16_involutive.bijective, byteSwap16_eq_self_iff,
    (byteSwap16_eq_self_iff _).mpr rfl, (byteSwap16_eq_self_iff _).mpr rfl, byteSwap16_eq_zero_iff,
    rfl, rfl, rfl, rfl, rfl⟩

/-! ### The format table -/

/-- A code that is in no row of the table has no byte width (40_header_codec.md R71). -/
theorem byteWidthOf_eq_none {code : Field} (h : ∀ r ∈ Config.formatTable, code ≠ r.1) : byteWidthOf code = none :=
  List.lookup_eq_none_iff.mpr fun r hr => bne_iff_ne.mpr (h r hr)

/-- Settles O7: every branch but the last names codes of the table, and the last is in no row of it. -/
theorem byteWidthFollowsTheFormatTable : Obligations.ByteWidthFollowsTheFormatTable := by
  intro code
  split_ifs with h1 h3 h4 h2 h6 h8
  · rcases h1 with rfl | rfl <;> rfl
  · rcases h3 with rfl | rfl <;> rfl
  · rcases h4 with rfl | rfl <;> rfl
  · rw [h2]; rfl
  · rw [h6]; rfl
  · rw [h8]; rfl
  · rw [not_or] at h1 h3 h4
    refine byteWidthOf_eq_none ?_
    simp only [Config.formatTable, List.forall_mem_cons]
    exact ⟨h1.1, h3.1, h4.1, h1.2, h3.2, h4.2, h2, h6, h8, nofun⟩

section
variable {s t : State}

/-! ### DECHDR -/

/-- DECHDR on a source that starts with a valid header (40_header_codec.md R72). -/
theorem exec_dechdr_ok {B : Nat} (ho : s.src.isOpen = true) (h0 : s.ipos = 0) (hn : 8 ≤ s.src.bytes.length)
    (hv : (headerOf s.src.bytes).valid = true) (hB : byteWidthOf (headerOf s.src.bytes).format = some B) :
    exec .dechdr s = .next { s with
      hdr := headerOf s.src.bytes, bytew := BitVec.ofNat 4 B, hv := true, ipos := 8, phase := .decgrid } := by
  rw [exec, execDechdr, dechdrBody_ok ho h0 hn hv hB]
  rfl

/-- DECHDR on any other source (40_header_codec.md R72). -/
theorem exec_dechdr_raise (ho : s.src.isOpen = true) (h0 : s.ipos = 0)
    (hv : 8 ≤ s.src.bytes.length → (headerOf s.src.bytes).valid = false) :
    ∃ t, exec .dechdr s = .next t ∧
      (2 ≤ s.src.bytes.length → isSentinel (headerOf s.src.bytes).marker = false → t.ipos = 2) ∧
      (8 ≤ s.src.bytes.length → isSentinel (headerOf s.src.bytes).marker = true → t.ipos = 8) ∧
      t = { s with
        err := headerError s.src.bytes, hv := false, phase := .close
        hdr := t.hdr, bytew := t.bytew, ipos := t.ipos, draws := t.draws } := by
  obtain ⟨h, i, d, hb, -, h2, h8⟩ := dechdrBody_raise ho h0 hv
  rw [exec, execDechdr, hb]
  exact ⟨_, rfl, h2, h8, rfl⟩

/-- Settles O15: the two kinds of sources, and `headerError` is the first error that applies. -/
theorem dechdrDecodesOrRaisesTheFirstError : Obligations.DechdrDecodesOrRaisesTheFirstError :=
  ⟨fun _ _ ho h0 hn hm hw hh hB => exec_dechdr_ok ho h0 hn (valid_of hm hw hh hB) hB,
    fun _ ho h0 hv => exec_dechdr_raise ho h0 hv⟩

/-- DECHDR leaves HV = 1 only where it decoded a valid header. -/
theorem exec_dechdr_decoded (he : exec .dechdr s = .next t) (ht : t.hv = true) :
    8 ≤ s.src.bytes.length ∧ (headerOf s.src.bytes).valid = true ∧ t.hdr = headerOf s.src.bytes := by
  by_cases h0 : s.ipos = 0
  · cases ho : s.src.isOpen with
    | false =>
      rw [exec_dechdr_stop (dechdrBody_closed h0 ho)] at he
      cases he
    | true =>
      by_cases hv : 8 ≤ s.src.bytes.length ∧ (headerOf s.src.bytes).valid = true
      · obtain ⟨-, -, -, B, hB⟩ := of_valid hv.2
        rw [exec_dechdr_ok ho h0 hv.1 hv.2 hB] at he
        cases he
        exact ⟨hv.1, hv.2, rfl⟩
      · obtain ⟨t', he', -, -, hfail⟩ :=
          exec_dechdr_raise ho h0 fun hn => Bool.eq_false_of_not_eq_true fun hv' => hv ⟨hn, hv'⟩
        rw [he'] at he
        cases he
        rw [hfail] at ht
        cases ht
  · rw [exec_dechdr_stop (need_not (beq_false_of_ne h0))] at he
    cases he

/-! ### ENCHDR -/

/-- The sink takes everything exactly when its limit leaves the room (20_memory.md R35). -/
theorem State.takesAll_iff {out : List Byte} :
    s.takesAll out = true ↔ ∀ l, s.dst.limit = some l → out.length ≤ l - s.opos := by
  cases hl : s.dst.limit with
  | none => simp [State.takesAll, State.accepted, hl]
  | some l => simp [State.takesAll, State.accepted, hl]

/-- A sink at its start takes the header exactly when its limit is not below 8 (40_header_codec.md R73). -/
theorem State.takesAll_headerBytes_iff (h0 : s.opos = 0) (h : Header) :
    s.takesAll (headerBytes h) = true ↔ ∀ l, s.dst.limit = some l → 8 ≤ l := by
  rw [State.takesAll_iff, h0, headerBytes_length]
  rfl

/-- ENCHDR with a sink that takes the header (40_header_codec.md R73). -/
theorem exec_enchdr_ok (hv : s.hv = true) (ho : s.dst.isOpen = true) (h0 : s.opos = 0)
    (ht : s.takesAll (headerBytes s.hdr) = true) :
    exec .enchdr s = .next { s with
      dst := { s.dst with bytes := s.dst.bytes ++ headerBytes s.hdr }, opos := 8, phase := .encgrid } := by
  rw [exec, execEnchdr, enchdrBody_eq hv ho h0, if_pos ht, stageEnd_ok, State.gave, h0, headerBytes_length]
  rfl

/-- ENCHDR with a sink that refuses byte `l` of the header (40_header_codec.md R73). -/
theorem exec_enchdr_full {l : Nat} (hv : s.hv = true) (ho : s.dst.isOpen = true) (h0 : s.opos = 0)
    (hl : s.dst.limit = some l) (h8 : l < 8) :
    exec .enchdr s = .next { s with
      dst := { s.dst with bytes := s.dst.bytes ++ (headerBytes s.hdr).take l }, opos := l
      err := .ioError, phase := .close } := by
  have ht : ¬ s.takesAll (headerBytes s.hdr) = true := fun h =>
    absurd ((State.takesAll_headerBytes_iff h0 _).mp h l hl) (Nat.not_le.mpr h8)
  have ha : s.accepted (headerBytes s.hdr) = (headerBytes s.hdr).take l := by
    rw [State.accepted, hl, h0]
    rfl
  have hlen : ((headerBytes s.hdr).take l).length = l := List.length_take_of_le h8.le
  rw [exec, execEnchdr, enchdrBody_eq hv ho h0, if_neg ht, stageEnd_raise, ha, State.gave, h0, hlen, Nat.zero_add]
  rfl

/-- Settles O25: the eight bytes are those of the model's `headerBytes`, and the limit decides how many the sink takes. -/
theorem enchdrGivesTheHeaderBytes : Obligations.EnchdrGivesTheHeaderBytes := by
  intro s out hv ho h0 hout
  obtain rfl : out = headerBytes s.hdr := hout
  exact ⟨exec_enchdr_ok hv ho h0, fun l => exec_enchdr_full hv ho h0, State.takesAll_headerBytes_iff h0 _⟩

end

/-! ### The round trip -/

/-- Settles O30: `headerBytes` and `headerOf` are inverse to each other on eight bytes. -/
theorem headerRoundTrip : Obligations.HeaderRoundTrip := by
  constructor
  · intro s t he ht u hu hv ho h0 hl
    obtain ⟨hn, -, hdr⟩ := exec_dechdr_decoded he ht
    refine ⟨_, exec_enchdr_ok hv ho h0 ((State.takesAll_headerBytes_iff h0 _).mpr hl), ?_, rfl⟩
    simp only [hu, hdr, headerBytes_headerOf _ hn]
  · intro u hv hvalid ho hempty h0 hl
    refine ⟨_, exec_enchdr_ok hv ho h0 ((State.takesAll_headerBytes_iff h0 _).mpr hl), fun s rest hso hs0 hsrc => ?_⟩
    have hb : s.src.bytes = headerBytes u.hdr ++ rest := by simpa [hempty] using hsrc
    have hn : 8 ≤ s.src.bytes.length := by simp [hb]
    have hhdr : headerOf s.src.bytes = u.hdr := by rw [hb, headerOf_headerBytes]
    obtain ⟨-, -, -, B, hB⟩ := of_valid hvalid
    exact ⟨_, exec_dechdr_ok hso hs0 hn (by rwa [hhdr]) (by rwa [hhdr]), hhdr, rfl⟩

end Sys2Proof.Machine
end

section
/-!
PROOFS. The Pixel Grid Codec: the lanes of a pixel, DECGRID and ENCGRID as whole instructions, and the round trip between them
(41_pixel_grid_codec.md).
-/

namespace Sys2Proof.Machine

/-! ### Lanes -/

/-- Settles O8: the lanes fix the value, and LaneEmit reads the pixel back from its cell. -/
theorem laneAssembleHoldsTheBytesSideBySide : Obligations.LaneAssembleHoldsTheBytesSideBySide := by
  refine ⟨fun p k hp => lane_laneAssemble p hp k, laneAssemble_toNat, laneAssemble_toNat_lt, fun p q hp hpq h => ?_⟩
  rw [← laneEmit_laneAssemble p hp, h, hpq, laneEmit_laneAssemble q (hpq ▸ hp)]

/-- The low `B` lanes of a cell, assembled again, are the cell without its upper lanes (41_pixel_grid_codec.md R81). -/
theorem laneAssemble_laneEmit_toNat (c : Cell) {B : Nat} (hB : B ≤ 8) :
    (laneAssemble (laneEmit c B)).toNat = c.toNat % 2 ^ (8 * B) := by
  rw [laneAssemble_toNat _ ((laneEmit_length c B).le.trans hB), laneEmit_length, ← sum_bytes]
  congr 1
  apply List.map_congr_left
  intro k hk
  rw [getD_laneEmit, if_pos (List.mem_range.mp hk), lane_toNat]

/-- Settles O9: the lanes of an assembled pixel are its bytes, and a cell is the sum of its lanes. -/
theorem laneEmitInvertsLaneAssemble : Obligations.LaneEmitInvertsLaneAssemble :=
  ⟨fun _ _ => rfl, laneEmit_laneAssemble, fun c _ => laneAssemble_laneEmit_toNat c⟩

section
variable {s t u : State}

/-! ### DECGRID -/

/-- The grid DECGRID makes of a source, cell by cell (41_pixel_grid_codec.md R82). -/
theorem State.decodedGrid_eq_gridFrom (s : State) :
    s.decodedGrid = gridFrom s.ht s.wd fun p => laneAssemble (pixelBytes s.src.bytes s.wd s.bw p.1 p.2) :=
  gridOf_congr fun a _ => congrArg (decodedCell s.src.bytes s.bw) (Nat.div_add_mod' a s.wd).symm

/-- DECGRID on a source of exactly the declared length (41_pixel_grid_codec.md R82). -/
theorem exec_decgrid_ok (hv : s.hv = true) (ho : s.src.isOpen = true) (h8 : s.ipos = 8) (hc : s.wd * s.ht ≤ s.gridCells)
    (hl : s.src.bytes.length = imageLength s.wd s.ht s.bw) :
    ∃ t, exec .decgrid s = .next t ∧ t = { s with
      gv := true, ipos := imageLength s.wd s.ht s.bw, phase := nextStage s.fh s.fv .decgrid, grid := s.decodedGrid
      pix := t.pix, row := t.row, col := t.col, lane := t.lane, draws := t.draws } := by
  obtain ⟨r, c, l, p, hb⟩ := decgridBody_long hv ho h8 hc hl.ge
  rw [exec, execDecgrid, hb, if_pos hl]
  exact ⟨_, rfl, rfl⟩

/-- Settles O18: the cells are those of the decoded grid. -/
theorem decgridReadsEveryPixel : Obligations.DecgridReadsEveryPixel := by
  intro s hv ho h8 hc hl
  obtain ⟨t, he, ht⟩ := exec_decgrid_ok hv ho h8 hc hl
  have hgrid : t.grid = s.decodedGrid := by rw [ht]
  have hht : t.ht = s.ht := by rw [ht]; rfl
  have hwd : t.wd = s.wd := by rw [ht]; rfl
  rw [State.decodedGrid_eq_gridFrom] at hgrid
  refine ⟨t, he, fun i j hi hj => State.cell_of_gridFrom hgrid hwd hi hj, gridExact_of_gridFrom hgrid hht hwd, ?_⟩
  rw [State.decodedGrid_eq_gridFrom, ← hgrid] at ht
  exact ht

/-- DECGRID has a next state only where its requirements hold (log entry 10). -/
theorem exec_decgrid_ready (h : exec .decgrid s = .next t) : s.hv = true ∧ s.src.isOpen = true ∧ s.ipos = 8 := by
  cases hv : s.hv with
  | false => rw [exec_decgrid_stop (need_not hv)] at h; cases h
  | true =>
    cases ho : s.src.isOpen with
    | false => rw [exec_decgrid_stop ((need_of hv).trans (need_not ho))] at h; cases h
    | true =>
      refine ⟨rfl, rfl, by_contra fun h8 => ?_⟩
      rw [exec_decgrid_stop ((need_of hv).trans ((need_of ho).trans (need_not (beq_false_of_ne h8))))] at h
      cases h

/-- A walk over a grid without cells does nothing. -/
theorem walk_of_no_pixels {h w : Nat} (hn : h * w = 0) (body : State → Flow Unit) (s : State) :
    walk body (rowMajor h w) s = .ok () s := by
  rw [walk_rowMajor, hn]
  rfl

/-- With a zero dimension, which no decoded header has, DECGRID takes nothing and looks only for the source's end. -/
theorem exec_decgrid_no_pixels (hr : s.hv = true ∧ s.src.isOpen = true ∧ s.ipos = 8) (hc : s.wd * s.ht ≤ s.gridCells)
    (hn : s.ht * s.wd = 0) (hl : s.src.bytes.length ≤ 8) :
    ∃ t, exec .decgrid s = .next t ∧ t.grid = s.decodedGrid := by
  obtain ⟨hv, ho, h8⟩ := hr
  have hend : inAtEnd s.forgetGrid = true := by
    simpa only [inAtEnd, State.forgetGrid_ipos, State.forgetGrid_src, h8, decide_eq_true_eq] using hl
  rw [exec, execDecgrid, decgridBody, need_of hv, need_of ho, need_of (beq_iff_eq.mpr h8), if_neg (Nat.not_lt.mpr hc),
    walk_of_no_pixels hn, Flow.bind_ok, walk_of_no_pixels (h := s.forgetGrid.ht) (w := s.forgetGrid.wd) hn, Flow.bind_ok,
    if_pos hend]
  refine ⟨_, rfl, ?_⟩
  rw [State.decodedGrid, hn]
  rfl

/-- Where DECGRID makes GV = 1 it has read the whole payload, which has the declared length unless no pixel is declared. -/
theorem exec_decgrid_decoded (he : exec .decgrid s = .next t) (ht : t.gv = true) (hs : s.gv = false) :
    t.grid = s.decodedGrid ∧
      (s.src.bytes.length = imageLength s.wd s.ht s.bw ∨ s.ht * s.wd = 0 ∧ s.src.bytes.length ≤ 8) := by
  obtain ⟨hv, ho, h8⟩ := exec_decgrid_ready he
  have hraised : ∀ {P : Prop}, t.gv = s.gv → P := fun h => absurd (ht.symm.trans (h.trans hs)) (by decide)
  rcases Nat.lt_or_ge s.gridCells (s.wd * s.ht) with hc | hc
  · rw [exec, execDecgrid, decgridBody_capacity hv ho h8 hc] at he
    cases he
    exact hraised rfl
  · rcases Nat.lt_or_ge s.src.bytes.length (imageLength s.wd s.ht s.bw) with hl | hl
    · rcases Nat.eq_zero_or_pos (s.ht * s.wd) with hn | hn
      · have hl8 : s.src.bytes.length ≤ 8 := by rw [imageLength_eq, hn, Nat.zero_mul] at hl; omega
        obtain ⟨t', he', hg⟩ := exec_decgrid_no_pixels ⟨hv, ho, h8⟩ hc hn hl8
        cases he'.symm.trans he
        exact ⟨hg, .inr ⟨hn, hl8⟩⟩
      · obtain ⟨m, i, r, c, l, p, hb⟩ := decgridBody_short hv ho h8 hc hl hn
        rw [exec, execDecgrid, hb] at he
        cases he
        exact hraised rfl
    · obtain ⟨r, c, l, p, hb⟩ := decgridBody_long hv ho h8 hc hl
      rw [exec, execDecgrid, hb] at he
      split at he
      · next heq => cases he; exact ⟨rfl, .inl heq⟩
      · cases he; exact hraised rfl

/-! ### ENCGRID -/

/-- A sink at position 8 takes the payload exactly when its limit leaves the room (41_pixel_grid_codec.md R83). -/
theorem State.takesAll_payload_iff (h8 : s.opos = 8) :
    s.takesAll s.payload = true ↔ ∀ l, s.dst.limit = some l → s.payload = [] ∨ imageLength s.wd s.ht s.bw ≤ l := by
  rw [State.takesAll_iff, h8]
  refine forall_congr' fun l => imp_congr_right fun _ => ?_
  rw [← List.length_eq_zero_iff, imageLength_eq, ← State.payload_length]
  omega

/-- ENCGRID with a sink that takes the payload (41_pixel_grid_codec.md R83). -/
theorem exec_encgrid_ok (hg : s.gv = true) (hx : s.gridExact) (ho : s.dst.isOpen = true) (h8 : s.opos = 8)
    (ht : s.takesAll s.payload = true) :
    ∃ t, exec .encgrid s = .next t ∧ t = { s with
      dst := { s.dst with bytes := s.dst.bytes ++ s.payload }, opos := imageLength s.wd s.ht s.bw, phase := .close
      pix := t.pix, row := t.row, col := t.col, lane := t.lane, draws := t.draws } := by
  obtain ⟨r, c, l, p, hb⟩ := encgridBody_eq hg ho h8 hx
  rw [exec, execEncgrid, hb, if_pos ht, State.gave, h8, State.payload_length, ← imageLength_eq]
  exact ⟨_, rfl, rfl⟩

/-- ENCGRID with a sink of `l` bytes that refuses one of the payload (41_pixel_grid_codec.md R83, 20_memory.md R35). -/
theorem exec_encgrid_full {l : Nat} (hg : s.gv = true) (hx : s.gridExact) (ho : s.dst.isOpen = true) (h8 : s.opos = 8)
    (hl : s.dst.limit = some l) (ht : s.takesAll s.payload = false) :
    ∃ t, exec .encgrid s = .next t ∧ t = { s with
      dst := { s.dst with bytes := s.dst.bytes ++ s.payload.take (l - 8) }, opos := max 8 l
      err := .ioError, phase := .close
      pix := t.pix, row := t.row, col := t.col, lane := t.lane, draws := t.draws } := by
  have ha : s.accepted s.payload = s.payload.take (l - 8) := by rw [State.accepted, hl, h8]
  have hpos : 8 + (s.payload.take (l - 8)).length = max 8 l := by
    simp only [State.takesAll, ha, List.length_take, beq_eq_false_iff_ne] at ht ⊢
    omega
  obtain ⟨r, c, la, p, hb⟩ := encgridBody_eq hg ho h8 hx
  rw [exec, execEncgrid, hb, if_neg (Bool.eq_false_iff.mp ht), ha, State.gave, h8, hpos]
  exact ⟨_, rfl, rfl⟩

/-- Settles O26: the bytes are the model's `payload`, and the sink takes them all or up to its limit. -/
theorem encgridGivesThePayload : Obligations.EncgridGivesThePayload := by
  intro s out hg hx ho h8 hout
  obtain rfl : out = s.payload := hout
  refine ⟨by rw [State.payload_length, Nat.mul_comm s.ht], ?_⟩
  cases ht : s.takesAll s.payload with
  | true =>
    obtain ⟨t, he, hok⟩ := exec_encgrid_ok hg hx ho h8 ht
    exact ⟨t, he, fun _ => hok, nofun, ht ▸ State.takesAll_payload_iff h8⟩
  | false =>
    cases hl : s.dst.limit with
    | none => simp [State.takesAll, State.accepted, hl] at ht
    | some l =>
      obtain ⟨t, he, hfull⟩ := exec_encgrid_full hg hx ho h8 hl ht
      refine ⟨t, he, nofun, fun l' hl' _ => ?_, hl ▸ ht ▸ State.takesAll_payload_iff h8⟩
      cases hl'
      exact hfull

/-! ### The round trip -/

/-- The decoded grid has the header's dimensions. -/
theorem gridExact_of_decodedGrid (hg : u.grid = s.decodedGrid) (hh : u.hdr = s.hdr) : u.gridExact := by
  rw [State.gridExact, hg, State.ht, State.wd, hh]
  exact gridOf_fst _ _

/-- The payload of the decoded grid is the source's (41_pixel_grid_codec.md R84). -/
theorem payload_of_decodedGrid (hg : u.grid = s.decodedGrid) (hh : u.hdr = s.hdr) (hw : u.bytew = s.bytew) (hb : s.bw ≤ 8)
    (hl : s.src.bytes.length = imageLength s.wd s.ht s.bw) : u.payload = s.src.bytes.drop 8 := by
  have hht : u.ht = s.ht := by rw [State.ht, hh]; rfl
  have hwd : u.wd = s.wd := by rw [State.wd, hh]; rfl
  have hbw : u.bw = s.bw := by rw [State.bw, hw]; rfl
  rw [State.decodedGrid_eq_gridFrom] at hg
  rw [State.payload, hht, hwd, hbw, ← rowMajor_flatMap_pixelBytes hl]
  refine flatMap_congr_mem fun p hp => ?_
  obtain ⟨hi, hj⟩ := mem_pairs.mp hp
  have hlen := pixelBytes_length hl hi hj
  rw [State.cell_of_gridFrom hg hwd hi hj, Option.getD_some]
  calc laneEmit (laneAssemble (pixelBytes s.src.bytes s.wd s.bw p.1 p.2)) s.bw
      = laneEmit (laneAssemble (pixelBytes s.src.bytes s.wd s.bw p.1 p.2))
          (pixelBytes s.src.bytes s.wd s.bw p.1 p.2).length := by rw [hlen]
    _ = pixelBytes s.src.bytes s.wd s.bw p.1 p.2 := laneEmit_laneAssemble _ (hlen.le.trans hb)

/-- Without pixels there is no payload. -/
theorem payload_of_no_pixels (hh : u.hdr = s.hdr) (hn : s.ht * s.wd = 0) : u.payload = [] := by
  have hn' : u.ht * u.wd = 0 := by rw [State.ht, State.wd, hh]; exact hn
  exact List.eq_nil_of_length_eq_zero (by rw [State.payload_length, hn', Nat.zero_mul])

end

/-- Settles O31: the payload of the grid a successful DECGRID leaves is what follows the header in the source, which is empty
when no pixel is declared. -/
theorem payloadRoundTrip : Obligations.PayloadRoundTrip := by
  intro s t he ht hs hb u hgrid hhdr hbytew hg ho h8 hl
  obtain ⟨hdec, hlen⟩ := exec_decgrid_decoded he ht hs
  obtain ⟨hth, htw, -⟩ := onlyDechdrWritesTheHeader .decgrid s t he (by decide)
  have hug := hgrid.trans hdec
  have huh := hhdr.trans hth
  have hpay : u.payload = s.src.bytes.drop 8 := by
    rcases hlen with hlen | ⟨hn, hl8⟩
    · exact payload_of_decodedGrid hug huh (hbytew.trans htw) hb hlen
    · rw [payload_of_no_pixels huh hn, List.drop_of_length_le hl8]
  obtain ⟨v, hev, hv⟩ := exec_encgrid_ok hg (gridExact_of_decodedGrid hug huh) ho h8
    ((State.takesAll_payload_iff h8).mpr fun l h => by rw [hl] at h; cases h)
  refine ⟨v, hev, ?_⟩
  rw [hv, ← hpay]

end Sys2Proof.Machine
end

section
/-!
PROOFS. Whole conversions of well-formed images (43_orchestration.md R103): the steps up to the decoded grid, the steps from
DSTOPEN to the end, and the conversion without flips (41_pixel_grid_codec.md R84).
-/

namespace Sys2Proof.Machine

/-! ### Conversions that meet no error -/

/-- A byte width of the table is kept by BYTEW. -/
theorem toNat_bytew_of_byteWidthOf {f : Field} {B : Nat} (h : byteWidthOf f = some B) : (BitVec.ofNat 4 B).toNat = B :=
  Option.some.inj ((byteWidthOf_eq_some_bytew h).symm.trans h)

/-- A branch of the table of 60_exceptions.md R119 that raises is not taken by a conversion without error. -/
theorem not_of_ite_eq_none {c : Prop} [Decidable c] {e x : ErrCode} (h : (if c then e else x) = .none) (he : e ≠ .none) :
    ¬ c ∧ x = .none := by
  split at h
  · exact absurd h he
  · next hc => exact ⟨hc, h⟩

/-- What holds of the streams when no line of the table of 60_exceptions.md R119 applies. -/
theorem of_conversionError_eq_none {src : Src} {dst : Dst} {cells : Nat} (h : conversionError src dst cells = .none) :
    src.ok = true ∧ dst.ok = true ∧ (headerOf src.bytes).valid = true ∧
    ∃ B, byteWidthOf (headerOf src.bytes).format = some B ∧
      (headerOf src.bytes).width.toNat * (headerOf src.bytes).height.toNat ≤ cells ∧
      src.bytes.length = imageLength (headerOf src.bytes).width.toNat (headerOf src.bytes).height.toNat B ∧
      ∀ l, dst.limit = some l →
        imageLength (headerOf src.bytes).width.toNat (headerOf src.bytes).height.toNat B ≤ l := by
  unfold conversionError at h
  obtain ⟨hok, h⟩ := not_of_ite_eq_none h nofun
  obtain ⟨-, h⟩ := not_of_ite_eq_none h nofun
  obtain ⟨hm, h⟩ := not_of_ite_eq_none h nofun
  obtain ⟨-, h⟩ := not_of_ite_eq_none h nofun
  obtain ⟨hdim, h⟩ := not_of_ite_eq_none h nofun
  obtain ⟨hw, hh⟩ := not_or.mp hdim
  cases hB : byteWidthOf (headerOf src.bytes).format with
  | none => rw [hB] at h; cases h
  | some B =>
    simp only [hB] at h
    obtain ⟨hc, h⟩ := not_of_ite_eq_none h nofun
    obtain ⟨hshort, h⟩ := not_of_ite_eq_none h nofun
    obtain ⟨hlong, h⟩ := not_of_ite_eq_none h nofun
    obtain ⟨hdok, h⟩ := not_of_ite_eq_none h nofun
    refine ⟨Bool.eq_true_of_not_eq_false hok, Bool.eq_true_of_not_eq_false hdok,
      valid_of (Bool.eq_true_of_not_eq_false hm) hw hh hB, B, rfl, Nat.le_of_not_lt hc,
      Nat.le_antisymm (Nat.le_of_not_lt hlong) (Nat.le_of_not_lt hshort), fun l hl => ?_⟩
    simp only [hl] at h
    exact Nat.le_of_not_lt (not_of_ite_eq_none h nofun).1

section
variable {s : State}

/-! ### The steps of a conversion

Each run is one step after the other; `generalize` names the state a step leaves, so that the next step is about a name. -/

/-- With a silent host the stage PHASE names is performed (43_orchestration.md R103). -/
theorem step_of_phase (p : Stage) (hh : s.host = []) (hp : s.phase = p) (hd : p ≠ .dechdr) : step s = exec p.instr s :=
  hp ▸ step_of_stage hh (hp ▸ hd)

/-- A legal command word is accepted while BUSY = 0 (43_orchestration.md R104). -/
theorem step_of_convert {c : BitVec 8} {fh fv : Bool} {rest : List HostMove} (hb : s.busy = false)
    (hh : s.host = .writeCmd c :: rest) (hd : decode (.command c) = .ok (.convert fh fv)) :
    step s = .next (State.start { s with host := rest } fh fv) := by
  have hbusy : ¬ s.busy = true := Bool.eq_false_iff.mp hb
  rw [step, State.work, hh, popHost_of_cons hh]
  simp only [runWord, hd]
  exact if_neg hbusy

theorem exec_srcopen_ok (h : s.src.ok = true) :
    exec .srcopen s = .next { s with src := { s.src with isOpen := true }, ipos := 0, phase := .dechdr } := by
  rw [exec, execSrcopen, srcOpen, if_pos h]
  rfl

theorem exec_dstopen_ok (h : s.dst.ok = true) :
    exec .dstopen s =
      .next { s with dst := { s.dst with isOpen := true, bytes := [] }, opos := 0, phase := .enchdr } := by
  rw [exec, execDstopen, dstOpen, if_pos h]
  rfl

/-- From the command to the decoded grid: its acceptance, SRCOPEN, DECHDR and DECGRID on a well-formed source
(43_orchestration.md R103). -/
theorem run_to_decodedGrid {c : BitVec 8} {fh fv : Bool} {B : Nat} (hb : s.busy = false) (hh : s.host = [.writeCmd c])
    (hd : decode (.command c) = .ok (.convert fh fv)) (hok : s.src.ok = true)
    (hv : (headerOf s.src.bytes).valid = true) (hB : byteWidthOf (headerOf s.src.bytes).format = some B)
    (hc : (headerOf s.src.bytes).width.toNat * (headerOf s.src.bytes).height.toNat ≤ s.gridCells)
    (hl : s.src.bytes.length =
      imageLength (headerOf s.src.bytes).width.toNat (headerOf s.src.bytes).height.toNat B) :
    ∃ t, Sys2Proof.core.run 4 s = .next t ∧ t.grid = t.decodedGrid ∧ t = { s with
      host := [], fh := fh, fv := fv, busy := true, done := false, ok := false, err := .none
      src := { s.src with isOpen := true }, ipos := s.src.bytes.length
      hdr := headerOf s.src.bytes, bytew := BitVec.ofNat 4 B, hv := true, gv := true
      phase := nextStage fh fv .decgrid, grid := t.grid
      pix := t.pix, row := t.row, col := t.col, lane := t.lane, draws := t.draws } := by
  have hn : 8 ≤ s.src.bytes.length := hl ▸ Nat.le_add_right 8 _
  have step1 := step_of_convert hb hh hd
  generalize h1 : State.start { s with host := [] } fh fv = s1 at step1
  have step2 := (step_of_phase (s := s1) .srcopen (by rw [← h1]; rfl) (by rw [← h1]; rfl) (by decide)).trans
    (exec_srcopen_ok (by rw [← h1]; exact hok))
  generalize h2 : { s1 with src := { s1.src with isOpen := true }, ipos := 0, phase := .dechdr } = s2 at step2
  have hs2 : s2.src.bytes = s.src.bytes := by rw [← h2, ← h1]; rfl
  have hcells : s2.gridCells = s.gridCells := by rw [← h2, ← h1]; rfl
  rw [← hs2] at hn hv hB hc hl
  have step3 := (step_of_dechdr (s := s2) (by rw [← h2, ← h1]; rfl) (by rw [← h2]) (by rw [← h2])).trans
    (exec_dechdr_ok (by rw [← h2]) (by rw [← h2]) hn hv hB)
  generalize h3 : { s2 with
      hdr := headerOf s2.src.bytes, bytew := BitVec.ofNat 4 B, hv := true, ipos := 8, phase := .decgrid } = s3 at step3
  have hlen : s3.src.bytes.length = imageLength s3.wd s3.ht s3.bw := by
    rw [← h3]
    exact hl.trans (congrArg _ (toNat_bytew_of_byteWidthOf hB).symm)
  obtain ⟨t, het, ht⟩ := exec_decgrid_ok (s := s3) (by rw [← h3]) (by rw [← h3, ← h2]) (by rw [← h3])
    (by rw [← h3]; exact hc.trans hcells.ge) hlen
  have step4 := (step_of_phase .decgrid (by rw [← h3, ← h2, ← h1]; rfl) (by rw [← h3]) (by decide)).trans het
  refine ⟨t, run_trans (run_trans (run_trans (run_one step1) (run_one step2)) (run_one step3)) (run_one step4), ?_, ?_⟩
  · rw [ht]; rfl
  · rw [ht, ← hlen]
    subst h3 h2 h1
    rfl

/-- From DSTOPEN to the idle block: DSTOPEN, ENCHDR, ENCGRID and CLOSE with a destination that takes the whole image
(43_orchestration.md R102, R103). -/
theorem run_from_dstopen (hh : s.host = []) (hp : s.phase = .dstopen) (hv : s.hv = true) (hg : s.gv = true)
    (hx : s.gridExact) (hok : s.dst.ok = true)
    (hl : ∀ l, s.dst.limit = some l → imageLength s.wd s.ht s.bw ≤ l) :
    ∃ t, Sys2Proof.core.run 4 s = .next t ∧ t = { s with
      src := { s.src with isOpen := false }
      dst := { s.dst with isOpen := false, bytes := headerBytes s.hdr ++ s.payload }
      opos := imageLength s.wd s.ht s.bw, gv := false, ok := decide (s.err = .none), busy := false, done := true
      phase := .idle, grid := []
      pix := t.pix, row := t.row, col := t.col, lane := t.lane, draws := t.draws } := by
  have hn : ∀ l, s.dst.limit = some l → 8 ≤ l := fun l h => (Nat.le_add_right 8 _).trans (hl l h)
  have step1 := (step_of_phase .dstopen hh hp (by decide)).trans (exec_dstopen_ok hok)
  generalize h1 : { s with dst := { s.dst with isOpen := true, bytes := [] }, opos := 0, phase := .enchdr } = s1 at step1
  have h0 : s1.opos = 0 := by rw [← h1]
  have step2 := (step_of_phase .enchdr (by rw [← h1]; exact hh) (by rw [← h1]) (by decide)).trans
    (exec_enchdr_ok (by rw [← h1]; exact hv) (by rw [← h1]) h0
      ((State.takesAll_headerBytes_iff h0 _).mpr (by rw [← h1]; exact hn)))
  generalize h2 : { s1 with
      dst := { s1.dst with bytes := s1.dst.bytes ++ headerBytes s1.hdr }, opos := 8, phase := .encgrid } = s2 at step2
  have h8 : s2.opos = 8 := by rw [← h2]
  obtain ⟨s3, he3, h3⟩ := exec_encgrid_ok (s := s2) (by rw [← h2, ← h1]; exact hg) (by rw [← h2, ← h1]; exact hx)
    (by rw [← h2, ← h1]) h8
    ((State.takesAll_payload_iff h8).mpr fun l h => .inr (by rw [← h2, ← h1] at h ⊢; exact hl l h))
  have step3 := (step_of_phase .encgrid (by rw [← h2, ← h1]; exact hh) (by rw [← h2]) (by decide)).trans he3
  have step4 : step s3 = .next s3.closeStreams.forgetGrid.closeFlags :=
    step_of_phase .close (by rw [h3, ← h2, ← h1]; exact hh) (by rw [h3]) (by decide)
  refine ⟨_, run_trans (run_trans (run_trans (run_one step1) (run_one step2)) (run_one step3)) (run_one step4), ?_⟩
  rw [h3]
  subst h2 h1
  rfl

end

/-- Settles O52: the command's word has no flip, so DSTOPEN follows DECGRID and what is written is the header that was decoded
and the payload of the decoded grid. -/
theorem unflippedConversionCopies : Obligations.UnflippedConversionCopies := by
  intro s hb hh herr
  obtain ⟨hok, hdok, hv, B, hB, hc, hl, hlim⟩ := of_conversionError_eq_none herr
  obtain ⟨t, hrun, hgrid, ht⟩ := run_to_decodedGrid hb hh (decode_encode (.convert false false)) hok hv hB hc hl
  have hthdr : t.hdr = headerOf s.src.bytes := by rw [ht]
  have htw : t.wd = (headerOf s.src.bytes).width.toNat := congrArg (fun h => h.width.toNat) hthdr
  have hth : t.ht = (headerOf s.src.bytes).height.toNat := congrArg (fun h => h.height.toNat) hthdr
  have htbytew : t.bytew = BitVec.ofNat 4 B := by rw [ht]
  have htb : t.bw = B := (congrArg BitVec.toNat htbytew).trans (toNat_bytew_of_byteWidthOf hB)
  have htsrc : t.src.bytes = s.src.bytes := by rw [ht]
  obtain ⟨u, hrun', hu⟩ := run_from_dstopen (s := t) (by rw [ht]) (by rw [ht]; rfl) (by rw [ht]) (by rw [ht])
    (gridExact_of_decodedGrid hgrid rfl) (by rw [ht]; exact hdok)
    (by rw [htw, hth, htb, ht]; exact hlim)
  have huh : u.host = [] := by rw [hu, ht]
  have hup : u.phase = .idle := by rw [hu]
  refine ⟨u, run_trans (run_trans hrun hrun') (run_of_idle huh hup 2), ?_⟩
  have hpay : t.payload = s.src.bytes.drop 8 := by
    rw [payload_of_decodedGrid hgrid rfl rfl (htb.le.trans (byteWidthOf_le hB))
      (by rw [htsrc, htw, hth, htb]; exact hl), htsrc]
  calc u.dst.bytes = headerBytes t.hdr ++ t.payload := by rw [hu]
    _ = s.src.bytes.take 8 ++ s.src.bytes.drop 8 := by
      rw [hthdr, headerBytes_headerOf _ (hl ▸ Nat.le_add_right 8 _), hpay]
    _ = s.src.bytes := List.take_append_drop 8 _

end Sys2Proof.Machine
end

section
/-!
PROOFS. The Transform Engine: FLIPH and FLIPV as whole instructions, and what mirroring does to a grid (42_transform_engine.md).
The four ways to mirror a grid, none, the columns, the rows and both, compose as their flags do under exclusive or; that the
flips are involutions (R93) and commute (R94) is read off from there.
-/

namespace Sys2Proof.Machine

/-! ### The mirrored place -/

/-- The index `i` below `n`, counted from the other end when `flag` is set. -/
def mirrorIndex (flag : Bool) (n i : Nat) : Nat := if flag then n - 1 - i else i

theorem mirrorIndex_lt {n i : Nat} (flag : Bool) (h : i < n) : mirrorIndex flag n i < n := by
  cases flag with
  | false => exact h
  | true => show n - 1 - i < n; omega

theorem mirrorIndex_mirrorIndex {n i : Nat} (a b : Bool) (h : i < n) :
    mirrorIndex a n (mirrorIndex b n i) = mirrorIndex (a ^^ b) n i := by
  cases a with
  | false => rw [Bool.false_xor]; rfl
  | true =>
    cases b with
    | false => rfl
    | true => show n - 1 - (n - 1 - i) = i; omega

/-- The place in `h` rows and `w` columns whose value comes to `p` when the columns (`fh`) and the rows (`fv`) are mirrored
(42_transform_engine.md R90, R91, R94). -/
def mirrorPlace (fh fv : Bool) (h w : Nat) (p : Nat × Nat) : Nat × Nat := (mirrorIndex fv h p.1, mirrorIndex fh w p.2)

theorem mirrorPlace_mem {h w : Nat} {p : Nat × Nat} (fh fv : Bool) (hp : p ∈ rowMajor h w) :
    mirrorPlace fh fv h w p ∈ rowMajor h w := by
  obtain ⟨hi, hj⟩ := mem_pairs.mp hp
  exact mem_pairs.mpr ⟨mirrorIndex_lt fv hi, mirrorIndex_lt fh hj⟩

theorem mirrorPlace_mirrorPlace {h w : Nat} {p : Nat × Nat} (a b c d : Bool) (hp : p ∈ rowMajor h w) :
    mirrorPlace a b h w (mirrorPlace c d h w p) = mirrorPlace (a ^^ c) (b ^^ d) h w p := by
  obtain ⟨hi, hj⟩ := mem_pairs.mp hp
  exact Prod.ext (mirrorIndex_mirrorIndex b d hi) (mirrorIndex_mirrorIndex a c hj)

/-- Mirroring the same way twice gives every place back (42_transform_engine.md R93). -/
theorem mirrorPlace_self {h w : Nat} {p : Nat × Nat} (fh fv : Bool) (hp : p ∈ rowMajor h w) :
    mirrorPlace fh fv h w (mirrorPlace fh fv h w p) = p := by
  rw [mirrorPlace_mirrorPlace _ _ _ _ hp, Bool.xor_self, Bool.xor_self]
  rfl

/-- Mirroring only reorders the places (42_transform_engine.md R92). -/
theorem map_mirrorPlace_perm (fh fv : Bool) (h w : Nat) :
    ((rowMajor h w).map (mirrorPlace fh fv h w)).Perm (rowMajor h w) := by
  have hinj : ∀ p ∈ rowMajor h w, ∀ q ∈ rowMajor h w, mirrorPlace fh fv h w p = mirrorPlace fh fv h w q → p = q :=
    fun p hp q hq e => by rw [← mirrorPlace_self fh fv hp, e, mirrorPlace_self fh fv hq]
  refine (List.perm_ext_iff_of_nodup ((pairs_nodup h w).map_on hinj) (pairs_nodup h w)).mpr fun p => ?_
  rw [List.mem_map]
  constructor
  · rintro ⟨q, hq, rfl⟩
    exact mirrorPlace_mem fh fv hq
  · exact fun hp => ⟨_, mirrorPlace_mem fh fv hp, mirrorPlace_self fh fv hp⟩

section
variable {s t u : State} {fh fv : Bool}

/-! ### The mirrored grid -/

/-- The grid of `s` with its columns (`fh`) and its rows (`fv`) mirrored. -/
def State.mirroredGrid (s : State) (fh fv : Bool) : GridMem :=
  gridFrom s.ht s.wd fun p => (s.cell (mirrorPlace fh fv s.ht s.wd p).1 (mirrorPlace fh fv s.ht s.wd p).2).getD 0

/-- A grid mirrored in neither way is the grid. -/
theorem State.mirroredGrid_false_false (hx : s.gridExact) : s.mirroredGrid false false = s.grid :=
  (State.grid_eq_gridFrom hx).symm

/-- `t` has the header of `s`, and its grid with the columns (`fh`) and the rows (`fv`) mirrored. -/
structure Mirrors (fh fv : Bool) (s t : State) : Prop where
  hdr : t.hdr = s.hdr
  bytew : t.bytew = s.bytew
  gv : t.gv = s.gv
  grid : t.grid = s.mirroredGrid fh fv

theorem Mirrors.ht (h : Mirrors fh fv s t) : t.ht = s.ht := congrArg (fun d => d.height.toNat) h.hdr

theorem Mirrors.wd (h : Mirrors fh fv s t) : t.wd = s.wd := congrArg (fun d => d.width.toNat) h.hdr

theorem Mirrors.bw (h : Mirrors fh fv s t) : t.bw = s.bw := congrArg BitVec.toNat h.bytew

/-- Mirroring keeps the dimensions (42_transform_engine.md R92). -/
theorem Mirrors.gridExact (h : Mirrors fh fv s t) : t.gridExact := gridExact_of_gridFrom h.grid h.ht h.wd

/-- A cell of the mirrored grid is the cell at the mirrored place (42_transform_engine.md R90, R91). -/
theorem Mirrors.cell (h : Mirrors fh fv s t) (hx : s.gridExact) {i j : Nat} (hi : i < s.ht) (hj : j < s.wd) :
    t.cell i j = s.cell (mirrorIndex fv s.ht i) (mirrorIndex fh s.wd j) :=
  (State.cell_of_gridFrom h.grid h.wd hi hj).trans
    (State.cell_of_gridExact hx (mirrorIndex_lt fv hi) (mirrorIndex_lt fh hj)).symm

/-- Mirroring a mirrored grid combines the flags by exclusive or. -/
theorem Mirrors.trans {a b : Bool} (h : Mirrors fh fv s t) (h' : Mirrors a b t u) : Mirrors (fh ^^ a) (fv ^^ b) s u where
  hdr := h'.hdr.trans h.hdr
  bytew := h'.bytew.trans h.bytew
  gv := h'.gv.trans h.gv
  grid := by
    rw [h'.grid, State.mirroredGrid, h.ht, h.wd]
    refine gridFrom_congr fun i j hi hj => ?_
    have hp : (i, j) ∈ rowMajor s.ht s.wd := mem_pairs.mpr ⟨hi, hj⟩
    obtain ⟨hi', hj'⟩ := mem_pairs.mp (mirrorPlace_mem a b hp)
    rw [State.cell_of_gridFrom h.grid h.wd hi' hj', mirrorPlace_mirrorPlace _ _ _ _ hp]
    rfl

/-- Mirroring moves cell values as a whole: none is made and none is lost (42_transform_engine.md R92). -/
theorem Mirrors.values_perm (h : Mirrors fh fv s t) (hx : s.gridExact) :
    (t.grid.map Prod.snd).Perm (s.grid.map Prod.snd) := by
  rw [h.grid, State.mirroredGrid, State.grid_eq_gridFrom hx, gridFrom_values, gridFrom_values]
  simpa only [List.map_map, Function.comp_def] using
    (map_mirrorPlace_perm fh fv s.ht s.wd).map fun p => (s.cell p.1 p.2).getD 0

/-! ### FLIPH and FLIPV -/

/-- FLIPH on a grid with the header's dimensions mirrors its columns (42_transform_engine.md R90). -/
theorem exec_fliph_ok (hg : s.gv = true) (hx : s.gridExact) :
    ∃ t, exec .fliph s = .next t ∧ Mirrors true false s t ∧ t = { s with
      phase := nextStage s.fh s.fv .fliph, grid := t.grid
      pix := t.pix, row := t.row, col := t.col, lane := t.lane, draws := t.draws } := by
  obtain ⟨r, c, hw⟩ := fliph_walk_ok hx
  rw [exec, execFliph, need_of hg, hw]
  exact ⟨_, rfl, ⟨rfl, rfl, rfl, rfl⟩, rfl⟩

/-- FLIPV on a grid with the header's dimensions mirrors its rows (42_transform_engine.md R91). -/
theorem exec_flipv_ok (hg : s.gv = true) (hx : s.gridExact) :
    ∃ t, exec .flipv s = .next t ∧ Mirrors false true s t ∧ t = { s with
      phase := nextStage s.fh s.fv .flipv, grid := t.grid
      pix := t.pix, row := t.row, col := t.col, lane := t.lane, draws := t.draws } := by
  obtain ⟨r, c, hw⟩ := flipv_walk_ok hx
  rw [exec, execFlipv, need_of hg, hw]
  exact ⟨_, rfl, ⟨rfl, rfl, rfl, rfl⟩, rfl⟩

/-- Each flip mirrors every grid in one and the same way. -/
theorem exec_flip_mirrors {i : Instr} (hi : i = .fliph ∨ i = .flipv) :
    ∃ a b : Bool, ∀ s : State, s.gv = true → s.gridExact → ∃ t, exec i s = .next t ∧ Mirrors a b s t := by
  rcases hi with rfl | rfl
  · refine ⟨true, false, fun s hg hx => ?_⟩
    obtain ⟨t, he, hm, -⟩ := exec_fliph_ok hg hx
    exact ⟨t, he, hm⟩
  · refine ⟨false, true, fun s hg hx => ?_⟩
    obtain ⟨t, he, hm, -⟩ := exec_flipv_ok hg hx
    exact ⟨t, he, hm⟩

end

/-- Settles O20: a cell of the mirrored grid is the cell at the mirrored column. -/
theorem fliphMirrorsTheColumns : Obligations.FliphMirrorsTheColumns := by
  intro s hg hx
  obtain ⟨t, he, hm, ht⟩ := exec_fliph_ok hg hx
  exact ⟨t, he, fun _ _ => hm.cell hx, hm.gridExact, ht⟩

/-- Settles O21: a cell of the mirrored grid is the cell at the mirrored row. -/
theorem flipvMirrorsTheRows : Obligations.FlipvMirrorsTheRows := by
  intro s hg hx
  obtain ⟨t, he, hm, ht⟩ := exec_flipv_ok hg hx
  exact ⟨t, he, fun _ _ => hm.cell hx, hm.gridExact, ht⟩

/-- Settles O22: the values are those before in another order, so what every value satisfies it still satisfies. -/
theorem flipsPermuteTheCells : Obligations.FlipsPermuteTheCells := by
  intro s i hi hg hx
  obtain ⟨a, b, hflip⟩ := exec_flip_mirrors hi
  obtain ⟨t, he, hm⟩ := hflip s hg hx
  have hperm := hm.values_perm hx
  refine ⟨t, he, hperm, hm.gridExact, fun hz kv hkv => ?_⟩
  obtain ⟨kv', hkv', hval⟩ := List.mem_map.mp (hperm.mem_iff.mp (List.mem_map_of_mem hkv))
  rw [hm.bw, ← hval]
  exact hz kv' hkv'

/-- Settles O23: the flags of two equal flips cancel. -/
theorem flipsAreInvolutions : Obligations.FlipsAreInvolutions := by
  intro s i hi hg hx
  obtain ⟨a, b, hflip⟩ := exec_flip_mirrors hi
  obtain ⟨t, het, hst⟩ := hflip s hg hx
  obtain ⟨u, heu, htu⟩ := hflip t (hst.gv.trans hg) hst.gridExact
  refine ⟨t, u, het, heu, ?_⟩
  rw [(hst.trans htu).grid, Bool.xor_self, Bool.xor_self, State.mirroredGrid_false_false hx]

/-- Settles O24: in either order the two flips mirror the grid in both ways. -/
theorem flipsCommute : Obligations.FlipsCommute := by
  intro s hg hx
  obtain ⟨a, hea, hsa, -⟩ := exec_fliph_ok hg hx
  obtain ⟨b, heb, hab, -⟩ := exec_flipv_ok (hsa.gv.trans hg) hsa.gridExact
  obtain ⟨c, hec, hsc, -⟩ := exec_flipv_ok hg hx
  obtain ⟨d, hed, hcd, -⟩ := exec_fliph_ok (hsc.gv.trans hg) hsc.gridExact
  have hsb : Mirrors true true s b := hsa.trans hab
  have hsd : Mirrors true true s d := hsc.trans hcd
  exact ⟨a, b, c, d, hea, heb, hec, hed, hsb.grid.trans hsd.grid.symm, fun _ _ => hsb.cell hx⟩

end Sys2Proof.Machine
end

section
/-!
PROOFS. Whole conversions with flips (43_orchestration.md R103): the steps from the decoded grid to DSTOPEN, what a conversion
without error leaves, and two conversions that undo each other (95_test_vectors.md P7).
-/

namespace Sys2Proof.Machine

section
variable {s t u : State} {fh fv : Bool}

/-! ### From the decoded grid to DSTOPEN -/

/-- A flip that is not asked for takes no step: the grid stays and PHASE is already past it. -/
theorem run_skip {p : Stage} (hp : s.phase = p) (hx : s.gridExact) :
    Sys2Proof.core.run 0 s = .next s ∧ Mirrors false false s s ∧ s = { s with phase := p } :=
  ⟨run_zero s, ⟨rfl, rfl, rfl, (State.mirroredGrid_false_false hx).symm⟩, congrArg (fun q => { s with phase := q }) hp⟩

/-- FLIPH is performed when it is asked for and skipped when not (43_orchestration.md R103). -/
theorem run_fliph_or_skip (hh : s.host = []) (hfv : s.fv = fv) (hp : s.phase = nextStage fh fv .decgrid)
    (hg : s.gv = true) (hx : s.gridExact) :
    ∃ t, Sys2Proof.core.run fh.toNat s = .next t ∧ Mirrors fh false s t ∧ t = { s with
      phase := nextStage fh fv .fliph, grid := t.grid
      pix := t.pix, row := t.row, col := t.col, lane := t.lane, draws := t.draws } := by
  cases fh with
  | false => exact ⟨s, run_skip hp hx⟩
  | true =>
    obtain ⟨t, he, hm, ht⟩ := exec_fliph_ok hg hx
    subst hfv
    exact ⟨t, run_one ((step_of_phase .fliph hh hp (by decide)).trans he), hm, ht⟩

/-- FLIPV is performed when it is asked for and skipped when not (43_orchestration.md R103). -/
theorem run_flipv_or_skip (hh : s.host = []) (hp : s.phase = nextStage fh fv .fliph) (hg : s.gv = true)
    (hx : s.gridExact) :
    ∃ t, Sys2Proof.core.run fv.toNat s = .next t ∧ Mirrors false fv s t ∧ t = { s with
      phase := .dstopen, grid := t.grid
      pix := t.pix, row := t.row, col := t.col, lane := t.lane, draws := t.draws } := by
  cases fv with
  | false => exact ⟨s, run_skip hp hx⟩
  | true =>
    obtain ⟨t, he, hm, ht⟩ := exec_flipv_ok hg hx
    exact ⟨t, run_one ((step_of_phase .flipv hh hp (by decide)).trans he), hm, ht⟩

/-- From the decoded grid to DSTOPEN: the grid is mirrored as the flags say (43_orchestration.md R103). -/
theorem run_flips (hh : s.host = []) (hfv : s.fv = fv) (hp : s.phase = nextStage fh fv .decgrid)
    (hg : s.gv = true) (hx : s.gridExact) :
    ∃ t, Sys2Proof.core.run (fh.toNat + fv.toNat) s = .next t ∧ Mirrors fh fv s t ∧ t = { s with
      phase := .dstopen, grid := t.grid
      pix := t.pix, row := t.row, col := t.col, lane := t.lane, draws := t.draws } := by
  obtain ⟨t, hrun, hst, ht⟩ := run_fliph_or_skip hh hfv hp hg hx
  obtain ⟨u, hrun', htu, hu⟩ := run_flipv_or_skip (s := t) (by rw [ht]; exact hh) (by rw [ht]) (hst.gv.trans hg) hst.gridExact
  have hsu := hst.trans htu
  rw [Bool.xor_false, Bool.false_xor] at hsu
  refine ⟨u, run_trans hrun hrun', hsu, ?_⟩
  rw [hu, ht]

/-! ### What a conversion writes -/

/-- The pixel at the mirrored place, as `completeOutput` writes it. -/
theorem completeOutput_eq (b : List Byte) (fh fv : Bool) {W H B : Nat} (hW : (headerOf b).width.toNat = W)
    (hH : (headerOf b).height.toNat = H) (hB : byteWidthOf (headerOf b).format = some B) :
    completeOutput b fh fv = b.take 8 ++ (rowMajor H W).flatMap fun p =>
      pixelBytes b W B (mirrorPlace fh fv H W p).1 (mirrorPlace fh fv H W p).2 := by
  subst hW hH
  rw [completeOutput, hB]
  rfl

/-- The pixel at a mirrored place has the byte width. -/
theorem mirroredPixel_length {b : List Byte} {W H B : Nat} {p : Nat × Nat} (fh fv : Bool)
    (hl : b.length = imageLength W H B) (hp : p ∈ rowMajor H W) :
    (pixelBytes b W B (mirrorPlace fh fv H W p).1 (mirrorPlace fh fv H W p).2).length = B := by
  obtain ⟨hi, hj⟩ := mem_pairs.mp (mirrorPlace_mem fh fv hp)
  exact pixelBytes_length hl hi hj

/-- The payload of a mirrored grid holds the decoded grid's pixels at their mirrored places (43_orchestration.md R103). -/
theorem Mirrors.payload (h : Mirrors fh fv s t) (hg : s.grid = s.decodedGrid) (hb : s.bw ≤ 8)
    (hl : s.src.bytes.length = imageLength s.wd s.ht s.bw) :
    t.payload = (rowMajor s.ht s.wd).flatMap fun p =>
      pixelBytes s.src.bytes s.wd s.bw (mirrorPlace fh fv s.ht s.wd p).1 (mirrorPlace fh fv s.ht s.wd p).2 := by
  rw [State.decodedGrid_eq_gridFrom] at hg
  rw [State.payload, h.ht, h.wd, h.bw]
  refine flatMap_congr_mem fun p hp => ?_
  obtain ⟨hi, hj⟩ := mem_pairs.mp hp
  obtain ⟨hi', hj'⟩ := mem_pairs.mp (mirrorPlace_mem fh fv hp)
  have hlen := mirroredPixel_length fh fv hl hp
  rw [State.cell_of_gridFrom h.grid h.wd hi hj, Option.getD_some, State.cell_of_gridFrom hg rfl hi' hj', Option.getD_some]
  have key := laneEmit_laneAssemble _ (hlen.le.trans hb)
  rwa [hlen] at key

/-! ### Conversions without error -/

/-- A conversion that meets no error writes the complete output (43_orchestration.md R103): four steps to the decoded grid,
one for each flip, four from DSTOPEN, and the block stays idle for the rest of the ten. -/
theorem run_conversion {c : BitVec 8} (hb : s.busy = false) (hh : s.host = [.writeCmd c])
    (hd : decode (.command c) = .ok (.convert fh fv)) (herr : conversionError s.src s.dst s.gridCells = .none) :
    ∃ t, Sys2Proof.core.run 10 s = .next t ∧ byteWidthOf t.hdr.format = some t.bw ∧ t = { s with
      host := [], fh := fh, fv := fv, busy := false, done := true, ok := true, err := .none, phase := .idle
      hdr := headerOf s.src.bytes, bytew := t.bytew, hv := true, gv := false, grid := []
      src := { s.src with isOpen := false }, ipos := s.src.bytes.length
      dst := { s.dst with isOpen := false, bytes := completeOutput s.src.bytes fh fv }, opos := s.src.bytes.length
      pix := t.pix, row := t.row, col := t.col, lane := t.lane, draws := t.draws } := by
  obtain ⟨hok, hdok, hv, B, hB, hc, hl, hlim⟩ := of_conversionError_eq_none herr
  obtain ⟨t, hrun, hgrid, ht⟩ := run_to_decodedGrid hb hh hd hok hv hB hc hl
  have hthdr : t.hdr = headerOf s.src.bytes := by rw [ht]
  have htw : (headerOf s.src.bytes).width.toNat = t.wd := congrArg (fun h => h.width.toNat) hthdr.symm
  have hth : (headerOf s.src.bytes).height.toNat = t.ht := congrArg (fun h => h.height.toNat) hthdr.symm
  have htbytew : t.bytew = BitVec.ofNat 4 B := by rw [ht]
  have htb : t.bw = B := (congrArg BitVec.toNat htbytew).trans (toNat_bytew_of_byteWidthOf hB)
  have htsrc : t.src.bytes = s.src.bytes := by rw [ht]
  rw [← htb] at hB hl hlim
  rw [htw, hth] at hl hlim
  obtain ⟨u, hrun', htu, hu⟩ := run_flips (s := t) (fh := fh) (fv := fv) (by rw [ht]) (by rw [ht]) (by rw [ht]) (by rw [ht])
    (gridExact_of_decodedGrid hgrid rfl)
  have hudst : u.dst = s.dst := by rw [hu, ht]
  have hulen : imageLength u.wd u.ht u.bw = s.src.bytes.length := by rw [htu.wd, htu.ht, htu.bw, hl]
  obtain ⟨v, hrun'', hv'⟩ := run_from_dstopen (s := u) (by rw [hu, ht]) (by rw [hu]) (by rw [hu, ht]) (by rw [hu, ht])
    htu.gridExact (by rw [hudst]; exact hdok) (by rw [hudst, hulen, hl]; exact hlim)
  have hout : headerBytes u.hdr ++ u.payload = completeOutput s.src.bytes fh fv := by
    rw [completeOutput_eq _ _ _ htw hth hB, htu.payload hgrid (byteWidthOf_le hB) (by rw [htsrc]; exact hl), htsrc, htu.hdr,
      hthdr, headerBytes_headerOf _ (hl ▸ Nat.le_add_right 8 _)]
  have hidle := run_of_idle (s := v) (by rw [hv', hu, ht]) (by rw [hv']) (10 - (4 + (fh.toNat + fv.toNat) + 4))
  have hsteps : 4 + (fh.toNat + fv.toNat) + 4 + (10 - (4 + (fh.toNat + fv.toNat) + 4)) = 10 := by
    have := fh.toNat_le
    have := fv.toNat_le
    omega
  rw [hout, hulen] at hv'
  refine ⟨v, hsteps ▸ run_trans (run_trans (run_trans hrun hrun') hrun'') hidle, ?_, ?_⟩
  · have hvhdr : v.hdr = headerOf s.src.bytes := by rw [hv', hu, ht]
    have hvbytew : v.bytew = t.bytew := by rw [hv', hu]
    have hvb : v.bw = t.bw := congrArg BitVec.toNat hvbytew
    rw [hvhdr, hvb, hB]
  · rw [hv', hu, ht]
    rfl

end

/-! ### Two conversions -/

/-- The error depends on the source's bytes through their number and their header only (60_exceptions.md R119). -/
theorem conversionError_congr {src src' : Src} (hok : src'.ok = src.ok) (hn : src'.bytes.length = src.bytes.length)
    (hh : headerOf src'.bytes = headerOf src.bytes) (dst : Dst) (cells : Nat) :
    conversionError src' dst cells = conversionError src dst cells := by
  simp only [conversionError, hok, hn, hh]

section
variable {b : List Byte} {B : Nat} (hB : byteWidthOf (headerOf b).format = some B)
  (hl : b.length = imageLength (headerOf b).width.toNat (headerOf b).height.toNat B) (fh fv : Bool)
include hB hl

/-- The output of a conversion has the source's header (43_orchestration.md R103). -/
theorem headerOf_completeOutput : headerOf (completeOutput b fh fv) = headerOf b := by
  rw [completeOutput_eq b fh fv rfl rfl hB, ← headerBytes_headerOf b (hl ▸ Nat.le_add_right 8 _), headerOf_headerBytes]

/-- The output of a conversion has the source's length (43_orchestration.md R103). -/
theorem completeOutput_length : (completeOutput b fh fv).length = b.length := by
  rw [completeOutput_eq b fh fv rfl rfl hB, List.length_append, List.length_take_of_le (hl ▸ Nat.le_add_right 8 _),
    flatMap_length_const _ B, rowMajor_length, hl, imageLength_eq]
  exact fun p hp => mirroredPixel_length fh fv hl hp

/-- A pixel of the output is the source's at the mirrored place (43_orchestration.md R103). -/
theorem pixelBytes_completeOutput {p : Nat × Nat}
    (hp : p ∈ rowMajor (headerOf b).height.toNat (headerOf b).width.toNat) :
    pixelBytes (completeOutput b fh fv) (headerOf b).width.toNat B p.1 p.2 =
      pixelBytes b (headerOf b).width.toNat B
        (mirrorPlace fh fv (headerOf b).height.toNat (headerOf b).width.toNat p).1
        (mirrorPlace fh fv (headerOf b).height.toNat (headerOf b).width.toNat p).2 := by
  obtain ⟨hi, hj⟩ := mem_pairs.mp hp
  rw [completeOutput_eq b fh fv rfl rfl hB]
  exact pixelBytes_of_pixels (List.length_take_of_le (hl ▸ Nat.le_add_right 8 _)) _
    (fun q hq => mirroredPixel_length fh fv hl hq) hi hj

/-- The output converted again with the same flags is the image (95_test_vectors.md P7): every pixel is mirrored twice. -/
theorem completeOutput_completeOutput : completeOutput (completeOutput b fh fv) fh fv = b := by
  have hhead := headerOf_completeOutput hB hl fh fv
  have htake : (completeOutput b fh fv).take 8 = b.take 8 := by
    rw [completeOutput, List.take_left' (List.length_take_of_le (hl ▸ Nat.le_add_right 8 _))]
  rw [completeOutput_eq _ fh fv (by rw [hhead]) (by rw [hhead]) (by rw [hhead]; exact hB), htake]
  refine Eq.trans (congrArg (b.take 8 ++ ·) ?_) (List.take_append_drop 8 b)
  rw [← rowMajor_flatMap_pixelBytes hl]
  refine flatMap_congr_mem fun p hp => ?_
  rw [pixelBytes_completeOutput hB hl fh fv (mirrorPlace_mem fh fv hp), mirrorPlace_self fh fv hp]

end

/-- Settles O53: the second conversion finds a source of the same header and length, so it meets no error either, and it mirrors
every pixel back. -/
theorem convertingTwiceRestoresTheSource : Obligations.ConvertingTwiceRestoresTheSource := by
  intro s s' fh fv c hd hb hh herr hb' hh' hok' hdst hcells hsrc
  obtain ⟨hok, -, -, B, hB, -, hl, -⟩ := of_conversionError_eq_none herr
  obtain ⟨t, hrun, -, ht⟩ := run_conversion hb hh hd herr
  have hbytes : s'.src.bytes = completeOutput s.src.bytes fh fv := by rw [hsrc t hrun, ht]
  have herr' : conversionError s'.src s'.dst s'.gridCells = .none := by
    rw [hdst, hcells, conversionError_congr (hok'.trans hok.symm), herr]
    · rw [hbytes, completeOutput_length hB hl]
    · rw [hbytes, headerOf_completeOutput hB hl]
  obtain ⟨u, hrun', -, hu⟩ := run_conversion hb' hh' hd herr'
  exact ⟨u, hrun', by rw [hu], by rw [hu, hbytes, completeOutput_completeOutput hB hl]⟩

end Sys2Proof.Machine
end

section
/-!
PROOFS. The orchestration of a conversion (43_orchestration.md): a command is accepted, ignored or refused, the stages that open
and close the streams, the end of every run, and the image a successful conversion writes.
-/

namespace Sys2Proof.Machine

section
variable {s t : State}

/-! ### Every run ends

Each step of the silent machine lowers `State.stepsLeft`, so the block is idle after that many steps (43_orchestration.md R108). -/

/-- How many steps lead from the start of a stage to the idle block when every stage of the sequence is performed
(43_orchestration.md R103). -/
def Stage.rank (p : Stage) : Nat := if p = .idle then 0 else 10 - p.code.toNat

/-- A bound on the steps to the idle block. Just after the marker DECHDR has two steps of its own left, at its start and after
the last byte of the header one (log entry 9). -/
def State.stepsLeft (s : State) : Nat := s.phase.rank + if s.phase = .dechdr ∧ s.ipos = 2 then 1 else 0

theorem Stage.rank_le (p : Stage) : p.rank ≤ 9 := by
  cases p <;> decide

theorem State.stepsLeft_le (s : State) : s.stepsLeft ≤ 9 := by
  unfold State.stepsLeft
  split
  · next h => rw [h.1]; decide
  · exact s.phase.rank_le

/-- The next stage of the sequence is nearer to the idle block. -/
theorem rank_nextStage_lt {p : Stage} (hi : p ≠ .idle) (fh fv : Bool) : (nextStage fh fv p).rank < p.rank := by
  revert fh fv
  cases p with
  | idle => exact absurd rfl hi
  | _ => decide

/-- No stage but SRCOPEN leads to DECHDR. -/
theorem nextStage_ne_dechdr {p : Stage} (hp : p ≠ .srcopen) (fh fv : Bool) : nextStage fh fv p ≠ .dechdr := by
  revert fh fv
  cases p with
  | srcopen => exact absurd rfl hp
  | _ => decide

/-- CLOSE is the last stage. -/
theorem rank_close_lt {p : Stage} (hi : p ≠ .idle) (hc : p ≠ .close) : Stage.close.rank < p.rank := by
  cases p with
  | idle => exact absurd rfl hi
  | close => exact absurd rfl hc
  | _ => decide

theorem stepsLeft_lt_of_rank_lt {p q : Stage} (hs : s.phase = p) (ht : t.phase = q) (hr : q.rank < p.rank)
    (hm : q = .dechdr → t.ipos ≠ 2) : t.stepsLeft < s.stepsLeft := by
  subst hs ht
  rw [State.stepsLeft, if_neg fun h => hm h.1 h.2]
  exact Nat.lt_add_right _ hr

/-- An error leads to CLOSE at once (60_exceptions.md R121). -/
theorem stepsLeft_lt_of_close (hi : s.phase ≠ .idle) (hc : s.phase ≠ .close) (ht : t.phase = .close) :
    t.stepsLeft < s.stepsLeft :=
  stepsLeft_lt_of_rank_lt rfl ht (rank_close_lt hi hc) nofun

/-- Both ends of a stage are nearer to the idle block than the stage. -/
theorem stepsLeft_lt_of_stageEnd {p : Stage} (hp : s.phase = p) (hne : p ∉ [Stage.idle, .srcopen, .close]) {u : State}
    (h : t = { u with phase := nextStage u.fh u.fv p } ∨ ∃ e, t = raiseError e u) : t.stepsLeft < s.stepsLeft := by
  simp only [List.mem_cons, List.not_mem_nil, or_false, not_or] at hne
  obtain ⟨hi, hs, hc⟩ := hne
  subst hp
  rcases h with rfl | ⟨e, rfl⟩
  · exact stepsLeft_lt_of_rank_lt rfl rfl (rank_nextStage_lt hi _ _) fun h => absurd h (nextStage_ne_dechdr hs _ _)
  · exact stepsLeft_lt_of_close hi hc rfl

/-- A marker row takes six bytes and leaves DECHDR under way, or it ends the conversion (30_encoding.md R52). -/
theorem markerRow_goesOn_or_closes {m : Field} (ho : s.src.isOpen = true) (h : markerRow m s = .next t) :
    t.phase = s.phase ∧ t.ipos = s.ipos + 6 ∨ t.phase = .close := by
  by_cases hn : s.ipos + 6 ≤ s.src.bytes.length
  · rw [markerRow, acceptMarker_ok ho hn] at h
    split at h <;> cases h
    · exact .inr rfl
    · exact .inl ⟨rfl, rfl⟩
  · obtain ⟨_, _, _, hb, -⟩ := acceptMarker_short (m := m) ho (Nat.lt_of_not_le hn)
    rw [markerRow, hb] at h
    cases h
    exact .inr rfl

/-- DECHDR comes nearer to the idle block from each of its three places. -/
theorem runWord_codecWord_dechdr_stepsLeft (h : s.Inv) (hp : s.phase = .dechdr) (he : runWord s.codecWord s = .next t) :
    t.stepsLeft < s.stepsLeft := by
  have hr := h.stageIsReady
  simp only [State.stageReady, hp] at hr
  obtain ⟨ho, -, -, h0 | h2 | ⟨h8, -⟩⟩ := hr
  · rw [codecWord_dechdr hp (by simp [h0]) (by simp [h0])] at he
    obtain ⟨u, -, hu⟩ := execDechdr_frame he
    exact stepsLeft_lt_of_stageEnd hp (by decide) hu
  · have hclose : t.phase = .close → t.stepsLeft < s.stepsLeft := stepsLeft_lt_of_close (by simp [hp]) (by simp [hp])
    rw [codecWord_marker hp h2, runWord_marker] at he
    split at he
    · rcases markerRow_goesOn_or_closes ho he with ⟨htp, hti⟩ | hc
      · simp [State.stepsLeft, htp, hti, hp, h2]
      · exact hclose hc
    · cases he
      exact hclose rfl
  · rw [codecWord_format hp h8, runWord_format] at he
    obtain ⟨u, -, hu⟩ := formatRow_frame he
    exact stepsLeft_lt_of_stageEnd hp (by decide) hu

/-- Every stage but IDLE comes nearer to the idle block. -/
theorem runWord_codecWord_stepsLeft (h : s.Inv) (hi : s.phase ≠ .idle) (he : runWord s.codecWord s = .next t) :
    t.stepsLeft < s.stepsLeft := by
  by_cases hd : s.phase = .dechdr
  · exact runWord_codecWord_dechdr_stepsLeft h hd he
  · rw [runWord_codecWord_of_not_dechdr hd] at he
    cases hp : s.phase <;> rw [hp] at he
    case idle => exact absurd hp hi
    case dechdr => exact absurd hp hd
    case srcopen =>
      rcases execSrcopen_frame he with rfl | rfl
      · exact stepsLeft_lt_of_rank_lt (q := .dechdr) hp rfl (by decide) fun _ => by simp
      · exact stepsLeft_lt_of_close hi (by simp [hp]) rfl
    case decgrid => obtain ⟨u, -, hu⟩ := execDecgrid_frame he; exact stepsLeft_lt_of_stageEnd hp (by decide) hu
    case fliph => obtain ⟨u, -, hu⟩ := execFliph_frame he; exact stepsLeft_lt_of_stageEnd hp (by decide) hu
    case flipv => obtain ⟨u, -, hu⟩ := execFlipv_frame he; exact stepsLeft_lt_of_stageEnd hp (by decide) hu
    case dstopen =>
      rcases execDstopen_frame he with rfl | rfl
      · exact stepsLeft_lt_of_rank_lt (q := .enchdr) hp rfl (by decide) nofun
      · exact stepsLeft_lt_of_close hi (by simp [hp]) rfl
    case enchdr => obtain ⟨u, -, hu⟩ := execEnchdr_frame he; exact stepsLeft_lt_of_stageEnd hp (by decide) hu
    case encgrid => obtain ⟨u, -, hu⟩ := execEncgrid_frame he; exact stepsLeft_lt_of_stageEnd hp (by decide) hu
    case close => cases he; exact stepsLeft_lt_of_rank_lt (q := .idle) hp rfl (by decide) nofun

/-- A command was written since the last reset: its conversion is under way or done (10_state.md R18). -/
def State.BusyOrDone (s : State) : Prop := s.busy = true ∨ s.done = true

theorem exec_busyOrDone {i : Instr} (h : s.BusyOrDone) (he : exec i s = .next t) : t.BusyOrDone := by
  cases exec_ends he with
  | started => exact .inl rfl
  | closed => exact .inr rfl
  | _ => exact h

/-- A word that is no instruction changes no pending move, and leaves BUSY or DONE set. -/
theorem rejectWord_host_busyOrDone {e : DecodeError} (he : rejectWord e s = .next t) :
    t.host = s.host ∧ (s.BusyOrDone → t.BusyOrDone) := by
  cases e with
  | illegalCommand =>
    cases he
    unfold refuseCommand
    split
    · exact ⟨rfl, id⟩
    · exact ⟨rfl, fun _ => .inr rfl⟩
  | _ => cases he; exact ⟨rfl, id⟩

/-- No word changes the pending moves of the host, and no word takes back both BUSY and DONE. -/
theorem runWord_host_busyOrDone {w : CodeWord} (he : runWord w s = .next t) :
    t.host = s.host ∧ (s.BusyOrDone → t.BusyOrDone) := by
  unfold runWord at he
  split at he
  · obtain ⟨-, -, -, -, -, hh, -⟩ := inputsAndFlagsStayFixed _ _ _ he
    exact ⟨hh, fun h => exec_busyOrDone h he⟩
  · exact rejectWord_host_busyOrDone he

/-- With a silent host the block is idle after any number of steps that `stepsLeft` does not exceed. -/
theorem run_to_idle (n : Nat) (h : s.Inv) (hh : s.host = []) (hn : s.stepsLeft ≤ n) :
    ∃ t, Sys2Proof.core.run n s = .next t ∧ t.Inv ∧ t.phase = .idle ∧ (s.BusyOrDone → t.BusyOrDone) := by
  induction n generalizing s with
  | zero =>
    have hp : s.phase = .idle := by
      by_contra hi
      have hpos : 0 < s.phase.rank := Nat.zero_lt_of_lt (rank_nextStage_lt hi false false)
      exact absurd hn (Nat.not_le.mpr (Nat.add_pos_left hpos _))
    exact ⟨s, run_zero s, h, hp, id⟩
  | succ n ih =>
    by_cases hi : s.phase = .idle
    · exact ⟨s, run_of_idle hh hi _, h, hi, id⟩
    · obtain ⟨u, he⟩ := runWord_codecWord_next h
      have hlt := runWord_codecWord_stepsLeft h hi he
      obtain ⟨huh, hub⟩ := runWord_host_busyOrDone he
      obtain ⟨t, hrun, ht, htp, htb⟩ := ih (runWord_codecWord_inv h he) (huh.trans hh) (by omega)
      exact ⟨t, (run_next ((step_of_silent_host hh).trans he)).trans hrun, ht, htp, htb ∘ hub⟩

/-! ### Commands -/

/-- STATUS is made of five fields (10_state.md R18). -/
theorem State.statusByte_of_fields {e : ErrCode} {hv ok done busy : Bool} (h1 : s.err = e) (h2 : s.hv = hv) (h3 : s.ok = ok)
    (h4 : s.done = done) (h5 : s.busy = busy) :
    s.statusByte = e.code ++ BitVec.ofBool hv ++ BitVec.ofBool ok ++ BitVec.ofBool done ++ BitVec.ofBool busy := by
  rw [State.statusByte, h1, h2, h3, h4, h5]

/-- A write to CMD runs the word written (43_orchestration.md R104). -/
theorem step_of_writeCmd {c : BitVec 8} {rest : List HostMove} (hh : s.host = .writeCmd c :: rest) :
    step s = runWord (.command c) { s with host := rest } := by
  rw [step, work_of_writeCmd hh, popHost_of_cons hh]

theorem runWord_command_legal {c : BitVec 8} (hc : (CodeWord.command c).legal = true) :
    runWord (.command c) s = exec (.convert (c.getLsbD 3) (c.getLsbD 4)) s := by
  simp only [runWord, decode_command_legal hc]

theorem runWord_command_illegal {c : BitVec 8} (hc : (CodeWord.command c).legal = false) :
    runWord (.command c) s = .next (refuseCommand s) := by
  simp only [runWord, decode_command_illegal hc, rejectWord]

theorem exec_convert_accepted (hb : s.busy = false) (fh fv : Bool) : exec (.convert fh fv) s = .next (s.start fh fv) :=
  if_neg (Bool.eq_false_iff.mp hb)

theorem exec_convert_ignored (hb : s.busy = true) (fh fv : Bool) : exec (.convert fh fv) s = .next s := if_pos hb

theorem refuseCommand_of_not_busy (hb : s.busy = false) :
    refuseCommand s = { s with done := true, ok := false, err := .illegalCommand } :=
  if_neg (Bool.eq_false_iff.mp hb)

/-! ### The stages that open the streams -/

theorem exec_srcopen_fail (h : s.src.ok = false) : exec .srcopen s = .next { s with err := .ioError, phase := .close } := by
  rw [exec, execSrcopen, srcOpen, if_neg (Bool.eq_false_iff.mp h)]
  rfl

theorem exec_dstopen_fail (h : s.dst.ok = false) : exec .dstopen s = .next { s with err := .ioError, phase := .close } := by
  rw [exec, execDstopen, dstOpen, if_neg (Bool.eq_false_iff.mp h)]
  rfl

/-! ### The image written -/

/-- The output of a conversion begins with the source's header bytes (43_orchestration.md R103). -/
theorem completeOutput_take {b : List Byte} (hn : 8 ≤ b.length) (fh fv : Bool) :
    (completeOutput b fh fv).take 8 = b.take 8 := by
  rw [completeOutput, List.take_left' (List.length_take_of_le hn)]

end

/-- Settles O49: a step for each unit of `State.stepsLeft`, which is at most nine, and an idle block is not busy. -/
theorem everyConversionEnds : Obligations.EveryConversionEnds := by
  intro s h hh
  obtain ⟨t, hrun, ht, hp, hbd⟩ := run_to_idle 9 h hh s.stepsLeft_le
  have hb : t.busy = false := ht.idleWhenNotBusy.mp hp
  exact ⟨t, hrun, hp, hb, fun hs => (hbd (.inl hs)).resolve_left (Bool.eq_false_iff.mp hb)⟩

/-- Settles O51: the destination ends with `completeOutput`, whose length, header bytes and pixels are those stated. -/
theorem successfulConversionMirrorsTheImage : Obligations.SuccessfulConversionMirrorsTheImage := by
  intro s fh fv c B hb hd hh herr hB
  obtain ⟨-, -, -, B', hB', -, hl, -⟩ := of_conversionError_eq_none herr
  obtain rfl : B' = B := Option.some.inj (hB'.symm.trans hB)
  obtain ⟨t, hrun, htb, ht⟩ := run_conversion hb hh hd herr
  have hhdr : t.hdr = headerOf s.src.bytes := by rw [ht]
  have hbytes : t.dst.bytes = completeOutput s.src.bytes fh fv := by rw [ht]
  have hw : t.wd = (headerOf s.src.bytes).width.toNat := congrArg (fun h => h.width.toNat) hhdr
  have hht : t.ht = (headerOf s.src.bytes).height.toNat := congrArg (fun h => h.height.toNat) hhdr
  rw [hhdr] at htb
  have hstatus : t.statusByte = 0x0E :=
    State.statusByte_of_fields (s := t) (e := .none) (hv := true) (ok := true) (done := true) (busy := false)
      (by rw [ht]) (by rw [ht]) (by rw [ht]) (by rw [ht]) (by rw [ht])
  refine ⟨t, hrun, hstatus, by rw [ht], hhdr, Option.some.inj (htb.symm.trans hB), ?_⟩
  rw [hbytes, hw, hht]
  refine ⟨?_, ?_, fun i j hi hj => ?_⟩
  · exact (completeOutput_length hB hl fh fv).trans hl
  · exact completeOutput_take (hl ▸ Nat.le_add_right 8 _) fh fv
  · exact pixelBytes_completeOutput hB hl fh fv (p := (i, j)) (mem_pairs.mpr ⟨hi, hj⟩)

/-- Settles O10: a write to CMD runs its word, and `State.start` writes R104's values out. -/
theorem commandIsAcceptedOrIgnored : Obligations.CommandIsAcceptedOrIgnored := by
  refine ⟨fun s c rest _ hh hc => ?_, fun s fh fv hb => ?_, fun s fh fv hb => exec_convert_ignored hb fh fv,
    fun s c rest hb hh => ?_⟩
  · rw [step_of_writeCmd hh, runWord_command_legal hc]
  · exact ⟨_, exec_convert_accepted hb fh fv, rfl, State.statusByte_of_fields (s.start_err fh fv) (s.start_hv fh fv)
      (s.start_ok fh fv) (s.start_done fh fv) (s.start_busy fh fv)⟩
  · rw [step_of_writeCmd hh]
    exact runWord_command_of_busy (s := { s with host := rest }) hb c

/-- Settles O11: the decoder refuses the word, and the refusal sets DONE, OK and ERR. -/
theorem illegalCommandIsRefused : Obligations.IllegalCommandIsRefused := by
  intro s c rest hb hh hc
  rw [step_of_writeCmd hh, runWord_command_illegal hc]
  exact congrArg Host.Outcome.next (refuseCommand_of_not_busy hb)

/-- Settles O12: with a silent host the idle block runs IDLE. -/
theorem idleBlockWaits : Obligations.IdleBlockWaits :=
  ⟨fun _ => rfl, fun _ hp hh => step_of_phase .idle hh hp (by decide)⟩

/-- Settles O13, by SRC.ok. -/
theorem srcopenOpensOrRaises : Obligations.SrcopenOpensOrRaises := ⟨fun _ => exec_srcopen_ok, fun _ => exec_srcopen_fail⟩

/-- Settles O14, by DST.ok. -/
theorem dstopenOpensOrRaises : Obligations.DstopenOpensOrRaises := ⟨fun _ => exec_dstopen_ok, fun _ => exec_dstopen_fail⟩

/-- Settles O27: CLOSE has one end, whose grid is empty and whose OK decides ERR = 0. -/
theorem closeEndsTheConversion : Obligations.CloseEndsTheConversion :=
  fun _ => ⟨_, rfl, fun _ _ => rfl, decide_eq_true_iff, rfl⟩

end Sys2Proof.Machine
end

section
/-!
PROOFS. The errors (60_exceptions.md): their codes, how a raised error ends the conversion, and those DECGRID raises.
-/

namespace Sys2Proof.Machine

section
variable {s t : State}

/-! ### The codes -/

/-- The recorded error stands in bits 7:4 of STATUS (10_state.md R18). -/
theorem State.statusByte_err_bits (s : State) : s.statusByte.extractLsb' 4 4 = s.err.code := by
  have hbits : ∀ (e : BitVec 4) (a b c d : Bool),
      (e ++ BitVec.ofBool a ++ BitVec.ofBool b ++ BitVec.ofBool c ++ BitVec.ofBool d).extractLsb' 4 4 = e := by decide
  exact hbits _ _ _ _ _

theorem ErrCode.code_le (e : ErrCode) : e.code.toNat ≤ 8 := by
  cases e <;> decide

/-- Settles O54: each code is a row of `ErrCode.code`, and STATUS begins with it. -/
theorem errorCodesFollowTheTable : Obligations.ErrorCodesFollowTheTable :=
  ⟨rfl, rfl, rfl, rfl, rfl, rfl, rfl, rfl, rfl, ErrCode.code_le, State.statusByte_err_bits⟩

/-! ### Raising and closing -/

/-- An instruction that records an error sends PHASE to CLOSE (60_exceptions.md R121). -/
theorem phase_close_of_raised {i : Instr} (hs : s.err = .none) (he : exec i s = .next t) (ht : t.err ≠ .none) :
    t.phase = .close := by
  by_cases hi : ∃ a b, i = .convert a b
  · obtain ⟨a, b, rfl⟩ := hi
    cases hb : s.busy with
    | false => rw [exec_convert_accepted hb] at he; cases he; exact absurd (s.start_err a b) ht
    | true => rw [exec_convert_ignored hb] at he; cases he; exact absurd hs ht
  · obtain ⟨-, hclose⟩ := statusIsSetOnlyAtTheEnds i s t he fun a b h => hi ⟨a, b, h⟩
    exact hclose (hs ▸ ht)

/-- With a silent host CLOSE is performed (43_orchestration.md R102). -/
theorem step_of_close (hh : s.host = []) (hp : s.phase = .close) :
    step s = .next s.closeStreams.forgetGrid.closeFlags :=
  step_of_phase .close hh hp (by decide)

/-- Settles O37: PHASE is CLOSE, and the step from there is CLOSE's, which keeps ERR and so clears OK. -/
theorem raisedErrorEndsTheConversion : Obligations.RaisedErrorEndsTheConversion := by
  intro i s t hs he ht
  have hp := phase_close_of_raised hs he ht
  exact ⟨hp, fun hh => ⟨_, step_of_close hh hp, rfl, rfl, rfl, decide_eq_false ht, rfl, rfl, rfl, rfl, rfl, rfl, rfl, rfl⟩⟩

/-! ### The errors of DECGRID -/

/-- DECGRID on a grid too small or a source of another length (60_exceptions.md R115, R116, R118). -/
theorem exec_decgrid_raise (hv : s.hv = true) (ho : s.src.isOpen = true) (h8 : s.ipos = 8) (hn : 0 < s.ht * s.wd)
    (hbad : s.wd * s.ht > s.gridCells ∨ s.src.bytes.length ≠ imageLength s.wd s.ht s.bw) :
    ∃ t, exec .decgrid s = .next t ∧
      (s.wd * s.ht > s.gridCells → t.ipos = 8) ∧
      (s.wd * s.ht ≤ s.gridCells → s.src.bytes.length > imageLength s.wd s.ht s.bw →
        t.ipos = imageLength s.wd s.ht s.bw) ∧
      t = { s with
        err := if s.wd * s.ht > s.gridCells then .capacityError
          else if s.src.bytes.length < imageLength s.wd s.ht s.bw then .truncatedPayloadError
          else .trailingDataError
        phase := .close, ipos := t.ipos, grid := []
        pix := t.pix, row := t.row, col := t.col, lane := t.lane, draws := t.draws } := by
  by_cases hc : s.wd * s.ht > s.gridCells
  · rw [if_pos hc, exec, execDecgrid, decgridBody_capacity hv ho h8 hc]
    exact ⟨_, rfl, fun _ => h8, fun h => absurd h (Nat.not_le.mpr hc), rfl⟩
  · have hle : s.wd * s.ht ≤ s.gridCells := Nat.le_of_not_lt hc
    rw [if_neg hc]
    by_cases hl : s.src.bytes.length < imageLength s.wd s.ht s.bw
    · obtain ⟨m, i, r, c, l, p, hb⟩ := decgridBody_short hv ho h8 hle hl hn
      rw [if_pos hl, exec, execDecgrid, hb]
      exact ⟨_, rfl, fun h => absurd h hc, fun _ h => absurd hl (Nat.lt_asymm h), rfl⟩
    · obtain ⟨r, c, l, p, hb⟩ := decgridBody_long hv ho h8 hle (Nat.le_of_not_lt hl)
      rw [if_neg hl, exec, execDecgrid, hb, if_neg (hbad.resolve_left hc)]
      exact ⟨_, rfl, fun h => absurd h hc, fun _ _ => rfl, rfl⟩

/-- Settles O19: after every error the grid memory is empty. -/
theorem decgridRaisesOnSizeAndLength : Obligations.DecgridRaisesOnSizeAndLength := by
  intro s hv ho h8 hw hh hbad
  obtain ⟨t, he, hcap, hlong, ht⟩ := exec_decgrid_raise hv ho h8 (Nat.mul_pos hh hw) hbad
  have hgrid : t.grid = [] := by rw [ht]
  refine ⟨t, he, hcap, hlong, fun i j => ?_, ?_⟩
  · rw [State.cell, hgrid, GridMem.read]
  · rw [hgrid]
    exact ht

end

end Sys2Proof.Machine
end

section
/-!
PROOFS. The first error of R119's table that a conversion meets (60_exceptions.md R119, R122): the table's lines, the runs up to
each stage that raises, and the report after ten steps.
-/

namespace Sys2Proof.Machine

section
variable {s t : State}

/-! ### The table of R119 -/

/-- Lines 1 to 6 raise nothing exactly when SRC opens and begins with a valid header. -/
theorem headerDecodes_iff {src : Src} :
    headerDecodes src = true ↔ src.ok = true ∧ 8 ≤ src.bytes.length ∧ (headerOf src.bytes).valid = true := by
  rw [headerDecodes, Bool.and_eq_true, Bool.and_eq_true, decide_eq_true_iff, and_assoc]

/-- A source that opens and whose header is not decoded. -/
theorem not_valid_of_not_headerDecodes {src : Src} (hok : src.ok = true) (h : headerDecodes src = false)
    (hn : 8 ≤ src.bytes.length) : (headerOf src.bytes).valid = false :=
  Bool.eq_false_of_not_eq_true fun hv => Bool.eq_false_iff.mp h (headerDecodes_iff.mpr ⟨hok, hn, hv⟩)

/-- Lines 7 to 10 come after a decoded header. -/
theorem reachesDestination_of_not_headerDecodes {src : Src} (h : headerDecodes src = false) (dst : Dst) (cells : Nat) :
    reachesDestination src dst cells = false := by
  unfold reachesDestination
  split
  · rfl
  · rw [h, Bool.false_and, Bool.false_and, Bool.false_and]

/-- Line 1: SRC does not open. -/
theorem conversionError_of_not_ok {src : Src} (h : src.ok = false) (dst : Dst) (cells : Nat) :
    conversionError src dst cells = .ioError :=
  if_pos h

/-- Lines 2 to 6: the header is not decoded. -/
theorem conversionError_of_not_headerDecodes {src : Src} (hok : src.ok = true) (h : headerDecodes src = false) (dst : Dst)
    (cells : Nat) : conversionError src dst cells = headerError src.bytes := by
  simp only [conversionError, headerError, hok, Bool.true_eq_false, if_false]
  refine ite_congr rfl (fun _ => rfl) fun _ => ite_congr rfl (fun _ => rfl) fun hm =>
    ite_congr rfl (fun _ => rfl) fun h8 => ite_congr rfl (fun _ => rfl) fun hz => ?_
  obtain ⟨hw, hh⟩ := not_or.mp hz
  simp only [byteWidthOf_none_of_not_valid (not_valid_of_not_headerDecodes hok h (Nat.le_of_not_lt h8))
    (Bool.eq_true_of_not_eq_false hm) hw hh]

section
variable {src : Src} {W H B : Nat} (hd : headerDecodes src = true)
  (hB : byteWidthOf (headerOf src.bytes).format = some B)
  (hW : (headerOf src.bytes).width.toNat = W) (hH : (headerOf src.bytes).height.toNat = H) (dst : Dst) (cells : Nat)
include hd hB hW hH

/-- Lines 7 to 12: the header is decoded. -/
theorem conversionError_of_headerDecodes :
    conversionError src dst cells =
      if W * H > cells then .capacityError
      else if src.bytes.length < imageLength W H B then .truncatedPayloadError
      else if src.bytes.length > imageLength W H B then .trailingDataError
      else if dst.ok = false then .ioError
      else if ∃ l, dst.limit = some l ∧ l < imageLength W H B then .ioError else .none := by
  obtain ⟨hok, hn, hv⟩ := headerDecodes_iff.mp hd
  obtain ⟨hm, hw, hh, -⟩ := of_valid hv
  subst hW hH
  simp only [conversionError, hok, hm, hB, Bool.true_eq_false, if_false, if_neg (Nat.not_lt.mpr hn),
    if_neg (Nat.not_lt.mpr ((show 2 ≤ 8 by decide).trans hn)), if_neg (not_or.mpr ⟨hw, hh⟩)]
  cases dst.limit with
  | none => simp
  | some l => simp

/-- Lines 7 to 9: the grid is too small or the source has another length. -/
theorem conversionError_of_payload (hbad : W * H > cells ∨ src.bytes.length ≠ imageLength W H B) :
    conversionError src dst cells =
      if W * H > cells then .capacityError
      else if src.bytes.length < imageLength W H B then .truncatedPayloadError
      else .trailingDataError := by
  rw [conversionError_of_headerDecodes hd hB hW hH]
  exact ite_congr rfl (fun _ => rfl) fun hc => ite_congr rfl (fun _ => rfl) fun hs =>
    if_pos (Nat.lt_of_le_of_ne (Nat.le_of_not_lt hs) (hbad.resolve_left hc).symm)

/-- Lines 10 to 12: the destination does not open, or it does not take the whole image. -/
theorem conversionError_of_destination (hc : W * H ≤ cells) (hl : src.bytes.length = imageLength W H B) :
    conversionError src dst cells =
      if dst.ok = false ∨ ∃ l, dst.limit = some l ∧ l < imageLength W H B then .ioError else .none := by
  rw [conversionError_of_headerDecodes hd hB hW hH, if_neg (Nat.not_lt.mpr hc), if_neg (Nat.not_lt.mpr hl.ge),
    if_neg (Nat.not_lt.mpr hl.le), ite_or]

/-- The destination is opened when lines 7 to 10 raise nothing. -/
theorem reachesDestination_iff :
    reachesDestination src dst cells = true ↔
      dst.ok = true ∧ W * H ≤ cells ∧ src.bytes.length = imageLength W H B := by
  subst hW hH
  simp only [reachesDestination, hB, hd, Bool.true_and, Bool.and_eq_true, decide_eq_true_iff, and_assoc]

end

/-! ### What a conversion leaves when CLOSE is next -/

/-- What the conversion of `s` leaves in DST (60_exceptions.md R122): what it held, or the complete output as far as the sink
took it. -/
def State.outputLeft (s : State) (fh fv : Bool) : List Byte :=
  if reachesDestination s.src s.dst s.gridCells then
    match s.dst.limit with
    | none   => completeOutput s.src.bytes fh fv
    | some l => (completeOutput s.src.bytes fh fv).take l
  else s.dst.bytes

/-- CLOSE is next in `u`, and the conversion of `s` has recorded there the first error of R119's table and what R122 says. -/
structure Concludes (s : State) (fh fv : Bool) (u : State) : Prop where
  host : u.host = []
  phase : u.phase = .close
  err : u.err = conversionError s.src s.dst s.gridCells
  hv : u.hv = headerDecodes s.src
  header : u.hv = true → u.hdr = headerOf s.src.bytes ∧ byteWidthOf u.hdr.format = some u.bw
  src : ∃ o, u.src = { s.src with isOpen := o }
  dst : ∃ o, u.dst = { s.dst with isOpen := o, bytes := s.outputLeft fh fv }

/-- A destination that is not reached keeps what it held. -/
theorem State.outputLeft_of_not_reached (h : reachesDestination s.src s.dst s.gridCells = false) (fh fv : Bool) :
    s.outputLeft fh fv = s.dst.bytes := by
  rw [State.outputLeft, if_neg (Bool.eq_false_iff.mp h)]

/-- A destination that is reached holds what its limit lets it take. -/
theorem State.outputLeft_of_limit {l : Nat} (h : reachesDestination s.src s.dst s.gridCells = true)
    (hl : s.dst.limit = some l) (fh fv : Bool) :
    s.outputLeft fh fv = (completeOutput s.src.bytes fh fv).take l := by
  rw [State.outputLeft, if_pos h]
  simp only [hl]

/-- The dimensions and the byte width of a decoded header. -/
theorem dimensions_of_decoded {b : List Byte} {W H B : Nat} (hhdr : t.hdr = headerOf b) (hbytew : t.bytew = BitVec.ofNat 4 B)
    (hB : byteWidthOf (headerOf b).format = some B) (hW : (headerOf b).width.toNat = W)
    (hH : (headerOf b).height.toNat = H) : t.wd = W ∧ t.ht = H ∧ t.bw = B :=
  ⟨(congrArg (fun h => h.width.toNat) hhdr).trans hW, (congrArg (fun h => h.height.toNat) hhdr).trans hH,
    (congrArg BitVec.toNat hbytew).trans (toNat_bytew_of_byteWidthOf hB)⟩

/-- A decoded header and its byte width, as the host reads them (10_state.md R24). -/
theorem header_of_decoded {b : List Byte} {B : Nat} (hhdr : t.hdr = headerOf b) (hbytew : t.bytew = BitVec.ofNat 4 B)
    (hB : byteWidthOf (headerOf b).format = some B) : t.hdr = headerOf b ∧ byteWidthOf t.hdr.format = some t.bw := by
  obtain ⟨-, -, hb⟩ := dimensions_of_decoded hhdr hbytew hB rfl rfl
  rw [hhdr, hb]
  exact ⟨rfl, hB⟩

/-- From DSTOPEN with a sink whose limit is below the image's length: ENCHDR or ENCGRID raises at the first byte refused
(43_orchestration.md R107). -/
theorem run_from_dstopen_full {l : Nat} (hh : s.host = []) (hp : s.phase = .dstopen) (hv : s.hv = true) (hg : s.gv = true)
    (hx : s.gridExact) (hok : s.dst.ok = true) (hlim : s.dst.limit = some l) (hl : l < imageLength s.wd s.ht s.bw) :
    ∃ n t, n ≤ 3 ∧ Sys2Proof.core.run n s = .next t ∧ t = { s with
      err := .ioError, phase := .close, opos := t.opos
      dst := { s.dst with isOpen := true, bytes := (headerBytes s.hdr ++ s.payload).take l }
      pix := t.pix, row := t.row, col := t.col, lane := t.lane, draws := t.draws } := by
  have step1 := (step_of_phase .dstopen hh hp (by decide)).trans (exec_dstopen_ok hok)
  generalize h1 : { s with dst := { s.dst with isOpen := true, bytes := [] }, opos := 0, phase := .enchdr } = s1 at step1
  have hstep2 : step s1 = exec .enchdr s1 :=
    step_of_phase .enchdr (by rw [← h1]; exact hh) (by rw [← h1]) (by decide)
  have hv1 : s1.hv = true := by rw [← h1]; exact hv
  have hlim1 : s1.dst.limit = some l := by rw [← h1]; exact hlim
  rw [List.take_append, headerBytes_length]
  rcases Nat.lt_or_ge l 8 with h8 | h8
  · have step2 := hstep2.trans (exec_enchdr_full hv1 (by rw [← h1]) (by rw [← h1]) hlim1 h8)
    refine ⟨2, _, by decide, run_trans (run_one step1) (run_one step2), ?_⟩
    rw [Nat.sub_eq_zero_of_le h8.le, List.take_zero, List.append_nil]
    subst h1
    rfl
  · have h0 : s1.opos = 0 := by rw [← h1]
    have step2 := hstep2.trans (exec_enchdr_ok hv1 (by rw [← h1]) h0
      ((State.takesAll_headerBytes_iff h0 _).mpr fun k hk => Option.some.inj (hlim1.symm.trans hk) ▸ h8))
    generalize h2 : { s1 with
        dst := { s1.dst with bytes := s1.dst.bytes ++ headerBytes s1.hdr }, opos := 8, phase := .encgrid } = s2 at step2
    have hpos : s2.opos = 8 := by rw [← h2]
    have hlim2 : s2.dst.limit = some l := by rw [← h2]; exact hlim1
    have hlen : s2.payload.length = s.ht * s.wd * s.bw := by rw [State.payload_length, ← h2, ← h1]; rfl
    have hfull : s2.takesAll s2.payload = false := Bool.eq_false_of_not_eq_true fun h => by
      have hle := State.takesAll_iff.mp h l hlim2
      rw [hpos, hlen] at hle
      rw [imageLength_eq] at hl
      omega
    obtain ⟨t, he, ht⟩ := exec_encgrid_full (s := s2) (by rw [← h2, ← h1]; exact hg) (by rw [← h2, ← h1]; exact hx)
      (by rw [← h2, ← h1]) hpos hlim2 hfull
    have step3 := (step_of_phase .encgrid (by rw [← h2, ← h1]; exact hh) (by rw [← h2]) (by decide)).trans he
    refine ⟨3, t, le_rfl, run_trans (run_trans (run_one step1) (run_one step2)) (run_one step3), ?_⟩
    rw [List.take_of_length_le (headerBytes_length _ ▸ h8), ht]
    subst h2 h1
    rfl

section
variable {c : BitVec 8} {fh fv : Bool} (hb : s.busy = false) (hh : s.host = [.writeCmd c])
  (hd : decode (.command c) = .ok (.convert fh fv))
include hb hh hd

/-- Line 1 of the table: SRCOPEN raises. -/
theorem concludes_of_not_ok (hok : s.src.ok = false) :
    ∃ u, Sys2Proof.core.run 2 s = .next u ∧ Concludes s fh fv u := by
  have hdec : headerDecodes s.src = false := by rw [headerDecodes, hok, Bool.false_and, Bool.false_and]
  have step1 := step_of_convert hb hh hd
  have step2 := (step_of_phase (s := State.start { s with host := [] } fh fv) .srcopen rfl rfl (by decide)).trans
    (exec_srcopen_fail hok)
  refine ⟨_, run_trans (run_one step1) (run_one step2), rfl, rfl, (conversionError_of_not_ok hok _ _).symm, hdec.symm, nofun,
    ⟨_, rfl⟩, s.dst.isOpen, ?_⟩
  rw [State.outputLeft_of_not_reached (reachesDestination_of_not_headerDecodes hdec _ _)]
  rfl

/-- The command is accepted and the source opened (43_orchestration.md R100, R104). -/
theorem run_to_dechdr (hok : s.src.ok = true) :
    ∃ t, Sys2Proof.core.run 2 s = .next t ∧ t = { s with
      host := [], fh := fh, fv := fv, busy := true, done := false, ok := false, err := .none, hv := false, gv := false
      src := { s.src with isOpen := true }, ipos := 0, phase := .dechdr, grid := []
      hdr := t.hdr, bytew := t.bytew, draws := t.draws } := by
  have step1 := step_of_convert hb hh hd
  have step2 := (step_of_phase (s := State.start { s with host := [] } fh fv) .srcopen rfl rfl (by decide)).trans
    (exec_srcopen_ok hok)
  exact ⟨_, run_trans (run_one step1) (run_one step2), rfl⟩

/-- Lines 2 to 6 of the table: DECHDR raises. -/
theorem concludes_of_not_headerDecodes (hok : s.src.ok = true) (hdec : headerDecodes s.src = false) :
    ∃ u, Sys2Proof.core.run 3 s = .next u ∧ Concludes s fh fv u := by
  obtain ⟨t, hrun, ht⟩ := run_to_dechdr hb hh hd hok
  have hsrc : t.src = { s.src with isOpen := true } := by rw [ht]
  have hbytes : t.src.bytes = s.src.bytes := by rw [hsrc]
  obtain ⟨u, he, -, -, hu⟩ := exec_dechdr_raise (s := t) (by rw [hsrc]) (by rw [ht])
    (by rw [hbytes]; exact not_valid_of_not_headerDecodes hok hdec)
  have hstep := (step_of_dechdr (s := t) (by rw [ht]) (by rw [ht]) (by rw [ht])).trans he
  have hhv : u.hv = false := by rw [hu]
  refine ⟨u, run_trans hrun (run_one hstep), by rw [hu, ht], by rw [hu], ?_, hhv.trans hdec.symm, ?_, ⟨true, ?_⟩,
    s.dst.isOpen, ?_⟩
  · rw [hu, hbytes, conversionError_of_not_headerDecodes hok hdec]
  · rw [hhv]
    nofun
  · rw [hu, hsrc]
  · rw [State.outputLeft_of_not_reached (reachesDestination_of_not_headerDecodes hdec _ _), hu, ht]

section
variable {W H B : Nat} (hdec : headerDecodes s.src = true)
  (hB : byteWidthOf (headerOf s.src.bytes).format = some B)
  (hW : (headerOf s.src.bytes).width.toNat = W) (hH : (headerOf s.src.bytes).height.toNat = H)
include hdec hB

/-- The header is decoded (43_orchestration.md R103, 40_header_codec.md R72). -/
theorem run_to_decgrid :
    ∃ t, Sys2Proof.core.run 3 s = .next t ∧ t = { s with
      host := [], fh := fh, fv := fv, busy := true, done := false, ok := false, err := .none, gv := false
      src := { s.src with isOpen := true }, ipos := 8, phase := .decgrid, grid := []
      hdr := headerOf s.src.bytes, bytew := BitVec.ofNat 4 B, hv := true, draws := t.draws } := by
  obtain ⟨hok, hn, hv⟩ := headerDecodes_iff.mp hdec
  obtain ⟨t, hrun, ht⟩ := run_to_dechdr hb hh hd hok
  have hbytes : t.src.bytes = s.src.bytes := by rw [ht]
  have hstep := (step_of_dechdr (s := t) (by rw [ht]) (by rw [ht]) (by rw [ht])).trans
    (exec_dechdr_ok (by rw [ht]) (by rw [ht]) (by rwa [hbytes]) (by rwa [hbytes]) (by rwa [hbytes]))
  refine ⟨_, run_trans hrun (run_one hstep), ?_⟩
  rw [hbytes, ht]

include hW hH

/-- Lines 7 to 9 of the table: DECGRID raises. -/
theorem concludes_of_payload (hbad : W * H > s.gridCells ∨ s.src.bytes.length ≠ imageLength W H B) :
    ∃ u, Sys2Proof.core.run 4 s = .next u ∧ Concludes s fh fv u := by
  obtain ⟨t, hrun, ht⟩ := run_to_decgrid hb hh hd hdec hB
  have hbytes : t.src.bytes = s.src.bytes := by rw [ht]
  have hcells : t.gridCells = s.gridCells := by rw [ht]
  obtain ⟨htw, hth, htb⟩ := dimensions_of_decoded (t := t) (by rw [ht]) (by rw [ht]) hB hW hH
  obtain ⟨-, -, hv⟩ := headerDecodes_iff.mp hdec
  obtain ⟨-, hw0, hh0, -⟩ := of_valid hv
  have hwpos : 0 < W := hW ▸ Nat.pos_of_ne_zero fun h => hw0 (BitVec.eq_of_toNat_eq h)
  have hhpos : 0 < H := hH ▸ Nat.pos_of_ne_zero fun h => hh0 (BitVec.eq_of_toNat_eq h)
  obtain ⟨u, he, -, -, hu⟩ := exec_decgrid_raise (s := t) (by rw [ht]) (by rw [ht]) (by rw [ht])
    (by rw [htw, hth]; exact Nat.mul_pos hhpos hwpos) (by rw [htw, hth, htb, hbytes, hcells]; exact hbad)
  have hstep := (step_of_phase .decgrid (by rw [ht]) (by rw [ht]) (by decide)).trans he
  have hreach : reachesDestination s.src s.dst s.gridCells = false := Bool.eq_false_of_not_eq_true fun h => by
    obtain ⟨-, hc, hl⟩ := (reachesDestination_iff hdec hB hW hH _ _).mp h
    exact hbad.elim (fun hc' => absurd hc (Nat.not_le.mpr hc')) fun hl' => hl' hl
  refine ⟨u, run_trans hrun (run_one hstep), by rw [hu, ht], by rw [hu], ?_, by rw [hu, ht, hdec], fun _ => ?_, ⟨true, ?_⟩,
    s.dst.isOpen, ?_⟩
  · rw [hu, htw, hth, htb, hbytes, hcells, conversionError_of_payload hdec hB hW hH _ _ hbad]
  · exact header_of_decoded (by rw [hu, ht]) (by rw [hu, ht]) hB
  · rw [hu, ht]
  · rw [State.outputLeft_of_not_reached hreach, hu, ht]

/-- The source is decoded whole and its grid is mirrored as the flags say (43_orchestration.md R103). -/
theorem run_to_dstopen (hc : W * H ≤ s.gridCells) (hl : s.src.bytes.length = imageLength W H B) :
    ∃ t, Sys2Proof.core.run (4 + (fh.toNat + fv.toNat)) s = .next t ∧ t.gridExact ∧
      headerBytes t.hdr ++ t.payload = completeOutput s.src.bytes fh fv ∧ t = { s with
        host := [], fh := fh, fv := fv, busy := true, done := false, ok := false, err := .none
        src := { s.src with isOpen := true }, ipos := s.src.bytes.length, phase := .dstopen
        hdr := headerOf s.src.bytes, bytew := BitVec.ofNat 4 B, hv := true, gv := true, grid := t.grid
        pix := t.pix, row := t.row, col := t.col, lane := t.lane, draws := t.draws } := by
  obtain ⟨hok, hn, hv⟩ := headerDecodes_iff.mp hdec
  subst hW hH
  obtain ⟨t, hrun, hgrid, ht⟩ := run_to_decodedGrid hb hh hd hok hv hB hc hl
  have hbytes : t.src.bytes = s.src.bytes := by rw [ht]
  have hhdr : t.hdr = headerOf s.src.bytes := by rw [ht]
  obtain ⟨htw, hth, htb⟩ := dimensions_of_decoded hhdr (by rw [ht]) hB rfl rfl
  obtain ⟨u, hrun', htu, hu⟩ := run_flips (s := t) (fh := fh) (fv := fv) (by rw [ht]) (by rw [ht]) (by rw [ht]) (by rw [ht])
    (gridExact_of_decodedGrid hgrid rfl)
  refine ⟨u, run_trans hrun hrun', htu.gridExact, ?_, ?_⟩
  · rw [completeOutput_eq _ _ _ htw.symm hth.symm hB,
      htu.payload hgrid (htb.le.trans (byteWidthOf_le hB)) (by rw [hbytes, htw, hth, htb, hl]), hbytes, htu.hdr, hhdr,
      headerBytes_headerOf _ hn, htb]
  · rw [hu, ht]

/-- Lines 10 to 12 of the table: DSTOPEN, ENCHDR or ENCGRID raises. -/
theorem concludes_of_destination (hc : W * H ≤ s.gridCells) (hl : s.src.bytes.length = imageLength W H B)
    (hbad : s.dst.ok = false ∨ ∃ l, s.dst.limit = some l ∧ l < imageLength W H B) :
    ∃ n u, n ≤ 9 ∧ Sys2Proof.core.run n s = .next u ∧ Concludes s fh fv u := by
  obtain ⟨t, hrun, hx, hout, ht⟩ := run_to_dstopen hb hh hd hdec hB hW hH hc hl
  have hdst : t.dst = s.dst := by rw [ht]
  obtain ⟨htw, hth, htb⟩ := dimensions_of_decoded (t := t) (by rw [ht]) (by rw [ht]) hB hW hH
  have hreach := reachesDestination_iff hdec hB hW hH s.dst s.gridCells
  obtain ⟨n, u, hn, hrun', o, hu⟩ : ∃ n u, n ≤ 3 ∧ Sys2Proof.core.run n t = .next u ∧ ∃ o, u = { t with
      err := .ioError, phase := .close, dst := { s.dst with isOpen := o, bytes := s.outputLeft fh fv }, opos := u.opos
      pix := u.pix, row := u.row, col := u.col, lane := u.lane, draws := u.draws } := by
    cases hok : s.dst.ok with
    | false =>
      have hstep := (step_of_phase .dstopen (by rw [ht]) (by rw [ht]) (by decide)).trans
        (exec_dstopen_fail (s := t) (by rw [hdst]; exact hok))
      rw [State.outputLeft_of_not_reached (Bool.eq_false_iff.mpr fun h => Bool.eq_false_iff.mp hok (hreach.mp h).1)]
      refine ⟨1, _, by decide, run_one hstep, s.dst.isOpen, ?_⟩
      rw [← hdst]
    | true =>
      obtain ⟨l, hlim, hlt⟩ := hbad.resolve_left (Bool.ne_false_iff.mpr hok)
      obtain ⟨n, u, hn, hrun', hu⟩ := run_from_dstopen_full (s := t) (by rw [ht]) (by rw [ht]) (by rw [ht]) (by rw [ht]) hx
        (by rw [hdst]; exact hok) (by rw [hdst]; exact hlim) (by rw [htw, hth, htb]; exact hlt)
      refine ⟨n, u, hn, hrun', true, ?_⟩
      rw [hout, hdst, ← State.outputLeft_of_limit (hreach.mpr ⟨hok, hc, hl⟩) hlim] at hu
      exact hu
  have hflips : fh.toNat + fv.toNat ≤ 2 := Nat.add_le_add fh.toNat_le fv.toNat_le
  refine ⟨_, u, by omega, run_trans hrun hrun', by rw [hu, ht], by rw [hu], ?_, by rw [hu, ht, hdec], fun _ => ?_,
    ⟨true, ?_⟩, o, ?_⟩
  · rw [hu, conversionError_of_destination hdec hB hW hH _ _ hc hl, if_pos hbad]
  · exact header_of_decoded (by rw [hu, ht]) (by rw [hu, ht]) hB
  · rw [hu, ht]
  · rw [hu]

end

/-- A conversion that meets an error comes to CLOSE in at most nine steps, having recorded the first error of the table. -/
theorem run_to_concludes (herr : conversionError s.src s.dst s.gridCells ≠ .none) :
    ∃ n u, n ≤ 9 ∧ Sys2Proof.core.run n s = .next u ∧ Concludes s fh fv u := by
  cases hok : s.src.ok with
  | false =>
    obtain ⟨u, hrun, hu⟩ := concludes_of_not_ok hb hh hd hok
    exact ⟨2, u, by decide, hrun, hu⟩
  | true =>
    cases hdec : headerDecodes s.src with
    | false =>
      obtain ⟨u, hrun, hu⟩ := concludes_of_not_headerDecodes hb hh hd hok hdec
      exact ⟨3, u, by decide, hrun, hu⟩
    | true =>
      obtain ⟨-, -, hv⟩ := headerDecodes_iff.mp hdec
      obtain ⟨-, -, -, B, hB⟩ := of_valid hv
      obtain ⟨W, hW⟩ : ∃ W, (headerOf s.src.bytes).width.toNat = W := ⟨_, rfl⟩
      obtain ⟨H, hH⟩ : ∃ H, (headerOf s.src.bytes).height.toNat = H := ⟨_, rfl⟩
      by_cases hbad : W * H > s.gridCells ∨ s.src.bytes.length ≠ imageLength W H B
      · obtain ⟨u, hrun, hu⟩ := concludes_of_payload hb hh hd hdec hB hW hH hbad
        exact ⟨4, u, by decide, hrun, hu⟩
      · obtain ⟨hc, hl⟩ := not_or.mp hbad
        have hle := Nat.le_of_not_lt hc
        have hlen := not_not.mp hl
        refine concludes_of_destination hb hh hd hdec hB hW hH hle hlen (by_contra fun hdst => herr ?_)
        rw [conversionError_of_destination hdec hB hW hH _ _ hle hlen, if_neg hdst]

end

/-- CLOSE, and then the block stays idle (43_orchestration.md R102). -/
theorem run_through_close {n k : Nat} (hn : n < k) (hrun : Sys2Proof.core.run n s = .next t) (hh : t.host = [])
    (hp : t.phase = .close) : Sys2Proof.core.run k s = .next t.closeStreams.forgetGrid.closeFlags := by
  have hidle := run_of_idle (s := t.closeStreams.forgetGrid.closeFlags) hh rfl (k - (n + 1))
  have hk : n + 1 + (k - (n + 1)) = k := by omega
  exact hk ▸ run_trans (run_trans hrun (run_one (step_of_close hh hp))) hidle

/-- A conversion without error decodes the header, opens the destination and leaves the complete output there. -/
theorem outputLeft_of_no_error (herr : conversionError s.src s.dst s.gridCells = .none) (fh fv : Bool) :
    headerDecodes s.src = true ∧ s.outputLeft fh fv = completeOutput s.src.bytes fh fv := by
  obtain ⟨hok, hdok, hv, B, hB, hc, hl, hlim⟩ := of_conversionError_eq_none herr
  have hdec := headerDecodes_iff.mpr ⟨hok, hl ▸ Nat.le_add_right 8 _, hv⟩
  have hreach := (reachesDestination_iff hdec hB rfl rfl s.dst s.gridCells).mpr ⟨hdok, hc, hl⟩
  refine ⟨hdec, ?_⟩
  cases hlimit : s.dst.limit with
  | none =>
    rw [State.outputLeft, if_pos hreach]
    simp only [hlimit]
  | some l =>
    rw [State.outputLeft_of_limit hreach hlimit, List.take_of_length_le]
    rw [completeOutput_length hB hl, hl]
    exact hlim l hlimit

/-- What the conversion of `s` reports in the idle block `t` (60_exceptions.md R119, R122). -/
structure Reports (s : State) (fh fv : Bool) (t : State) : Prop where
  busy : t.busy = false
  done : t.done = true
  phase : t.phase = .idle
  gv : t.gv = false
  err : t.err = conversionError s.src s.dst s.gridCells
  ok : t.ok = true ↔ t.err = .none
  hv : t.hv = headerDecodes s.src
  header : t.hv = true → t.hdr = headerOf s.src.bytes ∧ byteWidthOf t.hdr.format = some t.bw
  src : t.src = { s.src with isOpen := false }
  dst : t.dst = { s.dst with isOpen := false, bytes := s.outputLeft fh fv }

/-- CLOSE keeps what was recorded and releases both streams (43_orchestration.md R102). -/
theorem Concludes.reports {fh fv : Bool} (h : Concludes s fh fv t) : Reports s fh fv t.closeStreams.forgetGrid.closeFlags where
  busy := rfl
  done := rfl
  phase := rfl
  gv := rfl
  err := h.err
  ok := decide_eq_true_iff
  hv := h.hv
  header := h.header
  src := by
    obtain ⟨o, hsrc⟩ := h.src
    rw [State.closeFlags_src, State.forgetGrid_src, State.closeStreams_src, hsrc]
  dst := by
    obtain ⟨o, hdst⟩ := h.dst
    rw [State.closeFlags_dst, State.forgetGrid_dst, State.closeStreams_dst, hdst]

section
variable {c : BitVec 8} {fh fv : Bool} (hb : s.busy = false) (hh : s.host = [.writeCmd c])
  (hd : decode (.command c) = .ok (.convert fh fv))
include hb hh hd

/-- Ten steps after the command, with an error: CLOSE follows what was recorded. -/
theorem run_reports_of_error (herr : conversionError s.src s.dst s.gridCells ≠ .none) :
    ∃ t, Sys2Proof.core.run 10 s = .next t ∧ Reports s fh fv t := by
  obtain ⟨n, u, hn, hrun, hu⟩ := run_to_concludes hb hh hd herr
  exact ⟨_, run_through_close (Nat.lt_succ_of_le hn) hrun hu.host hu.phase, hu.reports⟩

/-- Ten steps after the command, without an error. -/
theorem run_reports_of_no_error (herr : conversionError s.src s.dst s.gridCells = .none) :
    ∃ t, Sys2Proof.core.run 10 s = .next t ∧ Reports s fh fv t := by
  obtain ⟨hdec, hout⟩ := outputLeft_of_no_error herr fh fv
  obtain ⟨t, hrun, htb, ht⟩ := run_conversion hb hh hd herr
  have herr' : t.err = .none := by rw [ht]
  have hok : t.ok = true := by rw [ht]
  exact ⟨t, hrun, {
    busy := by rw [ht]
    done := by rw [ht]
    phase := by rw [ht]
    gv := by rw [ht]
    err := herr'.trans herr.symm
    ok := iff_of_true hok herr'
    hv := by rw [ht, hdec]
    header := fun _ => ⟨by rw [ht], htb⟩
    src := by rw [ht]
    dst := by rw [ht, hout] }⟩

end

/-- Settles O50: with and without an error the block reports `conversionError`, and DST holds `State.outputLeft`. -/
theorem conversionReportsTheFirstError : Obligations.ConversionReportsTheFirstError := by
  intro s fh fv c hb hd hh
  obtain ⟨t, hrun, ht⟩ : ∃ t, Sys2Proof.core.run 10 s = .next t ∧ Reports s fh fv t := by
    by_cases herr : conversionError s.src s.dst s.gridCells = .none
    · exact run_reports_of_no_error hb hh hd herr
    · exact run_reports_of_error hb hh hd herr
  refine ⟨t, hrun, ht.busy, ht.done, ht.phase, ht.gv, ht.err, ht.ok, ht.hv, ht.header, ht.src, ?_⟩
  rw [ht.dst]
  exact ⟨rfl, fun h => State.outputLeft_of_not_reached h fh fv, fun h => if_pos h⟩

end

end Sys2Proof.Machine
end

section
/-!
PROOFS. What a reset leaves of the output under way, and the host's bindings.
-/

namespace Sys2Proof.Machine

section
variable {s : State}

/-! ### The output cut off -/

/-- A sink capped at `n` further bytes takes the first `n` of what it would have taken (20_memory.md R35). -/
theorem State.accepted_capSink (s : State) (n : Nat) (out : List Byte) :
    (s.capSink n).accepted out = (s.accepted out).take n := by
  cases hl : s.dst.limit with
  | none => simp [State.accepted, State.capSink, hl]
  | some l =>
    have hmin : min l (s.opos + n) - s.opos = min n (l - s.opos) := by omega
    simp only [State.accepted, State.capSink, hl, hmin, List.take_take]

/-- However ENCHDR ends, DST holds what the sink takes of the header bytes (40_header_codec.md R73). -/
theorem execEnchdr_bytes (hv : s.hv = true) (ho : s.dst.isOpen = true) (h0 : s.opos = 0) :
    ∃ t, execEnchdr s = .next t ∧ t.dst.bytes = s.dst.bytes ++ s.accepted (headerBytes s.hdr) := by
  rw [execEnchdr, enchdrBody_eq hv ho h0]
  split
  · next ht => exact ⟨_, rfl, by rw [State.accepted_of_takesAll ht]; rfl⟩
  · exact ⟨_, rfl, rfl⟩

/-- However ENCGRID ends, DST holds what the sink takes of the payload (41_pixel_grid_codec.md R83). -/
theorem execEncgrid_bytes (hg : s.gv = true) (hx : s.gridExact) (ho : s.dst.isOpen = true) (h8 : s.opos = 8) :
    ∃ t, execEncgrid s = .next t ∧ t.dst.bytes = s.dst.bytes ++ s.accepted s.payload := by
  obtain ⟨r, c, l, p, hb⟩ := encgridBody_eq hg ho h8 hx
  rw [execEncgrid, hb]
  split
  · next ht => exact ⟨_, rfl, by rw [State.accepted_of_takesAll ht]; rfl⟩
  · exact ⟨_, rfl, rfl⟩

/-- ENCHDR cut off after `n` bytes (70_reset_and_hazards.md R131): the stage ran with a capped sink. -/
theorem State.Inv.cutBytes_of_enchdr (h : s.Inv) (hp : s.phase = .enchdr) (n : Nat) :
    s.cutBytes n = s.dst.bytes ++ (s.accepted (headerBytes s.hdr)).take n := by
  have hr := h.stageIsReady
  simp only [State.stageReady, hp] at hr
  obtain ⟨hg, ho, h0⟩ := hr
  obtain ⟨t, he, ht⟩ := execEnchdr_bytes (s := s.capSink n) (h.gridNeedsHeader hg) ho h0
  simp only [State.cutBytes, hp, he]
  rw [ht, State.accepted_capSink]
  rfl

/-- ENCGRID cut off after `n` bytes (70_reset_and_hazards.md R131): the stage ran with a capped sink. -/
theorem State.Inv.cutBytes_of_encgrid (h : s.Inv) (hp : s.phase = .encgrid) (n : Nat) :
    s.cutBytes n = s.dst.bytes ++ (s.accepted s.payload).take n := by
  have hr := h.stageIsReady
  simp only [State.stageReady, hp] at hr
  obtain ⟨hg, ho, h8⟩ := hr
  obtain ⟨t, he, ht⟩ := execEncgrid_bytes (s := s.capSink n) hg (h.gridDimensions hg) ho h8
  simp only [State.cutBytes, hp, he]
  rw [ht, State.accepted_capSink]
  rfl

end

/-- Settles O43: the reset leaves `State.cutBytes` in DST, and the move taken is no part of what the stage gives. -/
theorem resetCutsTheOutputAnywhere : Obligations.ResetCutsTheOutputAnywhere := by
  intro s given rest h hh
  have hpop : State.Inv { s with host := rest } := h.environment rest s.rdata s.draws
  have hstep := step_of_move hh nofun nofun
  exact ⟨fun hp => ⟨_, hstep, hpop.cutBytes_of_enchdr hp given⟩,
    fun hp => ⟨_, hstep, hpop.cutBytes_of_encgrid hp given⟩⟩

/-! ### The bindings -/

/-- Settles O40: BUSY alone decides whether a binding is taken or refused. -/
theorem hostBindsOnlyWhileIdle : Obligations.HostBindsOnlyWhileIdle := by
  refine ⟨fun s ok bytes rest hh => ?_, fun s ok limit bytes rest hh => ?_⟩ <;>
    rw [step_of_move hh nofun nofun]
  · exact ⟨fun hb => if_neg (by simp [hb]), fun hb => if_pos hb⟩
  · exact ⟨fun hb => if_neg (by simp [hb]), fun hb => if_pos hb⟩

end Sys2Proof.Machine
end
